-- ==== Sys2Proof/Word.lean ====
section
/-! DEFINITION. The words of ITC-CORE and the plainest arithmetic on them (00_scope.md R8 to R11).
Registers are 32 bits wide, DMEM is byte-addressed, and a bit sequence is a finite list of bits, first bit first. -/

namespace Sys2Proof

/-- A 32-bit register value (R8). -/
abbrev Word := BitVec 32

/-- A byte of DMEM, and a symbol of the alphabet 0 to 255 (R8). -/
abbrev Byte := BitVec 8

/-- A bit sequence, and a vector over GF(2) (R10, R12): `true` is the bit 1. -/
abbrev Bits := List Bool

/-- A matrix over GF(2) as the list of its rows (R12). -/
abbrev BitMatrix := List Bits

/-- `ceil8(x)` of R11: the number of bytes that hold `x` bits. -/
abbrev ceil8 (x : Nat) : Nat := (x + 7) / 8

end Sys2Proof
end

