-- ==== Sys2Proof/Config.lean ====
section
/-! DEFINITION. What an implementation fixes (00_scope.md R7) and the free values (93_implementation_defined.md).
The parameters are an argument of the model: State holds them, constant, and PARAM0 and PARAM1 read the sizes (log 1). -/

namespace Sys2Proof

/-- The implementation parameters of R7, and the platform parameter that R842 of 60_exceptions.md adds to them. -/
structure Params where
  /-- N_MAX: the largest codeword length a code may have. -/
  nMax : Nat
  /-- P_MAX: the largest parity length a code may have. -/
  pMax : Nat
  /-- DMEM_SIZE: the size of the data memory in bytes. -/
  dmemSize : Nat
  /-- BASE: the host bus address of the block's window. -/
  base : Nat
  /-- The routing of IRQ (60_exceptions.md R810, R842; 93 U10): the number of the platform's interrupt-controller line that
  the block's IRQ output drives (log 25). -/
  irqLine : Nat
  deriving DecidableEq, Repr

/-- The defaults of R7. DESIGN CHOICE (log 1, log 25): BASE and the IRQ line's routing are open in the spec and are 0 here. -/
def Params.default : Params := { nMax := 256, pMax := 12, dmemSize := 65536, base := 0, irqLine := 0 }

/-- The bytes of the block's window before DMEM begins: the register block and the reserved part (R201). -/
abbrev dmemOffset : Nat := 0x10000

/-- The size of the block's window: the least power of two that holds `0x10000 + DMEM_SIZE` bytes.
DESIGN CHOICE (log 24): R7 gives this number as BASE's alignment only, and R201 does not say where the window ends; the model
ends it at BASE plus this size. -/
def Params.windowSize (p : Params) : Nat := 2 ^ (Nat.log2 (dmemOffset + p.dmemSize - 1) + 1)

/-- The legal ranges of R7. The spec gives `irqLine` none. -/
def Params.legal (p : Params) : Bool :=
  decide (3 ≤ p.nMax) && decide (p.nMax ≤ 65535)
    && decide (2 ≤ p.pMax) && decide (p.pMax ≤ 16)
    && decide (p.dmemSize % 4 = 0) && decide (1024 ≤ p.dmemSize) && decide (p.dmemSize ≤ 2 ^ 28)
    && decide (p.base % p.windowSize = 0)

/-- The value ID reads (R2, R110). -/
def identification : Word := 0x48430100#32

/-- FREE VALUE (log 4; 93 U1, U2, U7): the byte at a DMEM offset that nothing has written since the hardware reset
with the given number. R902: an arbitrary value, not a fixed 0. -/
opaque Config.unwrittenByte : Nat → Nat → Byte

/-- FREE VALUE (log 5; 93 U6): how many further inputs the block performs before the command of the issue with the given
number completes. R920: finite and not specified. -/
opaque Config.completionDelay : Nat → Nat

/-- FREE VALUE (log 3; 93 U4): the matrix P that an LCLOADH leaves meaningless, for the hardware reset and the code change
with the given numbers. -/
opaque Config.meaninglessP : Nat → Nat → BitMatrix

/-- FREE VALUE (log 3; 93 U4): the matrix G that an LCLOADH leaves meaningless, for the hardware reset and the code change
with the given numbers. It is a constant of its own: U4 leaves each of the two matrices any value, so nothing relates them. -/
opaque Config.meaninglessG : Nat → Nat → BitMatrix

end Sys2Proof
end

