-- ==== Sys2Proof/Syntax.lean ====
section
/-! DEFINITION. The commands of ITC-CORE (30_encoding.md R303), one constructor per row of the opcode table, and the three
fields of a command word (R300). -/

namespace Sys2Proof

/-- The 21 commands. Only HCODE carries an immediate, its symbol (R300, R301); every other operand comes from the operand
latch (R302). -/
inductive Instr where
  /-- NOP, R700. -/
  | nop
  /-- HFREQ, R410: count symbol frequencies. -/
  | hfreq
  /-- HBUILD, R411: build the tree and code map from a frequency table. -/
  | hbuild
  /-- HENC, R412: encode bytes with the current code map. -/
  | henc
  /-- HDEC, R413: decode a bit sequence with the current tree. -/
  | hdec
  /-- HCOMP, R414: compress. -/
  | hcomp
  /-- HDECOMP, R415: decompress. -/
  | hdecomp
  /-- HCODE, R416: read one codeword, of the symbol in IMM8. -/
  | hcode (symbol : Byte)
  /-- PACK, R510: pack cells into bits. -/
  | pack
  /-- UNPACK, R511: unpack bits into cells. -/
  | unpack
  /-- PAD, R512: PKCS#7 block padding. -/
  | pad
  /-- UNPAD, R513: PKCS#7 depadding. -/
  | unpad
  /-- LCGEN, R610: build a code from (n, k). -/
  | lcgen
  /-- LCLOADH, R611: import a code from its parity-check matrix. -/
  | lcloadh
  /-- LCSTOREH, R612: export H. -/
  | lcstoreh
  /-- LCSTOREG, R613: export G. -/
  | lcstoreg
  /-- LCENC, R614: encode one message. -/
  | lcenc
  /-- LCDEC, R615: decode one word. -/
  | lcdec
  /-- LCENCS, R616: encode a stream of messages. -/
  | lcencs
  /-- LCDECS, R617: decode a stream of words. -/
  | lcdecs
  /-- LCSYN, R618: compute a syndrome only. -/
  | lcsyn
  deriving DecidableEq, Repr

/-- The fields of a command word (R300). -/
structure CommandFields where
  /-- bits 31:16, reserved. -/
  rsvd : BitVec 16
  /-- bits 15:8, the immediate. -/
  imm8 : Byte
  /-- bits 7:0, the opcode. -/
  opc : Byte
  deriving DecidableEq, Repr

end Sys2Proof
end

