-- ==== Sys2Proof/Machine/State.lean ====
section
/-! DEFINITION. The state of ITC-CORE (10_state.md), the inputs of the outside world, the result of a command, and the state
after reset (R150). Everything is plain data. -/

namespace Sys2Proof.Machine

/-- Why the machine stops. Nothing in the spec stops it: a command error is a completion (60_exceptions.md R800, R820) and a
bus error is a response (R807), so there is no reason to list. Safe: no step of the model faults (log 16). -/
inductive Fault where
  deriving DecidableEq, Repr

/-- Why the model gives no meaning. -/
inductive Refusal where
  /-- Raised only by an arm of `exec` that has no meaning yet, by mnemonic. No arm is in that case (log 16). Safe. -/
  | notModelled (mnemonic : String)
  deriving DecidableEq, Repr

/-- The error codes of 60_exceptions.md R801 other than NONE. -/
inductive ErrorCode where
  | invalidArgument
  | invalidPadding
  | lengthMismatch
  | notConfigured
  | invalidCode
  | range
  | illegalCommand
  deriving DecidableEq, Repr

/-- The engine state (R135). STATUS.BUSY is 1 exactly when it is `busy`. -/
inductive EngineState where
  | idle
  | busy
  deriving DecidableEq, Repr

/-- A place for a node of the Huffman tree (R130): `Option Node` of the spec is this type, with `absent` for None. -/
inductive Node where
  | absent
  | leaf (symbol : Byte)
  | internal (left right : Node)
  deriving DecidableEq, Repr

/-- The Huffman tree (R130). -/
inductive CodeTree where
  /-- Built from a table with no nonzero count. -/
  | empty
  | root (node : Node)
  deriving DecidableEq, Repr

/-- The linear code (R132): n, k, and the matrices P (p×k), G (k×n) and H (p×n), p = n − k. -/
structure LinearCode where
  n : Nat
  k : Nat
  P : BitMatrix
  G : BitMatrix
  H : BitMatrix
  deriving DecidableEq, Repr

/-- The operand latch (R134). `cmd_op` and `cmd_imm` are bits of `raw`: see `Latch.cmdOp` and `Latch.cmdImm`. -/
structure Latch where
  raw : Word
  src : Word
  len : Word
  dst : Word
  aux : Word
  aux2 : Word
  deriving DecidableEq, Repr

/-- The 16 registers of the register block (R101). -/
inductive Reg where
  | id | ctrl | status | cmd
  | arg0 | arg1 | arg2 | arg3 | arg4
  | res0 | res1 | codeN | codeK | synd | param0 | param1
  deriving DecidableEq, Repr

/-- What a bus access does. A write carries its data in the low bits of a word (log 15). -/
inductive AccessKind where
  | read
  | write (data : Word)
  deriving DecidableEq, Repr

/-- One host bus access: a host address, a width in bytes, and what it does (R102, R202). -/
structure BusAccess where
  address : Nat
  bytes : Nat
  kind : AccessKind
  deriving DecidableEq, Repr

/-- What the block answers to an access (R102, R807). -/
inductive BusResponse where
  /-- A read: its value, zero-extended (log 15). -/
  | data (value : Word)
  /-- A write: the normal response. -/
  | done
  /-- The bus error response (R807). -/
  | busError
  /-- The address is outside the block's window: the access is not this block's (log 11). -/
  | notSelected
  deriving DecidableEq, Repr

/-- An input from the outside world (log 6). -/
inductive Input where
  /-- A host bus access. -/
  | access (a : BusAccess)
  /-- The host statement WAIT (30_encoding.md R307): read STATUS until BUSY = 0. -/
  | wait
  /-- The platform drives the reset input: `true` asserts it (70_reset_and_hazards.md R900). -/
  | resetLine (asserted : Bool)
  deriving DecidableEq, Repr

/-- What a successful command does (30_encoding.md R311): the ordered DMEM writes, the two results, and the updates of
tables, SYND and UNC. -/
structure Effects where
  /-- Each write is an offset and the bytes stored there. -/
  writes : List (Nat × List Byte) := []
  res0 : Word
  res1 : Word
  /-- A new Huffman tree, which also sets tree_valid (R133). -/
  tree : Option CodeTree := none
  /-- A new linear code and the new g_valid; code_valid is set (R133). -/
  code : Option (LinearCode × Bool) := none
  /-- New SYND and new UNC. -/
  syndrome : Option (Word × Bool) := none
  deriving DecidableEq, Repr

/-- `Ok(writes, res0, res1, updates)` or `Err(code)` (30_encoding.md R311). -/
abbrev CommandResult := Except ErrorCode Effects

/-- The state of the block, its parameters, and the inputs it has not performed yet. -/
structure State where
  /-- The parameters (00_scope.md R7), constant; read through PARAM0 and PARAM1 (R119). -/
  params : Params
  /-- CTRL.IE (R111). -/
  ie : Bool
  /-- The engine state, mirrored by STATUS.BUSY (R135). -/
  engine : EngineState
  /-- STATUS.DONE (R112). -/
  done : Bool
  /-- STATUS.ERR (R112). -/
  err : Bool
  /-- STATUS.CMD_OVR (R112). -/
  cmdOvr : Bool
  /-- STATUS.ERRCODE (R112). -/
  errCode : BitVec 4
  /-- tree_valid, mirrored by STATUS.TREE_VALID (R133). -/
  treeValid : Bool
  /-- code_valid, mirrored by STATUS.CODE_VALID (R133). -/
  codeValid : Bool
  /-- g_valid, mirrored by STATUS.G_VALID (R133). -/
  gValid : Bool
  /-- STATUS.UNC (R112, R121). -/
  unc : Bool
  /-- ARG0 to ARG4 (R115). -/
  arg0 : Word
  arg1 : Word
  arg2 : Word
  arg3 : Word
  arg4 : Word
  /-- RES0 and RES1 (R116). -/
  res0 : Word
  res1 : Word
  /-- SYND (R118). -/
  synd : Word
  /-- The Huffman tree (R130); the code map is computed from it (R131). -/
  tree : CodeTree
  /-- The linear code (R132); the syndrome table is computed from its H. -/
  code : LinearCode
  /-- The operand latch (R134). -/
  latch : Latch
  /-- The reset input is asserted (R900). -/
  inReset : Bool
  /-- DMEM (20_memory.md R200): the bytes written since the last hardware reset, by rising offset. -/
  mem : List Host.Cell
  /-- MODEL: the inputs not yet performed, the next one first (log 6). -/
  pending : List Input
  /-- MODEL: the response to the access performed last (log 7). -/
  response : Option BusResponse
  /-- MODEL: how many further inputs are performed before the running command completes (log 5). -/
  delay : Nat
  /-- MODEL: the number of accepted issues, the counter of `Config.completionDelay` (log 5). -/
  issues : Nat
  /-- MODEL: the number of hardware resets, the counter of `Config.unwrittenByte` (log 4). -/
  memEpoch : Nat
  /-- MODEL: the number of times the linear code was replaced since the hardware reset, the counter of
  `Config.meaninglessP` and `Config.meaninglessG` (log 3). -/
  codeChanges : Nat
  deriving DecidableEq, Repr

/-- DESIGN CHOICE (log 2): the latch before the first issue, which R134 leaves unspecified. -/
def Latch.unloaded : Latch := { raw := 0#32, src := 0#32, len := 0#32, dst := 0#32, aux := 0#32, aux2 := 0#32 }

/-- DESIGN CHOICE (log 3): the linear code before one is set, which R132 leaves unspecified. -/
def LinearCode.unset : LinearCode := { n := 0, k := 0, P := [], G := [], H := [] }

/-- The state right after hardware reset of a block with the given parameters (R150). -/
def State.resetWith (p : Params) : State :=
  { params := p, ie := false, engine := .idle, done := false, err := false, cmdOvr := false, errCode := 0#4
    treeValid := false, codeValid := false, gValid := false, unc := false
    arg0 := 0#32, arg1 := 0#32, arg2 := 0#32, arg3 := 0#32, arg4 := 0#32
    res0 := 0#32, res1 := 0#32, synd := 0#32
    tree := .empty, code := LinearCode.unset, latch := Latch.unloaded
    inReset := false, mem := [], pending := [], response := none, delay := 0, issues := 0, memEpoch := 0, codeChanges := 0 }

/-- The state right after hardware reset (R150, R900), with the default parameters of R7 (log 1). -/
def State.reset : State := State.resetWith Params.default

end Sys2Proof.Machine
end

