-- ==== Sys2Proof/Machine/Ops.lean ====
section
/-! DEFINITION. The named operations over memory, bit sequences and registers that every command shares: the canonical memory,
packing (20_memory.md R204 to R206), byte order (R202, R209), commit and completion (30_encoding.md R312, R313), error completion
and its acknowledgement (60_exceptions.md R820, R822), issue (R310) and the two resets (70_reset_and_hazards.md R900, R901). -/

namespace Sys2Proof.Machine

/-! ### DMEM as a list of written bytes -/

/-- The canonical form: offsets strictly rising. An unlisted offset holds no known byte (log 4), so every listed entry differs
from what an unlisted offset reads as. -/
def Memory.wf : List Host.Cell → Bool
  | [] => true
  | [_] => true
  | c :: d :: rest => decide (c.1 < d.1) && Memory.wf (d :: rest)

/-- The byte written at offset `a`, if any. -/
def Memory.lookup (m : List Host.Cell) (a : Nat) : Option Byte :=
  (m.find? (fun c => c.1 == a)).map (fun c => c.2)

/-- The cells of the bytes `bs` stored from offset `a` on. -/
def Memory.cells (a : Nat) : List Byte → List Host.Cell
  | [] => []
  | b :: bs => (a, b) :: Memory.cells (a + 1) bs

/-- `BytesWrite(a, bs)` of 00_scope.md R13: the listed cells below the region, the region, and the listed cells above it. -/
def Memory.write (m : List Host.Cell) (a : Nat) (bs : List Byte) : List Host.Cell :=
  if bs.isEmpty then m
  else m.filter (fun c => decide (c.1 < a)) ++ Memory.cells a bs
    ++ m.filter (fun c => decide (a + bs.length ≤ c.1))

/-- The `n` bytes from offset `a` on, by one walk along the rising cells; `free` gives the bytes nothing has written.
On a canonical memory this is `Memory.lookup` offset by offset (Laws/Memory.lean). -/
def Memory.readRun (free : Nat → Byte) : List Host.Cell → Nat → Nat → List Byte
  | _, _, 0 => []
  | m, a, n + 1 =>
    match m.dropWhile (fun c => decide (c.1 < a)) with
    | [] => free a :: Memory.readRun free [] (a + 1) n
    | c :: rest =>
      if c.1 = a then c.2 :: Memory.readRun free rest (a + 1) n
      else free a :: Memory.readRun free (c :: rest) (a + 1) n

/-- A list of DMEM writes applied in order (R312). -/
def Memory.writeAll (m : List Host.Cell) (writes : List (Nat × List Byte)) : List Host.Cell :=
  writes.foldl (fun m' w => Memory.write m' w.1 w.2) m

/-- `ByteRead(a)` of 00_scope.md R13. A byte nothing has written since hardware reset is a free value (R902, log 4). -/
def State.readByte (s : State) (a : Nat) : Byte :=
  (Memory.lookup s.mem a).getD (Config.unwrittenByte s.memEpoch a)

/-- `BytesRead(a, n)` of 00_scope.md R13. -/
def State.bytesRead (s : State) (a n : Nat) : List Byte :=
  Memory.readRun (Config.unwrittenByte s.memEpoch) s.mem a n

/-! ### Big-endian numbers (R202, R209) -/

/-- The number whose big-endian bytes are `bs`. -/
def beNumber (bs : List Byte) : Nat := bs.foldl (fun acc b => 256 * acc + b.toNat) 0

/-- The `n`-byte big-endian form of `v`. -/
def beBytes : Nat → Nat → List Byte
  | 0, _ => []
  | n + 1, v => beBytes n (v / 256) ++ [BitVec.ofNat 8 v]

/-- `MemRead(a, n)` of 00_scope.md R13. -/
def State.memRead (s : State) (a n : Nat) : Nat := beNumber (s.bytesRead a n)

/-! ### Bit sequences in bytes (R204 to R206) -/

/-- The number a bit sequence writes in binary, first bit most significant. -/
def bitsNumber (b : Bits) : Nat := b.foldl (fun acc x => 2 * acc + x.toNat) 0

/-- One byte of `pack`: the first eight bits of `b`, the first most significant, missing bits 0 (R206). -/
def packByte (b : Bits) : Byte :=
  BitVec.ofNat 8 (bitsNumber ((List.range 8).map (fun t => b.getD t false)))

/-- The first `n` bytes of the packed form of `b`. -/
def packBytes : Nat → Bits → List Byte
  | 0, _ => []
  | n + 1, b => packByte b :: packBytes n (b.drop 8)

/-- `pack(b)` of R206. -/
def pack (b : Bits) : List Byte := packBytes (ceil8 b.length) b

/-- The eight bits of a byte, most significant first. -/
def byteBits (v : Byte) : Bits := (List.range 8).map (fun t => v.getLsbD (7 - t))

/-- `unpack(bs, L)` of R206. -/
def unpack (bs : List Byte) (L : Nat) : Bits := (bs.flatMap byteBits).take L

/-- `BitsRead(a, L)` of R204. -/
def State.bitsRead (s : State) (a L : Nat) : Bits := unpack (s.bytesRead a (ceil8 L)) L

/-- `BitsWrite(a, b)` of R205, as a write of the command's list. -/
def bitsWrite (a : Nat) (b : Bits) : Nat × List Byte := (a, pack b)

/-! ### Completion (R312, R313) -/

/-- Commit of a successful command (R312, the Ok branch). -/
def State.commit (s : State) (e : Effects) : State :=
  { s with
    mem := Memory.writeAll s.mem e.writes
    res0 := e.res0
    res1 := e.res1
    tree := e.tree.getD s.tree
    treeValid := s.treeValid || e.tree.isSome
    code := (e.code.map (fun c => c.1)).getD s.code
    codeValid := s.codeValid || e.code.isSome
    gValid := (e.code.map (fun c => c.2)).getD s.gValid
    synd := (e.syndrome.map (fun c => c.1)).getD s.synd
    unc := (e.syndrome.map (fun c => c.2)).getD s.unc
    codeChanges := s.codeChanges + e.code.toList.length }

/-- Completion (R313): BUSY falls and DONE rises in one step. -/
def State.finish (s : State) : State := { s with engine := .idle, done := true }

/-- The number of an error code in ERRCODE (60_exceptions.md R801). -/
def ErrorCode.number : ErrorCode → BitVec 4
  | .invalidArgument => 1#4
  | .invalidPadding => 2#4
  | .lengthMismatch => 3#4
  | .notConfigured => 4#4
  | .invalidCode => 5#4
  | .range => 6#4
  | .illegalCommand => 7#4

/-- Error completion (R820): the block's form of taking an exception. Nothing is saved and control goes nowhere; RES0 and RES1
become 0, ERR and ERRCODE are set, and the command completes. -/
def State.takeError (s : State) (c : ErrorCode) : State :=
  State.finish { s with res0 := 0#32, res1 := 0#32, err := true, errCode := c.number }

/-- A host write of `v` to STATUS (10_state.md R113). With bit 2 set it is the acknowledgement of an error, the block's form of
returning from an exception (60_exceptions.md R822). -/
def State.writeStatus (s : State) (v : Word) : State :=
  { s with
    done := s.done && !v.getLsbD 1
    err := s.err && !v.getLsbD 2
    errCode := if v.getLsbD 2 then 0#4 else s.errCode
    cmdOvr := s.cmdOvr && !v.getLsbD 3 }

/-- What the engine's result does to the state (R312, R313). -/
def State.complete (s : State) : CommandResult → State
  | .ok e => (s.commit e).finish
  | .error c => s.takeError c

/-! ### Issue (R310) -/

/-- The latch loaded from the command word and ARG0 to ARG4 (R310). -/
def State.loadLatch (s : State) (w : Word) : Latch :=
  { raw := w, src := s.arg0, len := s.arg1, dst := s.arg2, aux := s.arg3, aux2 := s.arg4 }

/-- An accepted issue of the word `w` (R310). The time to completion is a free value (R920, log 5). -/
def State.issue (s : State) (w : Word) : State :=
  { s with
    latch := s.loadLatch w
    done := false
    err := false
    errCode := 0#4
    unc := false
    engine := .busy
    delay := Config.completionDelay s.issues
    issues := s.issues + 1 }

/-- A host write of `w` to CMD: an issue when BUSY = 0 (R310), dropped with CMD_OVR when BUSY = 1 (R910). -/
def State.writeCmd (s : State) (w : Word) : State :=
  match s.engine with
  | .idle => s.issue w
  | .busy => { s with cmdOvr := true }

/-! ### The resets (R900, R901, R150) -/

/-- Soft reset (R901): every register at its reset value, DMEM unchanged. What R150 leaves unspecified takes the values of
`State.resetWith` (log 2, log 3). -/
def State.softReset (s : State) : State :=
  { State.resetWith s.params with
    inReset := s.inReset
    mem := s.mem
    pending := s.pending
    response := s.response
    issues := s.issues
    memEpoch := s.memEpoch
    codeChanges := s.codeChanges }

/-- Hardware reset (R900): every register at its reset value and every DMEM byte unspecified; a running command is abandoned. -/
def State.hardReset (s : State) (asserted : Bool) : State :=
  { State.resetWith s.params with
    inReset := asserted
    pending := s.pending
    response := s.response
    issues := s.issues
    memEpoch := s.memEpoch + 1 }

/-- The platform drives the reset input (R900): asserting it resets the block, and deasserting it leaves the block in its
reset state. A line that is driven low while it is low changes nothing. -/
def State.driveResetLine (s : State) (asserted : Bool) : State :=
  if asserted || s.inReset then s.hardReset asserted else s

end Sys2Proof.Machine
end

