-- ==== Sys2Proof/Machine/Operands.lean ====
section
/-! DEFINITION. The operands of a command (30_encoding.md R301, R302): the latch read as natural numbers, range checks, and the
structured layouts of 20_memory.md R209 and R210. -/

namespace Sys2Proof.Machine

/-- `cmd_op`, bits [7:0] of the latched word (10_state.md R134). -/
def Latch.cmdOp (l : Latch) : Byte := l.raw.extractLsb' 0 8

/-- `cmd_imm`, bits [15:8] of the latched word (10_state.md R134). -/
def Latch.cmdImm (l : Latch) : Byte := l.raw.extractLsb' 8 8

/-- The operand `src`, latched from ARG0. -/
def State.opSrc (s : State) : Nat := s.latch.src.toNat

/-- The operand `len`, latched from ARG1: bits for a bit sequence, bytes for a byte buffer (R301). -/
def State.opLen (s : State) : Nat := s.latch.len.toNat

/-- The operand `dst`, latched from ARG2. -/
def State.opDst (s : State) : Nat := s.latch.dst.toNat

/-- The operand `aux`, latched from ARG3. -/
def State.opAux (s : State) : Nat := s.latch.aux.toNat

/-- The operand `aux2`, latched from ARG4. -/
def State.opAux2 (s : State) : Nat := s.latch.aux2.toNat

/-- `CheckRange(a, l)` raises RANGE (20_memory.md R207): the region of `l` bytes at `a` reaches past DMEM_SIZE, exactly. -/
abbrev State.outOfRange (s : State) (a l : Nat) : Prop := s.params.dmemSize < a + l

/-- A number in a result register. Every result is below 2^32 for legal parameters (R7, log 18). -/
abbrev result (v : Nat) : Word := BitVec.ofNat 32 v

/-- RES1 of a decode that flips nothing (43_linear_code.md R607). -/
def noPosition : Word := 0xFFFFFFFF#32

/-! ### Frequency tables (R209; 41_huffman.md R400, R401) -/

/-- A frequency table: the counts of the symbols 0 to 255, in order. -/
abbrev FreqTable := List Nat

/-- The size of a frequency table in DMEM. -/
abbrev tableBytes : Nat := 1024

/-- The count of a symbol. -/
def FreqTable.count (f : FreqTable) (symbol : Nat) : Nat := f.getD symbol 0

/-- Consecutive big-endian 32-bit numbers in a byte list. -/
def beWords : Nat → List Byte → List Nat
  | 0, _ => []
  | n + 1, bs => beNumber (bs.take 4) :: beWords n (bs.drop 4)

/-- `ReadTable(a)` of R401. -/
def State.readTable (s : State) (a : Nat) : FreqTable := beWords 256 (s.bytesRead a tableBytes)

/-- `WriteTable(a, freq)` of R401, as a write of the command's list: 256 consecutive big-endian counts (log 19). -/
def tableWrite (a : Nat) (f : FreqTable) : Nat × List Byte :=
  (a, (List.range 256).flatMap (fun symbol => beBytes 4 (f.count symbol)))

/-! ### Bit matrices (R210; 00_scope.md R12) -/

/-- Entry `M[i][j]`. -/
def matrixEntry (M : BitMatrix) (i j : Nat) : Bool := (M.getD i []).getD j false

/-- The row-major bits of a matrix (R210). -/
def matrixBits (M : BitMatrix) : Bits := M.flatten

/-- The `r`×`c` matrix with the given row-major bits (R210). -/
def matrixOfBits : Nat → Nat → Bits → BitMatrix
  | 0, _, _ => []
  | r + 1, c, b => b.take c :: matrixOfBits r c (b.drop c)

/-- Column `j` of a matrix, row 0 first. -/
def matrixColumn (M : BitMatrix) (j : Nat) : Bits := M.map (fun row => row.getD j false)

end Sys2Proof.Machine
end

