-- ==== Sys2Proof/Machine/Flags.lean ====
section
/-! DEFINITION. The flags and the register views that are computed from State: STATUS, CTRL, CODE_N, CODE_K, PARAM0, PARAM1 and
the IRQ line with its routing (10_state.md R111, R112, R117, R119, R136; 60_exceptions.md R810, R842). -/

namespace Sys2Proof.Machine

/-- STATUS.BUSY (R112, R135). -/
def State.busy (s : State) : Bool := s.engine = .busy

/-- The word STATUS reads (R112): bits 31:12 reserved, UNC, G_VALID, CODE_VALID, TREE_VALID, ERRCODE, CMD_OVR, ERR, DONE, BUSY. -/
def State.statusWord (s : State) : Word :=
  0#20 ++ BitVec.ofBool s.unc ++ BitVec.ofBool s.gValid ++ BitVec.ofBool s.codeValid ++ BitVec.ofBool s.treeValid
    ++ s.errCode ++ BitVec.ofBool s.cmdOvr ++ BitVec.ofBool s.err ++ BitVec.ofBool s.done ++ BitVec.ofBool s.busy

/-- The word CTRL reads (R111): IE in bit 1, SRST and the reserved bits 0. -/
def State.ctrlWord (s : State) : Word := 0#30 ++ BitVec.ofBool s.ie ++ 0#1

/-- The word CODE_N reads (R117). -/
def State.codeNWord (s : State) : Word := if s.codeValid then result s.code.n else 0#32

/-- The word CODE_K reads (R117). -/
def State.codeKWord (s : State) : Word := if s.codeValid then result s.code.k else 0#32

/-- The word PARAM0 reads (R119): P_MAX in bits 23:16 and N_MAX in bits 15:0. -/
def State.param0Word (s : State) : Word :=
  0#8 ++ BitVec.ofNat 8 s.params.pMax ++ BitVec.ofNat 16 s.params.nMax

/-- The word PARAM1 reads (R119): DMEM_SIZE. -/
def State.param1Word (s : State) : Word := BitVec.ofNat 32 s.params.dmemSize

/-- The IRQ output (R136, 60_exceptions.md R810): the level IE ∧ DONE. -/
def State.irq (s : State) : Bool := s.ie && s.done

/-- The level the block drives on a line of the platform's interrupt controller (60_exceptions.md R810, R842): IRQ on the line
the routing parameter names, nothing on any other (log 25). -/
def State.irqOnLine (s : State) (line : Nat) : Bool := decide (line = s.params.irqLine) && s.irq

/-- A host write of `v` to CTRL (R111, R901): SRST performs the soft reset, which also clears IE; otherwise IE takes bit 1. -/
def State.writeCtrl (s : State) (v : Word) : State :=
  if v.getLsbD 0 then s.softReset else { s with ie := v.getLsbD 1 }

end Sys2Proof.Machine
end

