-- ==== Sys2Proof/Machine/Bus.lean ====
section
/-! DEFINITION. The host's side: the register map and its accesses (10_state.md R101, R102, R113 to R119), the window and host
DMEM accesses (20_memory.md R201 to R203), what is held while BUSY = 1 (70_reset_and_hazards.md R910 to R914), and the step in
which the block performs the next input. -/

namespace Sys2Proof.Machine

/-- The register map of R101, by offset / 4. -/
def registerMap : List Reg :=
  [ .id, .ctrl, .status, .cmd, .arg0, .arg1, .arg2, .arg3, .arg4, .res0, .res1, .codeN, .codeK, .synd, .param0, .param1 ]

/-- The register at a byte offset of the window, if one is there (R101, R102). -/
def Reg.atOffset (offset : Nat) : Option Reg := if offset % 4 = 0 then registerMap[offset / 4]? else none

/-- The byte offset of a register (R101). -/
def Reg.offset (r : Reg) : Nat := 4 * registerMap.idxOf r

/-- What an access reaches (R201). -/
inductive Target where
  /-- An address outside the block's window, which ends where log 24 says (log 11). -/
  | outside
  | register (r : Reg)
  /-- A host DMEM access the block accepts, at a DMEM offset (R202). -/
  | dmem (offset : Nat)
  /-- A host DMEM access that is misaligned, reaches past DMEM_SIZE or has another width (R202, log 10). -/
  | badDmem
  /-- A reserved part of the window, or a register access that is not 32-bit aligned (R102, R201). -/
  | reserved
  deriving DecidableEq, Repr

/-- A host DMEM access is 8, 16 or 32 bits wide, naturally aligned and wholly below DMEM_SIZE (R202). -/
def Params.dmemAccessOk (p : Params) (bytes offset : Nat) : Bool :=
  (bytes = 1 || bytes = 2 || bytes = 4) && offset % bytes = 0 && decide (offset + bytes ≤ p.dmemSize)

/-- The target of an access at an offset of the window. -/
def Params.targetAt (p : Params) (bytes offset : Nat) : Target :=
  if offset < dmemOffset then
    if bytes = 4 then ((Reg.atOffset offset).map Target.register).getD .reserved else .reserved
  else if Params.dmemAccessOk p bytes (offset - dmemOffset) then .dmem (offset - dmemOffset)
  else if offset - dmemOffset < p.dmemSize then .badDmem
  else .reserved

/-- The target of an access (R201). -/
def Params.target (p : Params) (a : BusAccess) : Target :=
  if a.address < p.base ∨ p.base + p.windowSize ≤ a.address then .outside
  else Params.targetAt p a.bytes (a.address - p.base)

/-- The value a register reads (R101, R110 to R119). A read has no side effect (R102). -/
def State.readRegister (s : State) : Reg → Word
  | .id => identification
  | .ctrl => s.ctrlWord
  | .status => s.statusWord
  | .cmd => 0#32
  | .arg0 => s.arg0
  | .arg1 => s.arg1
  | .arg2 => s.arg2
  | .arg3 => s.arg3
  | .arg4 => s.arg4
  | .res0 => s.res0
  | .res1 => s.res1
  | .codeN => s.codeNWord
  | .codeK => s.codeKWord
  | .synd => s.synd
  | .param0 => s.param0Word
  | .param1 => s.param1Word

/-- A host write to a register (R111, R113 to R115). A write to a read-only register is ignored (R102). -/
def State.writeRegister (s : State) (r : Reg) (v : Word) : State :=
  match r with
  | .ctrl => s.writeCtrl v
  | .status => s.writeStatus v
  | .cmd => s.writeCmd v
  | .arg0 => { s with arg0 := v }
  | .arg1 => { s with arg1 := v }
  | .arg2 => { s with arg2 := v }
  | .arg3 => { s with arg3 := v }
  | .arg4 => { s with arg4 := v }
  | .id | .res0 | .res1 | .codeN | .codeK | .synd | .param0 | .param1 => s

/-- The response the bus gives to an access. -/
def State.respond (s : State) (r : BusResponse) : State := { s with response := some r }

/-- The block performs one access. While the reset input is asserted, a read returns 0 and a write has no effect (R900). -/
def State.performAccess (s : State) (a : BusAccess) : State :=
  if s.inReset then
    match a.kind with
    | .read => s.respond (.data 0#32)
    | .write _ => s.respond .done
  else
    match Params.target s.params a, a.kind with
    | .outside, _ => s.respond .notSelected
    | .reserved, _ => s.respond .busError
    | .badDmem, _ => s.respond .busError
    | .register r, .read => s.respond (.data (s.readRegister r))
    | .register r, .write v => (s.writeRegister r v).respond .done
    | .dmem d, .read => s.respond (.data (BitVec.ofNat 32 (s.memRead d a.bytes)))
    | .dmem d, .write v => { s with mem := Memory.write s.mem d (beBytes a.bytes v.toNat) }.respond .done

/-- An access that is held while BUSY = 1: a CTRL write (R911) or a host DMEM access (R203, R913; log 9). -/
def Params.holds (p : Params) (a : BusAccess) : Bool :=
  match Params.target p a, a.kind with
  | .register .ctrl, .write _ => true
  | .dmem _, _ => true
  | .badDmem, _ => true
  | _, _ => false

/-- The read of STATUS that WAIT repeats (30_encoding.md R307). -/
def State.statusRead (s : State) : BusAccess := { address := s.params.base + 8, bytes := 4, kind := .read }

/-- The running command moves to completion now, before the next input (R920, log 5): the free delay has run out, no input is
left to perform, or the next input is an access held until BUSY = 0. -/
def State.engineMoves (s : State) : Bool :=
  !s.inReset && s.busy &&
    (s.delay = 0 ||
      match s.pending with
      | [] => true
      | .access a :: _ => Params.holds s.params a
      | .wait :: _ => false
      | .resetLine _ :: _ => false)

/-- The state once the next input is taken from the list. -/
def State.takeInput (s : State) (rest : List Input) : State := { s with pending := rest, delay := s.delay - 1 }

/-- The block performs the next input; with none, nothing happens: it waits (R900, R845). WAIT stays at the head of the list
for as long as its STATUS read returns BUSY = 1. -/
def State.inputStep (s : State) : State :=
  match s.pending with
  | [] => s
  | .access a :: rest => (s.takeInput rest).performAccess a
  | .wait :: rest =>
    if !s.inReset && s.busy then (s.takeInput (.wait :: rest)).performAccess s.statusRead
    else (s.takeInput rest).performAccess s.statusRead
  | .resetLine asserted :: rest => (s.takeInput rest).driveResetLine asserted

end Sys2Proof.Machine
end

