-- ==== Sys2Proof/WellFormed.lean ====
section
/-! DEFINITION. Which command words are legal, written from the list of illegal encodings (30_encoding.md R304).
The decoder is written from the opcode map and the decode function (R303, R305) instead, so that the two can be compared.
A value of `Instr` needs no check: its one field, HCODE's symbol, has the width of IMM8. -/

namespace Sys2Proof

/-- RSVD must be 0 (R300, R304 first point). -/
def CommandFields.reservedClear (f : CommandFields) : Bool := f.rsvd = 0#16

/-- The opcode is none of 0x08 to 0x0F, 0x14 to 0x1F and 0x29 to 0xFF (R304 second point). -/
def CommandFields.opcodeMapped (f : CommandFields) : Bool :=
  !((0x08 ≤ f.opc.toNat && f.opc.toNat ≤ 0x0F)
    || (0x14 ≤ f.opc.toNat && f.opc.toNat ≤ 0x1F)
    || (0x29 ≤ f.opc.toNat && f.opc.toNat ≤ 0xFF))

/-- IMM8 must be 0 for every opcode but HCODE's (R300, R304 third point). -/
def CommandFields.immediateAllowed (f : CommandFields) : Bool := f.opc = 0x07#8 || f.imm8 = 0#8

/-- The word is legal: none of R304's three points applies. -/
def CommandFields.wellFormed (f : CommandFields) : Bool :=
  f.reservedClear && f.opcodeMapped && f.immediateAllowed

end Sys2Proof
end

