-- ==== Sys2Proof/Decode.lean ====
section
/-! DEFINITION. Decoding and encoding command words (30_encoding.md R300, R303, R305). -/

namespace Sys2Proof

/-- Why a word is no command (R305). The block reports all three alike, as ILLEGAL_COMMAND (60_exceptions.md R803). -/
inductive DecodeError where
  /-- w[31:16] ≠ 0. -/
  | reservedBits
  /-- w[7:0] is not in the opcode map. -/
  | unmappedOpcode
  /-- w[15:8] ≠ 0 and the opcode is not HCODE's. -/
  | immediateNotZero
  deriving DecidableEq, Repr

/-- The fields of a word (R300). -/
def CommandFields.ofWord (w : Word) : CommandFields :=
  { rsvd := w.extractLsb' 16 16, imm8 := w.extractLsb' 8 8, opc := w.extractLsb' 0 8 }

/-- The word with the given fields (R300). -/
def CommandFields.toWord (f : CommandFields) : Word := (f.rsvd ++ f.imm8) ++ f.opc

/-- One row of the opcode map (R303): the opcode, whether IMM8 is an operand, and the command. -/
structure OpcodeRow where
  opc : Byte
  takesImm : Bool
  command : Byte → Instr

/-- The opcode map (R303). -/
def opcodeMap : List OpcodeRow :=
  [ ⟨0x00#8, false, fun _ => .nop⟩,
    ⟨0x01#8, false, fun _ => .hfreq⟩,
    ⟨0x02#8, false, fun _ => .hbuild⟩,
    ⟨0x03#8, false, fun _ => .henc⟩,
    ⟨0x04#8, false, fun _ => .hdec⟩,
    ⟨0x05#8, false, fun _ => .hcomp⟩,
    ⟨0x06#8, false, fun _ => .hdecomp⟩,
    ⟨0x07#8, true, fun imm => .hcode imm⟩,
    ⟨0x10#8, false, fun _ => .pack⟩,
    ⟨0x11#8, false, fun _ => .unpack⟩,
    ⟨0x12#8, false, fun _ => .pad⟩,
    ⟨0x13#8, false, fun _ => .unpad⟩,
    ⟨0x20#8, false, fun _ => .lcgen⟩,
    ⟨0x21#8, false, fun _ => .lcloadh⟩,
    ⟨0x22#8, false, fun _ => .lcstoreh⟩,
    ⟨0x23#8, false, fun _ => .lcstoreg⟩,
    ⟨0x24#8, false, fun _ => .lcenc⟩,
    ⟨0x25#8, false, fun _ => .lcdec⟩,
    ⟨0x26#8, false, fun _ => .lcencs⟩,
    ⟨0x27#8, false, fun _ => .lcdecs⟩,
    ⟨0x28#8, false, fun _ => .lcsyn⟩ ]

/-- `Decode(w)` of R305, its three tests in that order. -/
def decode (w : Word) : Except DecodeError Instr :=
  let f := CommandFields.ofWord w
  if f.rsvd ≠ 0#16 then .error .reservedBits
  else
    match opcodeMap.find? (fun row => row.opc == f.opc) with
    | none => .error .unmappedOpcode
    | some row =>
      if row.takesImm = false ∧ f.imm8 ≠ 0#8 then .error .immediateNotZero
      else .ok (row.command f.imm8)

/-- The opcode of a command (R303). -/
def Instr.opcode : Instr → Byte
  | .nop => 0x00#8
  | .hfreq => 0x01#8
  | .hbuild => 0x02#8
  | .henc => 0x03#8
  | .hdec => 0x04#8
  | .hcomp => 0x05#8
  | .hdecomp => 0x06#8
  | .hcode _ => 0x07#8
  | .pack => 0x10#8
  | .unpack => 0x11#8
  | .pad => 0x12#8
  | .unpad => 0x13#8
  | .lcgen => 0x20#8
  | .lcloadh => 0x21#8
  | .lcstoreh => 0x22#8
  | .lcstoreg => 0x23#8
  | .lcenc => 0x24#8
  | .lcdec => 0x25#8
  | .lcencs => 0x26#8
  | .lcdecs => 0x27#8
  | .lcsyn => 0x28#8

/-- IMM8 of a command: HCODE's symbol, and 0 for every other command (R300). -/
def Instr.immediate : Instr → Byte
  | .hcode symbol => symbol
  | .nop | .hfreq | .hbuild | .henc | .hdec | .hcomp | .hdecomp => 0#8
  | .pack | .unpack | .pad | .unpad => 0#8
  | .lcgen | .lcloadh | .lcstoreh | .lcstoreg | .lcenc | .lcdec | .lcencs | .lcdecs | .lcsyn => 0#8

/-- The fields of a command's word: RSVD is 0 (R300). -/
def Instr.fields (i : Instr) : CommandFields := { rsvd := 0#16, imm8 := i.immediate, opc := i.opcode }

/-- The command word of a command (R300, R303). -/
def encode (i : Instr) : Word := i.fields.toWord

/-- The command word the opcode table's numbering describes: the low `nbits` bits of `w`, every higher bit 0. -/
def tableWord (nbits w : Nat) : Nat := w % 2 ^ nbits

/-- What the decoder reads from an opcode-table row's word. A command word is exactly 32 bits (R306), so a number that
needs more is none. -/
def decodeTableWord (nbits w : Nat) : Option Instr :=
  if tableWord nbits w < 2 ^ 32 then
    match decode (BitVec.ofNat 32 (tableWord nbits w)) with
    | .ok i => some i
    | .error _ => none
  else none

end Sys2Proof
end

