-- ==== Sys2Proof/Machine/BitPack.lean ====
section
/-! DEFINITION. The bit-pack and padding family (42_bitpack_padding.md): cells, PKCS#7 padding, and the meanings of PACK, UNPACK,
PAD and UNPAD. -/

namespace Sys2Proof.Machine

/-- `BlockSizeOK(bits)` of R500. -/
def blockSizeOk (bits : Nat) : Bool := decide (8 ≤ bits) && decide (bits % 8 = 0) && decide (bits ≤ 2040)

/-- The cell of a bit (R501). -/
def cellOf (bit : Bool) : Byte := if bit then 0x01#8 else 0x00#8

/-- The bits of a list of cells; none where some byte is not a cell (R501, R510). -/
def bitsOfCells : List Byte → Option Bits
  | [] => some []
  | c :: rest =>
    if c = 0x00#8 then (bitsOfCells rest).map (fun b => false :: b)
    else if c = 0x01#8 then (bitsOfCells rest).map (fun b => true :: b)
    else none

/-- The pad count of R502 for `m` data bytes and blocks of `B` bytes. -/
def padCount (m B : Nat) : Nat := B - m % B

/-- `PadBytes(data, B)` of R502, without the count. -/
def padBytes (data : List Byte) (B : Nat) : List Byte :=
  data ++ List.replicate (padCount data.length B) (BitVec.ofNat 8 (padCount data.length B))

/-- `UnpadBytes(data, B, orig)` of R503: the bits and the pad count. -/
def unpadBytes (data : List Byte) (B orig : Nat) : Except ErrorCode (Bits × Nat) :=
  match data.getLast? with
  | none => .error .invalidPadding
  | some last =>
    let padn := last.toNat
    if padn = 0 ∨ B < padn ∨ data.length < padn then .error .invalidPadding
    else if 8 * (data.length - padn) < orig then .error .lengthMismatch
    else .ok ((unpack (data.take (data.length - padn)) (8 * (data.length - padn))).take orig, padn)

/-- PACK's Exec (R510). -/
def packResult (s : State) : CommandResult :=
  if s.outOfRange s.opSrc s.opLen then .error .range
  else
    match bitsOfCells (s.bytesRead s.opSrc s.opLen) with
    | none => .error .invalidArgument
    | some b =>
      if s.outOfRange s.opDst (ceil8 s.opLen) then .error .range
      else .ok { writes := [bitsWrite s.opDst b], res0 := result (ceil8 s.opLen), res1 := 0#32 }

/-- UNPACK's Exec (R511). -/
def unpackResult (s : State) : CommandResult :=
  if s.outOfRange s.opSrc (ceil8 s.opLen) then .error .range
  else if s.outOfRange s.opDst s.opLen then .error .range
  else .ok { writes := [(s.opDst, (s.bitsRead s.opSrc s.opLen).map cellOf)], res0 := result s.opLen, res1 := 0#32 }

/-- PAD's Exec (R512). -/
def padResult (s : State) : CommandResult :=
  if blockSizeOk s.opAux = false then .error .invalidArgument
  else if s.outOfRange s.opSrc (ceil8 s.opLen) then .error .range
  else
    let data := pack (s.bitsRead s.opSrc s.opLen)
    let out := padBytes data (s.opAux / 8)
    if s.outOfRange s.opDst out.length then .error .range
    else
      .ok { writes := [(s.opDst, out)], res0 := result (8 * out.length)
            res1 := result (padCount data.length (s.opAux / 8)) }

/-- UNPAD's Exec (R513). -/
def unpadResult (s : State) : CommandResult :=
  if blockSizeOk s.opAux = false then .error .invalidArgument
  else if s.outOfRange s.opSrc (ceil8 s.opLen) then .error .range
  else
    match unpadBytes (pack (s.bitsRead s.opSrc s.opLen)) (s.opAux / 8) s.opAux2 with
    | .error c => .error c
    | .ok (out, padn) =>
      if s.outOfRange s.opDst (ceil8 s.opAux2) then .error .range
      else .ok { writes := [bitsWrite s.opDst out], res0 := result s.opAux2, res1 := result padn }

/-- PACK (R510). -/
def execPack (s : State) : Host.Outcome State Fault Refusal := .next (s.complete (packResult s))

/-- UNPACK (R511). -/
def execUnpack (s : State) : Host.Outcome State Fault Refusal := .next (s.complete (unpackResult s))

/-- PAD (R512). -/
def execPad (s : State) : Host.Outcome State Fault Refusal := .next (s.complete (padResult s))

/-- UNPAD (R513). -/
def execUnpad (s : State) : Host.Outcome State Fault Refusal := .next (s.complete (unpadResult s))

end Sys2Proof.Machine
end

