-- ==== Sys2Proof/Machine/Control.lean ====
section
/-! DEFINITION. The control family (44_control.md): NOP. -/

namespace Sys2Proof.Machine

/-- NOP's Exec (R700). -/
def nopResult (_ : State) : CommandResult := .ok { writes := [], res0 := 0#32, res1 := 0#32 }

/-- NOP (R700). -/
def execNop (s : State) : Host.Outcome State Fault Refusal := .next (s.complete (nopResult s))

end Sys2Proof.Machine
end

