-- ==== Sys2Proof/Machine/Huffman.lean ====
section
/-! DEFINITION. The Huffman family (41_huffman.md): frequency count, tree build, code map, encode, decode, and the meanings of
HFREQ, HBUILD, HENC, HDEC, HCOMP, HDECOMP and HCODE. -/

namespace Sys2Proof.Machine

/-! ### Frequency count and tree build (R400, R402) -/

/-- `Freq(bs)` of R400. -/
def freqOf (bs : List Byte) : FreqTable := (List.range 256).map (fun symbol => bs.count (BitVec.ofNat 8 symbol))

/-- The symbols with a nonzero count, ascending: the list A of R402. -/
def alphabet (f : FreqTable) : List Nat := (List.range 256).filter (fun symbol => decide (0 < f.count symbol))

/-- An item of the builder's set Q (R402). -/
structure QueueItem where
  weight : Nat
  seq : Nat
  node : Node
  deriving DecidableEq, Repr

/-- The lexicographic order on (weight, seq) (R402). -/
def QueueItem.before (a b : QueueItem) : Bool :=
  decide (a.weight < b.weight) || (decide (a.weight = b.weight) && decide (a.seq < b.seq))

/-- The item with the least (weight, seq) of a non-empty set, and the others. -/
def extractLeast (best : QueueItem) : List QueueItem → QueueItem × List QueueItem
  | [] => (best, [])
  | x :: rest =>
    if x.before best then
      let r := extractLeast x rest
      (r.1, best :: r.2)
    else
      let r := extractLeast best rest
      (r.1, x :: r.2)

/-- The parent of two extracted items: the first becomes the left child (R402). -/
def mergeItems (a b : QueueItem) (next : Nat) : QueueItem :=
  { weight := a.weight + b.weight, seq := next, node := .internal a.node b.node }

/-- The builder's loop (R402), `fuel` times at most; the loop runs one time less than there are leaves. -/
def mergeLoop : Nat → Nat → List QueueItem → List QueueItem
  | 0, _, q => q
  | fuel + 1, next, q =>
    match q with
    | [] => []
    | [x] => [x]
    | x :: y :: rest =>
      let first := extractLeast x (y :: rest)
      match first.2 with
      | [] => [first.1]
      | z :: others =>
        let second := extractLeast z others
        mergeLoop fuel (next + 1) (mergeItems first.1 second.1 next :: second.2)

/-- The leaves of the alphabet, with their counts and their sequence numbers (R402). -/
def initialQueue (f : FreqTable) : List QueueItem :=
  (alphabet f).zipIdx.map (fun e => { weight := f.count e.1, seq := e.2, node := .leaf (BitVec.ofNat 8 e.1) })

/-- `BuildTree(freq)` of R402. -/
def buildTree (f : FreqTable) : CodeTree :=
  match alphabet f with
  | [] => .empty
  | [symbol] => .root (.internal (.leaf (BitVec.ofNat 8 symbol)) .absent)
  | symbols =>
    match mergeLoop symbols.length symbols.length (initialQueue f) with
    | [] => .empty
    | item :: _ => .root item.node

/-! ### Code map, encode and decode (R403 to R405) -/

/-- The path the Walk of R403 leaves at a symbol: left is `0`, right is `1`. The right subtree is walked last, so its entry
would stand where both had one. -/
def Node.codeword : Node → Byte → Option Bits
  | .absent, _ => none
  | .leaf symbol, x => if x = symbol then some [] else none
  | .internal left right, x =>
    match right.codeword x with
    | some path => some (true :: path)
    | none => (left.codeword x).map (fun path => false :: path)

/-- `CodeMap(t)[s]` of R403: the codeword of a symbol, or none where it is absent. -/
def CodeTree.codeword : CodeTree → Byte → Option Bits
  | .empty, _ => none
  | .root node, x => node.codeword x

/-- The codewords of the code map, in ascending symbol order. -/
def CodeTree.codewords (t : CodeTree) : List Bits :=
  (List.range 256).filterMap (fun symbol => t.codeword (BitVec.ofNat 8 symbol))

/-- `HuffEncode(CodeMap(t), bs)` of R404; none where it raises INVALID_CODE. -/
def huffEncode (t : CodeTree) : List Byte → Option Bits
  | [] => some []
  | x :: rest =>
    match t.codeword x with
    | none => none
    | some path => (huffEncode t rest).map (fun out => path ++ out)

/-- The child a bit names (R405). A leaf has none (log 14). -/
def Node.child : Node → Bool → Node
  | .internal left right, bit => if bit then right else left
  | .leaf _, _ => .absent
  | .absent, _ => .absent

/-- The decode walk of R405, from `node` with `d` bits consumed since the root: the bytes and the dangling bit count, or none
where it raises INVALID_CODE. -/
def decodeWalk (root : Node) : Node → Nat → Bits → Option (List Byte × Nat)
  | _, d, [] => some ([], d)
  | node, d, bit :: rest =>
    match node.child bit with
    | .absent => none
    | .leaf symbol => (decodeWalk root root 0 rest).map (fun r => (symbol :: r.1, r.2))
    | .internal left right => decodeWalk root (.internal left right) (d + 1) rest

/-- `HuffDecode(t, b)` of R405; none where it raises INVALID_CODE. -/
def huffDecode (t : CodeTree) (b : Bits) : Option (List Byte × Nat) :=
  match t with
  | .empty => if b.isEmpty then some ([], 0) else none
  | .root node => decodeWalk node node 0 b

/-- The length of the longest codeword, or 0 if there is none (R411). -/
def CodeTree.longest (t : CodeTree) : Nat := t.codewords.foldl (fun acc path => max acc path.length) 0

/-! ### The commands (R410 to R416) -/

/-- HFREQ's Exec (R410). -/
def hfreqResult (s : State) : CommandResult :=
  if s.outOfRange s.opSrc s.opLen then .error .range
  else if s.outOfRange s.opDst tableBytes then .error .range
  else
    let freq := freqOf (s.bytesRead s.opSrc s.opLen)
    .ok { writes := [tableWrite s.opDst freq], res0 := result (alphabet freq).length, res1 := 0#32 }

/-- HBUILD's Exec (R411). -/
def hbuildResult (s : State) : CommandResult :=
  if s.outOfRange s.opAux tableBytes then .error .range
  else
    let t := buildTree (s.readTable s.opAux)
    .ok { writes := [], res0 := result t.codewords.length, res1 := result t.longest, tree := some t }

/-- HENC's Exec (R412). -/
def hencResult (s : State) : CommandResult :=
  if s.treeValid = false then .error .notConfigured
  else if s.outOfRange s.opSrc s.opLen then .error .range
  else
    match huffEncode s.tree (s.bytesRead s.opSrc s.opLen) with
    | none => .error .invalidCode
    | some out =>
      if s.outOfRange s.opDst (ceil8 out.length) then .error .range
      else .ok { writes := [bitsWrite s.opDst out], res0 := result out.length, res1 := 0#32 }

/-- HDEC's Exec (R413). -/
def hdecResult (s : State) : CommandResult :=
  if s.treeValid = false then .error .notConfigured
  else if s.outOfRange s.opSrc (ceil8 s.opLen) then .error .range
  else
    match huffDecode s.tree (s.bitsRead s.opSrc s.opLen) with
    | none => .error .invalidCode
    | some (out, d) =>
      if s.outOfRange s.opDst out.length then .error .range
      else .ok { writes := [(s.opDst, out)], res0 := result out.length, res1 := result d }

/-- HCOMP's Exec (R414). The table is written before the bits. -/
def hcompResult (s : State) : CommandResult :=
  if s.outOfRange s.opSrc s.opLen then .error .range
  else if s.outOfRange s.opAux tableBytes then .error .range
  else
    let bs := s.bytesRead s.opSrc s.opLen
    let freq := freqOf bs
    let t := buildTree freq
    match huffEncode t bs with
    | none => .error .invalidCode   -- never: every byte of bs has a nonzero count (R406 (c))
    | some out =>
      if s.outOfRange s.opDst (ceil8 out.length) then .error .range
      else
        .ok { writes := [tableWrite s.opAux freq, bitsWrite s.opDst out]
              res0 := result out.length, res1 := result (alphabet freq).length, tree := some t }

/-- HDECOMP's Exec (R415). -/
def hdecompResult (s : State) : CommandResult :=
  if s.outOfRange s.opSrc (ceil8 s.opLen) then .error .range
  else if s.outOfRange s.opAux tableBytes then .error .range
  else
    let t := buildTree (s.readTable s.opAux)
    match huffDecode t (s.bitsRead s.opSrc s.opLen) with
    | none => .error .invalidCode
    | some (out, d) =>
      if s.outOfRange s.opDst out.length then .error .range
      else .ok { writes := [(s.opDst, out)], res0 := result out.length, res1 := result d, tree := some t }

/-- HCODE's Exec (R416). An absent symbol succeeds and writes nothing. -/
def hcodeResult (symbol : Byte) (s : State) : CommandResult :=
  if s.treeValid = false then .error .notConfigured
  else
    match s.tree.codeword symbol with
    | none => .ok { writes := [], res0 := 0#32, res1 := 0#32 }
    | some c =>
      if s.outOfRange s.opDst (ceil8 c.length) then .error .range
      else .ok { writes := [bitsWrite s.opDst c], res0 := result c.length, res1 := 0#32 }

/-- HFREQ (R410). -/
def execHfreq (s : State) : Host.Outcome State Fault Refusal := .next (s.complete (hfreqResult s))

/-- HBUILD (R411). -/
def execHbuild (s : State) : Host.Outcome State Fault Refusal := .next (s.complete (hbuildResult s))

/-- HENC (R412). -/
def execHenc (s : State) : Host.Outcome State Fault Refusal := .next (s.complete (hencResult s))

/-- HDEC (R413). -/
def execHdec (s : State) : Host.Outcome State Fault Refusal := .next (s.complete (hdecResult s))

/-- HCOMP (R414). -/
def execHcomp (s : State) : Host.Outcome State Fault Refusal := .next (s.complete (hcompResult s))

/-- HDECOMP (R415). -/
def execHdecomp (s : State) : Host.Outcome State Fault Refusal := .next (s.complete (hdecompResult s))

/-- HCODE (R416). -/
def execHcode (symbol : Byte) (s : State) : Host.Outcome State Fault Refusal :=
  .next (s.complete (hcodeResult symbol s))

end Sys2Proof.Machine
end

