-- ==== Sys2Proof/Machine/LinearCode.lean ====
section
/-! DEFINITION. The linear block code family (43_linear_code.md): construction, syndromes, block encode and decode, and the
meanings of LCGEN, LCLOADH, LCSTOREH, LCSTOREG, LCENC, LCDEC, LCENCS, LCDECS and LCSYN. All arithmetic is over GF(2). -/

namespace Sys2Proof.Machine

/-! ### Construction (R600 to R603) -/

/-- Steps 1 and 2 of R600, for the given limits: the error they raise, if any. -/
def codeSizeError (p : Params) (n k : Nat) : Option ErrorCode :=
  if k = 0 ∨ n ≤ k then some .invalidArgument
  else if p.nMax < n ∨ p.pMax < n - k then some .range
  else none

/-- A unit vector of p bits: one of 2^0 to 2^(p−1) (R601). -/
def isUnitVector (p v : Nat) : Bool := (List.range p).any (fun i => 2 ^ i == v)

/-- `PCols(p, k)` of R601. -/
def pColumns (p k : Nat) : List Nat :=
  ((List.range' 1 (2 ^ p - 1)).filter (fun v => !isUnitVector p v)).take k

/-- The p×k matrix P whose column j is the binary numeral of `cols[j]`, most significant bit in row 0 (R602). -/
def matrixP (p : Nat) (cols : List Nat) : BitMatrix :=
  (List.range p).map (fun i => cols.map (fun c => c.testBit (p - 1 - i)))

/-- The identity matrix I_r. -/
def identityMatrix (r : Nat) : BitMatrix :=
  (List.range r).map (fun i => (List.range r).map (fun j => decide (i = j)))

/-- The transpose of a matrix with `c` columns. -/
def transpose (c : Nat) (M : BitMatrix) : BitMatrix := (List.range c).map (fun j => matrixColumn M j)

/-- The block matrix [A | B]. -/
def besides (A B : BitMatrix) : BitMatrix := List.zipWith (fun a b => a ++ b) A B

/-- The code LCGEN builds for (n, k) (R601 to R603): G = [I_k | P^T] and H = [P | I_p]. -/
def generateCode (n k : Nat) : LinearCode :=
  let P := matrixP (n - k) (pColumns (n - k) k)
  { n := n, k := k, P := P, G := besides (identityMatrix k) (transpose k P), H := besides P (identityMatrix (n - k)) }

/-! ### Syndromes (R604, R605) -/

/-- The GF(2) dot product of two vectors (R12). -/
def gf2Dot (a b : Bits) : Bool := (List.zipWith (fun x y => x && y) a b).foldl (fun acc x => xor acc x) false

/-- The syndrome vector H·r (R604). -/
def syndromeBits (H : BitMatrix) (r : Bits) : Bits := H.map (fun row => gf2Dot row r)

/-- The syndrome number, row 0 most significant (R604). -/
def syndromeNumber (H : BitMatrix) (r : Bits) : Nat := bitsNumber (syndromeBits H r)

/-- A syndrome table: pairs of a syndrome number and a position. -/
abbrev SyndromeTable := List (Nat × Nat)

/-- The position of a syndrome number, if it is in the table. -/
def SyndromeTable.position (T : SyndromeTable) (S : Nat) : Option Nat := (T.find? (fun e => e.1 == S)).map (fun e => e.2)

/-- One step of R605: position `pos` enters the table under the number of its column, unless that is 0 or already there. -/
def addColumn (H : BitMatrix) (T : SyndromeTable) (pos : Nat) : SyndromeTable :=
  let S := bitsNumber (matrixColumn H pos)
  if S = 0 ∨ (SyndromeTable.position T S).isSome then T else T ++ [(S, pos)]

/-- `STab(H)` of R605 for an H of n columns: positions ascending, first writer wins. -/
def syndromeTable (n : Nat) (H : BitMatrix) : SyndromeTable := (List.range n).foldl (addColumn H) []

/-! ### Block encode and decode (R606, R607) -/

/-- The sum of two vectors. -/
def addBits (a b : Bits) : Bits := List.zipWith (fun x y => xor x y) a b

/-- `Encode(G, m)` of R606: m·G, the sum of the rows of G that m selects, n bits. -/
def encodeBlock (n : Nat) (G : BitMatrix) (m : Bits) : Bits :=
  (List.zip m G).foldl (fun acc e => if e.1 then addBits acc e.2 else acc) (List.replicate n false)

/-- The result of R607. -/
structure DecodeResult where
  message : Bits
  corrected : Nat
  position : Word
  syndrome : Nat
  uncorrectable : Bool
  deriving DecidableEq, Repr

/-- A word with the bit at `pos` inverted. -/
def flipBit (r : Bits) (pos : Nat) : Bits := r.set pos (!r.getD pos false)

/-- `Decode(H, T, k, r)` of R607. -/
def decodeBlock (H : BitMatrix) (T : SyndromeTable) (k : Nat) (r : Bits) : DecodeResult :=
  let S := syndromeNumber H r
  if S = 0 then
    { message := r.take k, corrected := 0, position := noPosition, syndrome := S, uncorrectable := false }
  else
    match SyndromeTable.position T S with
    | some pos =>
      { message := (flipBit r pos).take k, corrected := 1, position := result pos, syndrome := S, uncorrectable := false }
    | none =>
      { message := r.take k, corrected := 0, position := noPosition, syndrome := S, uncorrectable := true }

/-- A stream cut into `count` blocks of `size` bits. -/
def blocks : Nat → Nat → Bits → List Bits
  | 0, _, _ => []
  | count + 1, size, b => b.take size :: blocks count size (b.drop size)

/-- The decode result of one word with the current code. -/
def State.decodeWord (s : State) (r : Bits) : DecodeResult :=
  decodeBlock s.code.H (syndromeTable s.code.n s.code.H) s.code.k r

/-- The decode results of a stream with the current code; the syndrome table is built once (R617). -/
def State.decodeStream (s : State) (b : Bits) : List DecodeResult :=
  let T := syndromeTable s.code.n s.code.H
  (blocks (b.length / s.code.n) s.code.n b).map (fun r => decodeBlock s.code.H T s.code.k r)

/-- The codewords of a stream of messages with the current code (R616). -/
def State.encodeStream (s : State) (b : Bits) : Bits :=
  (blocks (b.length / s.code.k) s.code.k b).flatMap (fun m => encodeBlock s.code.n s.code.G m)

/-! ### The commands (R610 to R618) -/

/-- The effects of a command that sets the linear code: RES0 is p and RES1 the number of syndrome-table entries. -/
def setCode (c : LinearCode) (gValid : Bool) : Effects :=
  { writes := [], res0 := result (c.n - c.k), res1 := result (syndromeTable c.n c.H).length, code := some (c, gValid) }

/-- LCGEN's Exec (R610). -/
def lcgenResult (s : State) : CommandResult :=
  match codeSizeError s.params s.opAux s.opAux2 with
  | some c => .error c
  | none =>
    if 2 ^ (s.opAux - s.opAux2) - 1 - (s.opAux - s.opAux2) < s.opAux2 then .error .invalidArgument
    else .ok (setCode (generateCode s.opAux s.opAux2) true)

/-- The code LCLOADH makes of n, k and the bits of H (R611). P and G become meaningless: they are two free values, unrelated to
each other, that nothing reads while g_valid is 0 (93 U4). DESIGN CHOICE (log 3): each is drawn once, when the code is loaded,
by the counters alone. -/
def State.loadedCode (s : State) (n k : Nat) (b : Bits) : LinearCode :=
  { n := n, k := k
    P := Config.meaninglessP s.memEpoch s.codeChanges
    G := Config.meaninglessG s.memEpoch s.codeChanges
    H := matrixOfBits (n - k) n b }

/-- LCLOADH's Exec (R611). -/
def lcloadhResult (s : State) : CommandResult :=
  match codeSizeError s.params s.opAux s.opAux2 with
  | some c => .error c
  | none =>
    let bits := (s.opAux - s.opAux2) * s.opAux
    if s.outOfRange s.opSrc (ceil8 bits) then .error .range
    else .ok (setCode (s.loadedCode s.opAux s.opAux2 (s.bitsRead s.opSrc bits)) false)

/-- LCSTOREH's Exec (R612). -/
def lcstorehResult (s : State) : CommandResult :=
  if s.codeValid = false then .error .notConfigured
  else
    let bits := (s.code.n - s.code.k) * s.code.n
    if s.outOfRange s.opDst (ceil8 bits) then .error .range
    else .ok { writes := [bitsWrite s.opDst (matrixBits s.code.H)], res0 := result bits, res1 := 0#32 }

/-- LCSTOREG's Exec (R613). -/
def lcstoregResult (s : State) : CommandResult :=
  if s.gValid = false then .error .notConfigured
  else
    let bits := s.code.k * s.code.n
    if s.outOfRange s.opDst (ceil8 bits) then .error .range
    else .ok { writes := [bitsWrite s.opDst (matrixBits s.code.G)], res0 := result bits, res1 := 0#32 }

/-- LCENC's Exec (R614). -/
def lcencResult (s : State) : CommandResult :=
  if s.gValid = false then .error .notConfigured
  else if s.opLen ≠ s.code.k then .error .invalidArgument
  else if s.outOfRange s.opSrc (ceil8 s.code.k) then .error .range
  else if s.outOfRange s.opDst (ceil8 s.code.n) then .error .range
  else
    .ok { writes := [bitsWrite s.opDst (encodeBlock s.code.n s.code.G (s.bitsRead s.opSrc s.code.k))]
          res0 := result s.code.n, res1 := 0#32 }

/-- LCDEC's Exec (R615). -/
def lcdecResult (s : State) : CommandResult :=
  if s.codeValid = false then .error .notConfigured
  else if s.opLen ≠ s.code.n then .error .invalidArgument
  else if s.outOfRange s.opSrc (ceil8 s.code.n) then .error .range
  else if s.outOfRange s.opDst (ceil8 s.code.k) then .error .range
  else
    let d := s.decodeWord (s.bitsRead s.opSrc s.code.n)
    .ok { writes := [bitsWrite s.opDst d.message], res0 := result d.corrected, res1 := d.position
          syndrome := some (result d.syndrome, d.uncorrectable) }

/-- LCENCS's Exec (R616). -/
def lcencsResult (s : State) : CommandResult :=
  if s.gValid = false then .error .notConfigured
  else if s.opLen % s.code.k ≠ 0 then .error .invalidArgument
  else if s.outOfRange s.opSrc (ceil8 s.opLen) then .error .range
  else
    let nblk := s.opLen / s.code.k
    if s.outOfRange s.opDst (ceil8 (nblk * s.code.n)) then .error .range
    else
      .ok { writes := [bitsWrite s.opDst (s.encodeStream (s.bitsRead s.opSrc s.opLen))]
            res0 := result (nblk * s.code.n), res1 := result nblk }

/-- LCDECS's Exec (R617). -/
def lcdecsResult (s : State) : CommandResult :=
  if s.codeValid = false then .error .notConfigured
  else if s.opLen % s.code.n ≠ 0 then .error .invalidArgument
  else if s.outOfRange s.opSrc (ceil8 s.opLen) then .error .range
  else
    let nblk := s.opLen / s.code.n
    if s.outOfRange s.opDst (ceil8 (nblk * s.code.k)) then .error .range
    else
      let ds := s.decodeStream (s.bitsRead s.opSrc s.opLen)
      let uncs := ds.countP (fun d => d.uncorrectable)
      .ok { writes := [bitsWrite s.opDst (ds.flatMap (fun d => d.message))]
            res0 := result (ds.map (fun d => d.corrected)).sum, res1 := result uncs
            syndrome := some (result ((ds.getLast?.map (fun d => d.syndrome)).getD 0), decide (0 < uncs)) }

/-- LCSYN's Exec (R618). -/
def lcsynResult (s : State) : CommandResult :=
  if s.codeValid = false then .error .notConfigured
  else if s.opLen ≠ s.code.n then .error .invalidArgument
  else if s.outOfRange s.opSrc (ceil8 s.code.n) then .error .range
  else
    let d := s.decodeWord (s.bitsRead s.opSrc s.code.n)
    .ok { writes := [], res0 := result d.syndrome, res1 := d.position
          syndrome := some (result d.syndrome, d.uncorrectable) }

/-- LCGEN (R610). -/
def execLcgen (s : State) : Host.Outcome State Fault Refusal := .next (s.complete (lcgenResult s))

/-- LCLOADH (R611). -/
def execLcloadh (s : State) : Host.Outcome State Fault Refusal := .next (s.complete (lcloadhResult s))

/-- LCSTOREH (R612). -/
def execLcstoreh (s : State) : Host.Outcome State Fault Refusal := .next (s.complete (lcstorehResult s))

/-- LCSTOREG (R613). -/
def execLcstoreg (s : State) : Host.Outcome State Fault Refusal := .next (s.complete (lcstoregResult s))

/-- LCENC (R614). -/
def execLcenc (s : State) : Host.Outcome State Fault Refusal := .next (s.complete (lcencResult s))

/-- LCDEC (R615). -/
def execLcdec (s : State) : Host.Outcome State Fault Refusal := .next (s.complete (lcdecResult s))

/-- LCENCS (R616). -/
def execLcencs (s : State) : Host.Outcome State Fault Refusal := .next (s.complete (lcencsResult s))

/-- LCDECS (R617). -/
def execLcdecs (s : State) : Host.Outcome State Fault Refusal := .next (s.complete (lcdecsResult s))

/-- LCSYN (R618). -/
def execLcsyn (s : State) : Host.Outcome State Fault Refusal := .next (s.complete (lcsynResult s))

end Sys2Proof.Machine
end

