-- ==== Sys2Proof/Machine/Dispatch.lean ====
section
/-! DEFINITION. Exec (30_encoding.md R311 to R313): one arm per command. -/

namespace Sys2Proof.Machine

def exec (i : Instr) (s : State) : Host.Outcome State Fault Refusal :=
  match i with
  | .nop => Sys2Proof.Machine.execNop s
  | .hfreq => Sys2Proof.Machine.execHfreq s
  | .hbuild => Sys2Proof.Machine.execHbuild s
  | .henc => Sys2Proof.Machine.execHenc s
  | .hdec => Sys2Proof.Machine.execHdec s
  | .hcomp => Sys2Proof.Machine.execHcomp s
  | .hdecomp => Sys2Proof.Machine.execHdecomp s
  | .hcode symbol => Sys2Proof.Machine.execHcode symbol s
  | .pack => Sys2Proof.Machine.execPack s
  | .unpack => Sys2Proof.Machine.execUnpack s
  | .pad => Sys2Proof.Machine.execPad s
  | .unpad => Sys2Proof.Machine.execUnpad s
  | .lcgen => Sys2Proof.Machine.execLcgen s
  | .lcloadh => Sys2Proof.Machine.execLcloadh s
  | .lcstoreh => Sys2Proof.Machine.execLcstoreh s
  | .lcstoreg => Sys2Proof.Machine.execLcstoreg s
  | .lcenc => Sys2Proof.Machine.execLcenc s
  | .lcdec => Sys2Proof.Machine.execLcdec s
  | .lcencs => Sys2Proof.Machine.execLcencs s
  | .lcdecs => Sys2Proof.Machine.execLcdecs s
  | .lcsyn => Sys2Proof.Machine.execLcsyn s

end Sys2Proof.Machine
end

