-- ==== Sys2Proof/Machine/Engine.lean ====
section
/-! DEFINITION. The engine's step: it decodes the latched word and executes it, and a word that is no command completes with
ILLEGAL_COMMAND (30_encoding.md R311, 60_exceptions.md R803). -/

namespace Sys2Proof.Machine

/-- The engine executes and completes the running command. -/
def State.engineStep (s : State) : Host.Outcome State Fault Refusal :=
  match decode s.latch.raw with
  | .ok i => exec i s
  | .error _ => .next (s.takeError .illegalCommand)

end Sys2Proof.Machine
end

