-- ==== Sys2Proof/Machine/Step.lean ====
section
/-! DEFINITION. One step of the machine: the engine completes the running command, or the block performs the next input. -/

namespace Sys2Proof.Machine

/-- One step. -/
def step (s : State) : Host.Outcome State Fault Refusal :=
  if s.engineMoves then s.engineStep else .next s.inputStep

/-- The block fetches no instruction (R120, R224): the engine takes its command from the operand latch that an accepted issue
loads. So the word is placed by the accepted issue of R310, with the reset input deasserted and the free completion delay run
out, and the very next step executes it (log 8). -/
def State.withFetchWord (s : State) (nbits w : Nat) : State :=
  { s.issue (BitVec.ofNat 32 (tableWord nbits w)) with inReset := false, delay := 0 }

end Sys2Proof.Machine
end

