-- ==== Sys2Proof/Machine/HostProgram.lean ====
section
/-! DEFINITION. Host programs: the statements of 30_encoding.md R307 and the pseudo-instructions of R308, expanded to the inputs
they put on the bus. -/

namespace Sys2Proof.Machine

/-- A statement of a host program (R307, R308). -/
inductive HostStatement where
  /-- `WR reg, v`. -/
  | wr (r : Reg) (v : Word)
  /-- `RD reg`. -/
  | rd (r : Reg)
  /-- `MW8 off, b0, b1, ...`. -/
  | mw8 (offset : Nat) (bytes : List Byte)
  /-- `MW32 off, v`. -/
  | mw32 (offset : Nat) (v : Word)
  /-- `MR8 off, count`. -/
  | mr8 (offset count : Nat)
  /-- `WAIT`. -/
  | wait
  /-- `<MNEMONIC> [#imm,] [src=v,] [len=v,] [dst=v,] [aux=v,] [aux2=v]`: the opcode of the mnemonic, imm (0 when absent), and the
  operands that are named. -/
  | command (opc imm : Byte) (src len dst aux aux2 : Option Word)
  /-- `CLRST`. -/
  | clrst
  /-- `SRST`. -/
  | srst
  deriving DecidableEq, Repr

/-- A host write of a register. -/
def registerWrite (p : Params) (r : Reg) (v : Word) : Input :=
  .access { address := p.base + r.offset, bytes := 4, kind := .write v }

/-- A host read of a register. -/
def registerRead (p : Params) (r : Reg) : Input := .access { address := p.base + r.offset, bytes := 4, kind := .read }

/-- A host write of `bytes` bytes at a DMEM offset. -/
def dmemWrite (p : Params) (bytes offset : Nat) (v : Word) : Input :=
  .access { address := p.base + dmemOffset + offset, bytes := bytes, kind := .write v }

/-- A host read of `bytes` bytes at a DMEM offset. -/
def dmemRead (p : Params) (bytes offset : Nat) : Input :=
  .access { address := p.base + dmemOffset + offset, bytes := bytes, kind := .read }

/-- `WR ARGi, v` for a named operand, nothing for one that is not named (R308). -/
def operandWrite (p : Params) (r : Reg) : Option Word → List Input
  | some v => [registerWrite p r v]
  | none => []

/-- The command word of a pseudo-instruction: OPC | (imm << 8) (R308). -/
def commandWord (opc imm : Byte) : Word := CommandFields.toWord { rsvd := 0#16, imm8 := imm, opc := opc }

/-- The inputs a statement expands to (R307, R308). -/
def HostStatement.expand (p : Params) : HostStatement → List Input
  | .wr r v => [registerWrite p r v]
  | .rd r => [registerRead p r]
  | .mw8 offset bytes => bytes.zipIdx.map (fun e => dmemWrite p 1 (offset + e.2) (e.1.setWidth 32))
  | .mw32 offset v => [dmemWrite p 4 offset v]
  | .mr8 offset count => (List.range count).map (fun i => dmemRead p 1 (offset + i))
  | .wait => [.wait]
  | .command opc imm src len dst aux aux2 =>
    operandWrite p .arg0 src ++ operandWrite p .arg1 len ++ operandWrite p .arg2 dst
      ++ operandWrite p .arg3 aux ++ operandWrite p .arg4 aux2
      ++ [registerWrite p .cmd (commandWord opc imm), .wait]
  | .clrst => [registerWrite p .status 0xE#32]
  | .srst => [registerWrite p .ctrl 0x1#32]

/-- The inputs of a host program. -/
def hostProgram (p : Params) (statements : List HostStatement) : List Input :=
  statements.flatMap (HostStatement.expand p)

end Sys2Proof.Machine
end

