-- ==== Sys2Proof/Safety.lean ====
section
/-! DEFINITION. What the claims are made of: the invariants of the machine, the two shapes of a completion, how stored bytes are
read, which error codes a command may raise, and the waiting duty of a host program. -/

namespace Sys2Proof

/-- The error codes a command may raise (60_exceptions.md R802). -/
def Instr.errorCodes : Instr → List (BitVec 4)
  | .nop => []
  | .hfreq => [6#4]
  | .hbuild => [6#4]
  | .henc => [4#4, 5#4, 6#4]
  | .hdec => [4#4, 5#4, 6#4]
  | .hcomp => [6#4]
  | .hdecomp => [5#4, 6#4]
  | .hcode _ => [4#4, 6#4]
  | .pack => [1#4, 6#4]
  | .unpack => [6#4]
  | .pad => [1#4, 6#4]
  | .unpad => [1#4, 2#4, 3#4, 6#4]
  | .lcgen => [1#4, 6#4]
  | .lcloadh => [1#4, 6#4]
  | .lcstoreh => [4#4, 6#4]
  | .lcstoreg => [4#4, 6#4]
  | .lcenc => [1#4, 4#4, 6#4]
  | .lcdec => [1#4, 4#4, 6#4]
  | .lcencs => [1#4, 4#4, 6#4]
  | .lcdecs => [1#4, 4#4, 6#4]
  | .lcsyn => [1#4, 4#4, 6#4]

end Sys2Proof

namespace Sys2Proof.Machine

/-! ### Invariants -/

/-- DMEM is in canonical form and lists no offset outside DMEM (20_memory.md R200, R207). -/
def State.memoryOk (s : State) : Prop := Memory.wf s.mem = true ∧ ∀ c ∈ s.mem, c.1 < s.params.dmemSize

/-- ERR = 0 exactly when ERRCODE = 0 and no code is above 7 (10_state.md R112, 60_exceptions.md R801); while BUSY = 1, DONE, ERR,
ERRCODE and UNC are clear (70_reset_and_hazards.md R914); while reset is asserted the engine is IDLE (R900). -/
def State.statusOk (s : State) : Prop :=
  (s.err = false ↔ s.errCode = 0#4) ∧ s.errCode.toNat ≤ 7
    ∧ (s.engine = .busy → s.done = false ∧ s.err = false ∧ s.unc = false)
    ∧ (s.inReset = true → s.engine = .idle)

/-- Every internal node of a subtree has both children (10_state.md R130). -/
def Node.full : Node → Bool
  | .absent => false
  | .leaf _ => true
  | .internal left right => left.full && right.full

/-- The symbols of a subtree's leaves, left to right. -/
def Node.symbols : Node → List Byte
  | .absent => []
  | .leaf symbol => [symbol]
  | .internal left right => left.symbols ++ right.symbols

/-- A tree the builder can make (R130, 41_huffman.md R402): empty, the single-symbol wrapper, or a full tree of distinct symbols. -/
def CodeTree.proper : CodeTree → Bool
  | .empty => true
  | .root (.internal (.leaf _) .absent) => true
  | .root (.internal left right) =>
    left.full && right.full && decide (left.symbols ++ right.symbols).Nodup
  | .root _ => false

/-- The current tree is one the builder can make (R130). -/
def State.treeOk (s : State) : Prop := s.treeValid = true → s.tree.proper = true

/-- (n, k) passes steps 1 and 2 of R600, and H is a (n−k)×n matrix (10_state.md R132). -/
def LinearCode.shapeOk (c : LinearCode) (p : Params) : Prop :=
  1 ≤ c.k ∧ c.k < c.n ∧ c.n ≤ p.nMax ∧ c.n - c.k ≤ p.pMax
    ∧ c.H.length = c.n - c.k ∧ ∀ row ∈ c.H, row.length = c.n

/-- The current code has its shape; with g_valid it is the code LCGEN builds for its (n, k) (R132, R133); SYND is below
2^P_MAX (R118). -/
def State.codeOk (s : State) : Prop :=
  (s.codeValid = true → s.code.shapeOk s.params)
    ∧ (s.gValid = true → s.codeValid = true ∧ s.code = generateCode s.code.n s.code.k
        ∧ s.code.k ≤ 2 ^ (s.code.n - s.code.k) - 1 - (s.code.n - s.code.k))
    ∧ s.synd.toNat < 2 ^ s.params.pMax

/-- The invariant of the machine. -/
def State.Inv (s : State) : Prop :=
  s.params.legal = true ∧ s.memoryOk ∧ s.statusOk ∧ s.treeOk ∧ s.codeOk

/-! ### Completions -/

/-- The state after error completion with an error code (60_exceptions.md R820). -/
def State.failedWith (s : State) (code : BitVec 4) : State :=
  { s with res0 := 0#32, res1 := 0#32, err := true, errCode := code, engine := .idle, done := true }

/-- The state after a successful completion that writes DMEM and the two results only (30_encoding.md R312, R313). -/
def State.succeededWith (s : State) (mem : List Host.Cell) (r0 r1 : Word) : State :=
  { s with mem := mem, res0 := r0, res1 := r1, engine := .idle, done := true }

/-- In `t`, the bytes `bs` stand from offset `a` on, and every other byte reads as in `s`. -/
def State.storedFrom (s t : State) (a : Nat) (bs : List Byte) : Prop :=
  ∀ x, t.readByte x = if a ≤ x ∧ x < a + bs.length then bs.getD (x - a) 0#8 else s.readByte x

/-- `MemRead(a, 4)` (00_scope.md R13): four bytes, the one at the lowest offset most significant. -/
def State.word32 (s : State) (a : Nat) : Nat :=
  beNumber [s.readByte a, s.readByte (a + 1), s.readByte (a + 2), s.readByte (a + 3)]

/-- `f` is the frequency table in DMEM at offset `a` (20_memory.md R209). -/
def State.tableAt (s : State) (a : Nat) (f : FreqTable) : Prop :=
  f.length = 256 ∧ ∀ symbol < 256, f.count symbol = s.word32 (a + 4 * symbol)

/-- The number of symbols with a nonzero count. -/
def FreqTable.distinct (f : FreqTable) : Nat := (List.range 256).countP (fun symbol => decide (0 < f.count symbol))

/-- The builder's loop (41_huffman.md R402): from the items `Q`, with `next` the next sequence number, merging ends in `node`.
Each round takes the item of least (weight, seq) as the left child and the least of the others as the right child. -/
inductive MergesTo : Nat → List QueueItem → Node → Prop where
  | done (next : Nat) (item : QueueItem) : MergesTo next [item] item.node
  | merge (next : Nat) (Q others : List QueueItem) (a b : QueueItem) (node : Node)
      (taken : Q.Perm (a :: b :: others))
      (first : ∀ x ∈ b :: others, a.weight < x.weight ∨ (a.weight = x.weight ∧ a.seq < x.seq))
      (second : ∀ x ∈ others, b.weight < x.weight ∨ (b.weight = x.weight ∧ b.seq < x.seq))
      (after : MergesTo (next + 1)
        ({ weight := a.weight + b.weight, seq := next, node := .internal a.node b.node } :: others) node) :
      MergesTo next Q node

/-- The path from a node to a leaf with a symbol: 0 is left and 1 is right (41_huffman.md R403). -/
inductive Node.LeafAt : Node → Bits → Byte → Prop where
  | here (symbol : Byte) : Node.LeafAt (.leaf symbol) [] symbol
  | left (l r : Node) (path : Bits) (symbol : Byte) (below : Node.LeafAt l path symbol) :
      Node.LeafAt (.internal l r) (false :: path) symbol
  | right (l r : Node) (path : Bits) (symbol : Byte) (below : Node.LeafAt r path symbol) :
      Node.LeafAt (.internal l r) (true :: path) symbol

/-- `l` is the length of the longest codeword of `t`, or 0 if there is none (41_huffman.md R411). -/
def CodeTree.longestIs (t : CodeTree) (l : Nat) : Prop :=
  (∀ x c, t.codeword x = some c → c.length ≤ l) ∧ (l = 0 ∨ ∃ x c, t.codeword x = some c ∧ c.length = l)

/-- The size in bytes of a command's output region at dst, from the state before and the state after success (30_encoding.md R302):
RES0 counts the output in bits or bytes, but for the two decoders of linear codes, whose output is k bits per word. -/
def State.outputBytes (s : State) (i : Instr) (t : State) : Nat :=
  match i with
  | .nop | .hbuild | .lcgen | .lcloadh | .lcsyn => 0
  | .hfreq => 1024
  | .henc | .hcomp | .hcode _ | .pad | .unpad | .lcstoreh | .lcstoreg | .lcenc | .lcencs => ceil8 t.res0.toNat
  | .hdec | .hdecomp | .pack | .unpack => t.res0.toNat
  | .lcdec => ceil8 s.code.k
  | .lcdecs => ceil8 (s.opLen / s.code.n * s.code.k)

/-- The engine executes now: BUSY = 1, reset deasserted, and the free completion delay has run out or no input is left. -/
def State.engineReady (s : State) : Prop :=
  s.inReset = false ∧ s.engine = .busy ∧ (s.delay = 0 ∨ s.pending = [])

/-- The block performs an input that is not held now: reset deasserted, and the engine is IDLE or not yet to complete. -/
def State.inputTurn (s : State) : Prop := s.inReset = false ∧ (s.engine = .idle ∨ s.delay ≠ 0)

/-! ### The waiting duty of a host program (70_reset_and_hazards.md R915) -/

/-- The registers a host must not read before completion (R915). -/
def Reg.volatile : Reg → Bool
  | .status | .res0 | .res1 | .codeN | .codeK | .synd => true
  | .id | .ctrl | .cmd | .arg0 | .arg1 | .arg2 | .arg3 | .arg4 | .param0 | .param1 => false

/-- The inputs obey the waiting duty when `running` says whether a command may still run: between a CMD write and the next WAIT
the host writes neither CMD nor STATUS and reads none of the registers completion changes. -/
def obeysWaitingDuty (p : Params) : Bool → List Input → Bool
  | _, [] => true
  | _, .wait :: rest => obeysWaitingDuty p false rest
  | running, .resetLine _ :: rest => obeysWaitingDuty p running rest
  | running, .access a :: rest =>
    match Params.target p a, a.kind with
    | .register .cmd, .write _ => !running && obeysWaitingDuty p true rest
    | .register .status, .write _ => !running && obeysWaitingDuty p running rest
    | .register r, .read => (!running || !r.volatile) && obeysWaitingDuty p running rest
    | _, _ => obeysWaitingDuty p running rest

end Sys2Proof.Machine
end

