-- ==== Sys2Proof/Certificates/Slice0/Obligations.lean ====
section
/-! DEFINITION. The statements about ITC-CORE for the provers, each formalising a rule of the spec. -/

open Sys2Proof Sys2Proof.Machine

/-! ### Encoding and decoding -/

/-- 30_encoding.md R303, R305: a word decodes to a command exactly when it is that command's word, for every value of IMM8. -/
def Obligations.DecodeExactlyInvertsEncode : Prop :=
  ∀ (w : Word) (i : Instr), decode w = .ok i ↔ w = encode i

/-- 30_encoding.md R305: the decode function, on every word. A word with w[31:16] ≠ 0, with an opcode outside the map, or with
w[15:8] ≠ 0 and an opcode other than 0x07 is illegal; every other word is the command of its opcode with imm = w[15:8]. -/
def Obligations.DecodeRefusesExactlyTheIllegalWords : Prop :=
  ∀ w : Word,
    let illegal : Prop :=
      w.extractLsb' 16 16 ≠ 0#16
        ∨ w.extractLsb' 0 8 ∉ [0x00#8, 0x01#8, 0x02#8, 0x03#8, 0x04#8, 0x05#8, 0x06#8, 0x07#8, 0x10#8, 0x11#8, 0x12#8, 0x13#8,
            0x20#8, 0x21#8, 0x22#8, 0x23#8, 0x24#8, 0x25#8, 0x26#8, 0x27#8, 0x28#8]
        ∨ (w.extractLsb' 0 8 ≠ 0x07#8 ∧ w.extractLsb' 8 8 ≠ 0#8)
    (illegal → ∃ e, decode w = .error e) ∧
    (¬ illegal → ∃ i, decode w = .ok i ∧ i.opcode = w.extractLsb' 0 8 ∧ i.immediate = w.extractLsb' 8 8)

/-- 30_encoding.md R303: words written out from the opcode map. -/
def Obligations.SampleWordsDecodeToTheirCommands : Prop :=
  decode 0b00000000000000000000000000000000#32 = .ok .nop
    ∧ decode 0b00000000000000000000000000000001#32 = .ok .hfreq
    ∧ decode 0b00000000000000000000000000000101#32 = .ok .hcomp
    ∧ decode 0b00000000000000000100000100000111#32 = .ok (.hcode 0x41#8)
    ∧ decode 0b00000000000000000000000000010011#32 = .ok .unpad
    ∧ decode 0b00000000000000000000000000100000#32 = .ok .lcgen
    ∧ decode 0b00000000000000000000000000101000#32 = .ok .lcsyn

/-! ### Steps: engine, issue and host accesses -/

/-- 30_encoding.md R311: while BUSY = 1 the engine executes the command its latched word decodes to. When the engine is ready to
complete is the model's choice (log 5): the free delay has run out, or no input is left. -/
def Obligations.StepExecutesTheDecodedCommand : Prop :=
  ∀ (s : State) (i : Instr), s.engineReady → decode s.latch.raw = .ok i → step s = exec i s

/-- 60_exceptions.md R803: an issued word that decodes as Illegal completes with ERR = 1, ERRCODE = 7, RES0 = RES1 = 0 and no
other effect. When the engine is ready to complete is the model's choice (log 5). -/
def Obligations.IllegalWordCompletesWithIllegalCommand : Prop :=
  ∀ (s : State) (e : DecodeError), s.engineReady → decode s.latch.raw = .error e → step s = .next (s.failedWith 7#4)

/-- 30_encoding.md R310: a CMD write while BUSY = 0 is accepted: the latch takes the word and ARG0 to ARG4, DONE, ERR, ERRCODE and
UNC are cleared, BUSY is set, and nothing else of the spec's state changes. The completion delay is the model's free value
(log 5); the input list and the response field are the model's own (log 6, log 7). -/
def Obligations.CmdWriteWhileIdleIssues : Prop :=
  ∀ (s : State) (w : Word) (rest : List Input), s.inReset = false → s.engine = .idle →
    s.pending = .access { address := s.params.base + 0x0C, bytes := 4, kind := .write w } :: rest →
    step s = .next
      { s with
        latch := { raw := w, src := s.arg0, len := s.arg1, dst := s.arg2, aux := s.arg3, aux2 := s.arg4 }
        done := false, err := false, errCode := 0#4, unc := false, engine := .busy
        delay := Config.completionDelay s.issues, issues := s.issues + 1
        pending := rest, response := some .done }

/-- 70_reset_and_hazards.md R910: a CMD write while BUSY = 1 is dropped and sets CMD_OVR; the running command, its latch and the
other status bits are not affected. The delay, the input list and the response field are the model's own (log 5 to log 7). -/
def Obligations.CmdWriteWhileBusyIsDropped : Prop :=
  ∀ (s : State) (w : Word) (rest : List Input), s.inReset = false → s.engine = .busy → s.delay ≠ 0 →
    s.pending = .access { address := s.params.base + 0x0C, bytes := 4, kind := .write w } :: rest →
    step s = .next { s with cmdOvr := true, pending := rest, delay := s.delay - 1, response := some .done }

/-- 70_reset_and_hazards.md R911 and R913 (20_memory.md R203): while BUSY = 1 a CTRL write and a host DMEM access are held: the
engine completes the command first, the access stays, and the step after that performs it. That every access which starts inside DMEM
is held, also a malformed one, is the model's reading (log 9); the input list is the model's own (log 5, log 6). -/
def Obligations.HeldAccessesWaitForCompletion : Prop :=
  ∀ (s : State) (a : BusAccess) (rest : List Input), s.inReset = false → s.engine = .busy → s.pending = .access a :: rest →
    ((∃ v, a = { address := s.params.base + 0x04, bytes := 4, kind := .write v })
      ∨ (s.params.base + 0x10000 ≤ a.address ∧ a.address < s.params.base + 0x10000 + s.params.dmemSize)) →
    ∃ t, step s = .next t ∧ s.engineStep = .next t ∧ t.engine = .idle ∧ t.pending = s.pending
      ∧ step t = .next ((t.takeInput rest).performAccess a)

/-- 70_reset_and_hazards.md R912 (10_state.md R115): a write to ARG0 to ARG4 takes effect at once on the register, also while
BUSY = 1, and changes nothing else: not the operand latch of the running command. The premise on the delay, the input list and
the response field are the model's own (log 5 to log 7). -/
def Obligations.ArgWritesTakeEffectAtOnce : Prop :=
  ∀ (s : State) (v : Word) (rest : List Input), s.inputTurn →
    let writes (offset : Nat) : Prop :=
      s.pending = .access { address := s.params.base + offset, bytes := 4, kind := .write v } :: rest
    let after : State := { s with pending := rest, delay := s.delay - 1, response := some .done }
    (writes 0x10 → step s = .next { after with arg0 := v }) ∧
    (writes 0x14 → step s = .next { after with arg1 := v }) ∧
    (writes 0x18 → step s = .next { after with arg2 := v }) ∧
    (writes 0x1C → step s = .next { after with arg3 := v }) ∧
    (writes 0x20 → step s = .next { after with arg4 := v })

/-- 30_encoding.md R307, R308: WR and RD access the named register at its offset; MW8 and MR8 access successive DMEM bytes, and
MW32 one 32-bit word; a command pseudo-instruction expands to the writes of its named operands in ARG order, the write of
OPC | (imm << 8) to CMD, and WAIT; CLRST writes 0x0000000E to STATUS and SRST writes 0x00000001 to CTRL. WAIT reads STATUS: while
BUSY = 1 it stays, and with BUSY = 0 it ends. WAIT as an input, the delay and the response field are the model's own (log 5 to
log 7). -/
def Obligations.HostStatementsActAsWritten : Prop :=
  (∀ p : Params,
    (∀ e ∈ [(Reg.id, 0x00), (.ctrl, 0x04), (.status, 0x08), (.cmd, 0x0C), (.arg0, 0x10), (.arg1, 0x14), (.arg2, 0x18),
        (.arg3, 0x1C), (.arg4, 0x20), (.res0, 0x24), (.res1, 0x28), (.codeN, 0x2C), (.codeK, 0x30), (.synd, 0x34),
        (.param0, 0x38), (.param1, 0x3C)],
      (∀ v, HostStatement.expand p (.wr e.1 v) = [.access { address := p.base + e.2, bytes := 4, kind := .write v }])
        ∧ HostStatement.expand p (.rd e.1) = [.access { address := p.base + e.2, bytes := 4, kind := .read }])
    ∧ (∀ (offset : Nat) (bs : List Byte),
        HostStatement.expand p (.mw8 offset bs)
          = (List.range bs.length).map (fun j =>
              .access { address := p.base + 0x10000 + (offset + j), bytes := 1, kind := .write ((bs.getD j 0#8).setWidth 32) }))
    ∧ (∀ (offset : Nat) (v : Word),
        HostStatement.expand p (.mw32 offset v)
          = [.access { address := p.base + 0x10000 + offset, bytes := 4, kind := .write v }])
    ∧ (∀ offset count : Nat,
        HostStatement.expand p (.mr8 offset count)
          = (List.range count).map (fun j => .access { address := p.base + 0x10000 + (offset + j), bytes := 1, kind := .read }))) ∧
  (∀ (p : Params) (opc imm : Byte) (src len dst aux aux2 : Option Word),
    let register (offset : Nat) (v : Word) : Input :=
      .access { address := p.base + offset, bytes := 4, kind := .write v }
    HostStatement.expand p (.command opc imm src len dst aux aux2)
        = [(0x10, src), (0x14, len), (0x18, dst), (0x1C, aux), (0x20, aux2)].filterMap (fun e => e.2.map (register e.1))
          ++ [register 0x0C (opc.setWidth 32 ||| imm.setWidth 32 <<< 8), .wait]
      ∧ HostStatement.expand p .clrst = [register 0x08 0x0000000E#32]
      ∧ HostStatement.expand p .srst = [register 0x04 0x00000001#32]) ∧
  (∀ (s : State) (rest : List Input), s.inReset = false → s.pending = .wait :: rest →
    (s.engine = .busy → s.delay ≠ 0 →
      step s = .next { s with delay := s.delay - 1, response := some (.data s.statusWord) }) ∧
    (s.engine = .idle →
      step s = .next { s with pending := rest, delay := s.delay - 1, response := some (.data s.statusWord) }))

/-- 10_state.md R101, R102, R110, R114 to R119: what each register reads, at its offset, with no side effect on the state;
70_reset_and_hazards.md R914: a step performs the read, also while BUSY = 1. The moment of completion, the input list and the response field are the model's own (log 5 to log 7). -/
def Obligations.RegisterReadsReturnTheirValues : Prop :=
  ∀ s : State, s.inReset = false →
    let read (offset : Nat) : BusAccess := { address := s.params.base + offset, bytes := 4, kind := .read }
    let reads (offset : Nat) (v : Word) : Prop :=
      s.performAccess (read offset) = { s with response := some (.data v) }
        ∧ ∀ rest, s.inputTurn → s.pending = .access (read offset) :: rest →
            step s = .next { s with pending := rest, delay := s.delay - 1, response := some (.data v) }
    reads 0x00 0x48430100#32 ∧ reads 0x04 s.ctrlWord ∧ reads 0x08 s.statusWord ∧ reads 0x0C 0#32
      ∧ reads 0x10 s.arg0 ∧ reads 0x14 s.arg1 ∧ reads 0x18 s.arg2 ∧ reads 0x1C s.arg3 ∧ reads 0x20 s.arg4
      ∧ reads 0x24 s.res0 ∧ reads 0x28 s.res1
      ∧ reads 0x2C (if s.codeValid then BitVec.ofNat 32 s.code.n else 0#32)
      ∧ reads 0x30 (if s.codeValid then BitVec.ofNat 32 s.code.k else 0#32)
      ∧ reads 0x34 s.synd
      ∧ (s.params.legal = true → reads 0x38 (BitVec.ofNat 32 (s.params.nMax + 65536 * s.params.pMax)))
      ∧ reads 0x3C (BitVec.ofNat 32 s.params.dmemSize)

/-- 10_state.md R111, R112: the layout of STATUS and CTRL, bit by bit; every reserved bit reads 0. -/
def Obligations.StatusAndCtrlLayout : Prop :=
  ∀ s : State,
    s.statusWord.getLsbD 0 = decide (s.engine = .busy) ∧ s.statusWord.getLsbD 1 = s.done ∧ s.statusWord.getLsbD 2 = s.err
      ∧ s.statusWord.getLsbD 3 = s.cmdOvr ∧ s.statusWord.extractLsb' 4 4 = s.errCode
      ∧ s.statusWord.getLsbD 8 = s.treeValid ∧ s.statusWord.getLsbD 9 = s.codeValid ∧ s.statusWord.getLsbD 10 = s.gValid
      ∧ s.statusWord.getLsbD 11 = s.unc ∧ s.statusWord.extractLsb' 12 20 = 0#20
      ∧ s.ctrlWord.getLsbD 0 = false ∧ s.ctrlWord.getLsbD 1 = s.ie ∧ s.ctrlWord.extractLsb' 2 30 = 0#30

/-- 10_state.md R113: a STATUS write clears DONE, ERR with ERRCODE, and CMD_OVR where bits 1, 2 and 3 are 1, ignores its other
bits, and is not held while BUSY = 1. The moment of completion, the input list and the response field are the model's own (log 5
to log 7). -/
def Obligations.StatusWriteClearsWhereOne : Prop :=
  ∀ (s : State) (v : Word) (rest : List Input), s.inputTurn →
    s.pending = .access { address := s.params.base + 0x08, bytes := 4, kind := .write v } :: rest →
    step s = .next
      { s with
        done := if v.getLsbD 1 then false else s.done
        err := if v.getLsbD 2 then false else s.err
        errCode := if v.getLsbD 2 then 0#4 else s.errCode
        cmdOvr := if v.getLsbD 3 then false else s.cmdOvr
        pending := rest, delay := s.delay - 1, response := some .done }

/-- 10_state.md R102, 20_memory.md R201, R202, 60_exceptions.md R807: a write to a read-only register is ignored with a normal
response, and an access of the window that is neither a 32-bit aligned register access nor an aligned 8-, 16- or 32-bit DMEM
access wholly below DMEM_SIZE gets a bus error and changes no state. A step performs the access; while BUSY = 1 the ones that
start inside DMEM wait (log 9). The other widths are log 10, the window's end is log 24, and the moment of completion, the input
list and the response field are the model's own (log 5 to log 7). -/
def Obligations.IgnoredAndErroneousAccessesChangeNothing : Prop :=
  ∀ s : State, s.inReset = false →
    let answers (a : BusAccess) (response : BusResponse) (notHeld : Prop) : Prop :=
      s.performAccess a = { s with response := some response }
        ∧ ∀ rest, s.inputTurn → notHeld → s.pending = .access a :: rest →
            step s = .next { s with pending := rest, delay := s.delay - 1, response := some response }
    (∀ (offset : Nat) (v : Word), offset ∈ [0x00, 0x24, 0x28, 0x2C, 0x30, 0x34, 0x38, 0x3C] →
      answers { address := s.params.base + offset, bytes := 4, kind := .write v } .done True) ∧
    (∀ (offset bytes : Nat) (kind : AccessKind), offset < s.params.windowSize →
      ¬ (offset < 0x40 ∧ bytes = 4 ∧ offset % 4 = 0) →
      ¬ (0x10000 ≤ offset ∧ bytes ∈ [1, 2, 4] ∧ (offset - 0x10000) % bytes = 0
          ∧ offset - 0x10000 + bytes ≤ s.params.dmemSize) →
      answers { address := s.params.base + offset, bytes := bytes, kind := kind } .busError
        (s.engine = .idle ∨ offset < 0x10000 ∨ 0x10000 + s.params.dmemSize ≤ offset))

/-- 20_memory.md R202: a host DMEM write of 1, 2 or 4 bytes stores the most significant byte at the lowest offset and changes no
other byte and no other state, and a read of the same width returns the value; while the engine is IDLE a step performs each. That
a write takes the low bits of its data and a read is zero-extended is the model's reading (log 15); the input list and the
response field are the model's own (log 5 to log 7). -/
def Obligations.HostDmemAccessIsBigEndian : Prop :=
  ∀ (s : State) (bytes offset : Nat) (v : Word), s.inReset = false → bytes ∈ [1, 2, 4] → offset % bytes = 0 →
    offset + bytes ≤ s.params.dmemSize →
    let access (kind : AccessKind) : BusAccess := { address := s.params.base + 0x10000 + offset, bytes := bytes, kind := kind }
    let t := s.performAccess (access (.write v))
    let value : Word := BitVec.ofNat 32 (v.toNat % 2 ^ (8 * bytes))
    t = { s with mem := t.mem, response := some .done } ∧
    (∀ j < bytes, t.readByte (offset + j) = v.extractLsb' (8 * (bytes - 1 - j)) 8) ∧
    (∀ x, x < offset ∨ offset + bytes ≤ x → t.readByte x = s.readByte x) ∧
    t.performAccess (access .read) = { t with response := some (.data value) } ∧
    (∀ rest, s.engine = .idle → s.pending = .access (access (.write v)) :: .access (access .read) :: rest →
      step s = .next { t with pending := .access (access .read) :: rest, delay := s.delay - 1 } ∧
      step { t with pending := .access (access .read) :: rest, delay := s.delay - 1 }
        = .next { t with pending := rest, delay := s.delay - 1 - 1, response := some (.data value) })

/-- 70_reset_and_hazards.md R901, 10_state.md R111: a CTRL write with SRST set, with the engine IDLE, puts every register at its
reset value, clears IE and the validity flags and leaves DMEM and the parameters as they are. The tables and the latch, which the
spec leaves unspecified, are left open here. The delay, the input list and the response field are the model's own (log 5 to
log 7). -/
def Obligations.SoftResetRestoresRegistersAndKeepsDmem : Prop :=
  ∀ (s : State) (v : Word) (rest : List Input), s.inReset = false → s.engine = .idle → v.getLsbD 0 = true →
    s.pending = .access { address := s.params.base + 0x04, bytes := 4, kind := .write v } :: rest →
    ∃ t, step s = .next t ∧
      t = { s with
            ie := false, done := false, err := false, cmdOvr := false, errCode := 0#4
            treeValid := false, codeValid := false, gValid := false, unc := false
            arg0 := 0#32, arg1 := 0#32, arg2 := 0#32, arg3 := 0#32, arg4 := 0#32
            res0 := 0#32, res1 := 0#32, synd := 0#32
            pending := rest, response := some .done
            tree := t.tree, code := t.code, latch := t.latch, delay := t.delay } ∧
      t.codeNWord = 0#32 ∧ t.codeKWord = 0#32 ∧ t.irq = false

/-- 70_reset_and_hazards.md R900, R902: asserting reset (also while a command runs) puts every register at its reset value and
makes every DMEM byte unspecified, a free value of the model (log 4); while it is asserted a read returns 0 and a write has no
effect; after it is deasserted the block is in its reset state. That the values are reset at the assertion is the model's reading
(log 12), and the input list is the model's own (log 6). -/
def Obligations.HardwareResetRestoresResetState : Prop :=
  ∀ (s : State) (asserted : Bool) (rest : List Input),
    (asserted = true ∨ s.inReset = true) → s.engineMoves = false → s.pending = .resetLine asserted :: rest →
    ∃ t, step s = .next t ∧ t.inReset = asserted ∧ t.params = s.params ∧ t.pending = rest
      ∧ t.ie = false ∧ t.statusWord = 0#32 ∧ t.engine = .idle ∧ t.irq = false
      ∧ t.arg0 = 0#32 ∧ t.arg1 = 0#32 ∧ t.arg2 = 0#32 ∧ t.arg3 = 0#32 ∧ t.arg4 = 0#32
      ∧ t.res0 = 0#32 ∧ t.res1 = 0#32 ∧ t.synd = 0#32 ∧ t.codeNWord = 0#32 ∧ t.codeKWord = 0#32
      ∧ (∀ x, t.readByte x = Config.unwrittenByte (s.memEpoch + 1) x)
      ∧ (asserted = true → ∀ a : BusAccess,
          (a.kind = .read → t.performAccess a = { t with response := some (.data 0#32) })
          ∧ (∀ v, a.kind = .write v → t.performAccess a = { t with response := some .done }))

/-- 10_state.md R150: the reset value of every register, flag and table flag, for every choice of the parameters; ID, PARAM0 and
PARAM1 read their constants (R119); IRQ is 0, and so is every line of the platform's interrupt controller. That State.reset takes
the default parameters is the model's choice (log 1), and so is that the routing of IRQ is one line number (log 25). -/
def Obligations.ResetStateHasTheSpecsValues : Prop :=
  State.reset = State.resetWith { nMax := 256, pMax := 12, dmemSize := 65536, base := State.reset.params.base,
                                         irqLine := State.reset.params.irqLine } ∧
  ∀ p : Params,
    let s := State.resetWith p
    s.params = p ∧ s.ctrlWord = 0#32 ∧ s.statusWord = 0#32 ∧ s.engine = .idle ∧ s.inReset = false ∧ s.irq = false
      ∧ (∀ line, s.irqOnLine line = false)
      ∧ s.arg0 = 0#32 ∧ s.arg1 = 0#32 ∧ s.arg2 = 0#32 ∧ s.arg3 = 0#32 ∧ s.arg4 = 0#32
      ∧ s.res0 = 0#32 ∧ s.res1 = 0#32 ∧ s.codeNWord = 0#32 ∧ s.codeKWord = 0#32 ∧ s.synd = 0#32
      ∧ s.readRegister .id = 0x48430100#32
      ∧ (p.legal = true → s.readRegister .param0 = BitVec.ofNat 32 (p.nMax + 65536 * p.pMax))
      ∧ s.readRegister .param1 = BitVec.ofNat 32 p.dmemSize

/-- 60_exceptions.md R810, R811, 10_state.md R136: IRQ is the level IE ∧ DONE. A CTRL write without SRST sets IE to bit 1, so
setting it while DONE = 1 raises IRQ at once; clearing DONE lowers it; every completion, failed or not, sets DONE. IRQ reaches the
line of the platform's interrupt controller that the routing parameter names, and no other line (R842; that the routing is one line
number is the model's form, log 25), and no step changes the routing. The moment of completion, the input list and the response
field are the model's own (log 5 to log 7). -/
def Obligations.InterruptLineFollowsEnableAndDone : Prop :=
  (∀ (s : State) (v : Word) (rest : List Input), s.inReset = false → s.engine = .idle → v.getLsbD 0 = false →
    s.pending = .access { address := s.params.base + 0x04, bytes := 4, kind := .write v } :: rest →
    ∃ t, step s = .next t
      ∧ t = { s with ie := v.getLsbD 1, pending := rest, delay := s.delay - 1, response := some .done }
      ∧ t.irq = (v.getLsbD 1 && s.done)) ∧
  (∀ (s : State) (v : Word) (rest : List Input), s.inputTurn → v.getLsbD 1 = true →
    s.pending = .access { address := s.params.base + 0x08, bytes := 4, kind := .write v } :: rest →
    ∃ t, step s = .next t ∧ t.ie = s.ie ∧ t.irq = false) ∧
  (∀ s : State, s.engineReady → ∃ t, step s = .next t ∧ t.ie = s.ie ∧ t.irq = s.ie) ∧
  (∀ (s : State) (line : Nat), s.irqOnLine line = true ↔ line = s.params.irqLine ∧ s.ie = true ∧ s.done = true) ∧
  (∀ s t : State, step s = .next t → t.params.irqLine = s.params.irqLine)

/-! ### Errors and frames of all commands -/

/-- 60_exceptions.md R820, R821: a command that ends with an error changes RES0 and RES1 to 0, ERR, ERRCODE, BUSY and DONE, and
nothing else: no DMEM byte, no table, no flag, not SYND. -/
def Obligations.CommandErrorsArePrecise : Prop :=
  ∀ (i : Instr) (s t : State), s.err = false → exec i s = .next t → t.err = true →
    ∃ code : BitVec 4, code ≠ 0#4 ∧ t = s.failedWith code

/-- 60_exceptions.md R802: a command completes with one of its listed codes, or with none; an illegal word with code 7. When the engine
is ready to complete is the model's choice (log 5). -/
def Obligations.CommandsRaiseOnlyTheirListedCodes : Prop :=
  (∀ (i : Instr) (s : State), s.err = false → s.errCode = 0#4 →
    ∃ t, exec i s = .next t
      ∧ ((t.err = false ∧ t.errCode = 0#4) ∨ (t.err = true ∧ t.errCode ∈ i.errorCodes))) ∧
  (∀ (s : State) (e : DecodeError), s.engineReady → decode s.latch.raw = .error e →
    ∃ t, step s = .next t ∧ t.err = true ∧ t.errCode = 7#4)

/-- 60_exceptions.md R804: a command that needs a table checks the table's validity flag first; every other command never raises
NOT_CONFIGURED. -/
def Obligations.NotConfiguredIsCheckedFirst : Prop :=
  ∀ s : State,
    (s.treeValid = false → ∀ i, (i = .henc ∨ i = .hdec ∨ ∃ symbol, i = .hcode symbol) →
      exec i s = .next (s.failedWith 4#4)) ∧
    (s.codeValid = false → ∀ i ∈ [Instr.lcstoreh, .lcdec, .lcdecs, .lcsyn], exec i s = .next (s.failedWith 4#4)) ∧
    (s.gValid = false → ∀ i ∈ [Instr.lcstoreg, .lcenc, .lcencs], exec i s = .next (s.failedWith 4#4)) ∧
    (s.err = false → s.errCode = 0#4 → ∀ i ∈ [Instr.nop, .hfreq, .hbuild, .hcomp, .hdecomp, .pack, .unpack, .pad,
        .unpad, .lcgen, .lcloadh],
      ∀ t, exec i s = .next t → t.errCode ≠ 4#4)

/-- 10_state.md R133: successful HBUILD, HCOMP and HDECOMP set tree_valid, successful LCGEN and LCLOADH set code_valid, successful
LCGEN sets g_valid and successful LCLOADH clears it; no command changes a validity flag otherwise. -/
def Obligations.ValidityFlagsFollowSuccessfulBuilders : Prop :=
  ∀ (i : Instr) (s t : State), s.err = false → exec i s = .next t →
    t.treeValid = (s.treeValid || (!t.err && decide (i ∈ [Instr.hbuild, .hcomp, .hdecomp]))) ∧
    t.codeValid = (s.codeValid || (!t.err && decide (i ∈ [Instr.lcgen, .lcloadh]))) ∧
    t.gValid = ((s.gValid && !(!t.err && decide (i = Instr.lcloadh))) || (!t.err && decide (i = Instr.lcgen)))

/-- The frame of every command, failed or not (30_encoding.md R312, 10_state.md R115, R118, R133): the host's registers, CTRL,
CMD_OVR, the latch and the parameters never change; the tree changes only in HBUILD, HCOMP and HDECOMP, the linear code only in
LCGEN and LCLOADH, SYND and UNC only in LCDEC, LCDECS and LCSYN, and DMEM only in the commands that store: there every byte
outside the output region at dst (and HCOMP's table at aux) reads as before, and every byte does when the command fails. The
counter codeChanges is the model's own (log 3). -/
def Obligations.CommandsChangeOnlyTheirOwnState : Prop :=
  ∀ (i : Instr) (s t : State), exec i s = .next t →
    t = { s with
          mem := t.mem, res0 := t.res0, res1 := t.res1, engine := .idle, done := true, err := t.err, errCode := t.errCode
          tree := t.tree, treeValid := t.treeValid, code := t.code, codeValid := t.codeValid, gValid := t.gValid
          codeChanges := t.codeChanges, synd := t.synd, unc := t.unc } ∧
    (i ∉ [Instr.hbuild, .hcomp, .hdecomp] → t.tree = s.tree) ∧
    (i ∉ [Instr.lcgen, .lcloadh] → t.code = s.code ∧ t.codeChanges = s.codeChanges) ∧
    (i ∉ [Instr.lcdec, .lcdecs, .lcsyn] → t.synd = s.synd ∧ t.unc = s.unc) ∧
    (i ∈ [Instr.nop, .hbuild, .lcgen, .lcloadh, .lcsyn] → t.mem = s.mem) ∧
    (s.params.legal = true → s.codeOk → s.err = false → ∀ x,
      t.err = true
        ∨ ((x < s.opDst ∨ s.opDst + s.outputBytes i t ≤ x) ∧ (i = .hcomp → x < s.opAux ∨ s.opAux + 1024 ≤ x)) →
      t.readByte x = s.readByte x)

/-! ### Control -/

/-- 44_control.md R700: NOP succeeds in every state with RES0 = RES1 = 0 and changes nothing else. -/
def Obligations.NopCompletes : Prop :=
  ∀ s : State, exec .nop s = .next (s.succeededWith s.mem 0#32 0#32)

/-! ### Huffman family -/

/-- 41_huffman.md R410: HFREQ checks the source, then the table, then stores the count of each symbol big-endian at
dst + 4·symbol; RES0 is the number of distinct symbols; no other byte and no table changes. -/
def Obligations.HfreqStoresTheCounts : Prop :=
  ∀ s : State, s.params.legal = true →
    (s.params.dmemSize < s.opSrc + s.opLen ∨ s.params.dmemSize < s.opDst + 1024 →
      exec .hfreq s = .next (s.failedWith 6#4)) ∧
    (s.opSrc + s.opLen ≤ s.params.dmemSize → s.opDst + 1024 ≤ s.params.dmemSize →
      ∃ t, exec .hfreq s = .next t
        ∧ t = s.succeededWith t.mem
            (BitVec.ofNat 32 (FreqTable.distinct
              ((List.range 256).map (fun x => (s.bytesRead s.opSrc s.opLen).count (BitVec.ofNat 8 x))))) 0#32
        ∧ (∀ x < 256, t.word32 (s.opDst + 4 * x) = (s.bytesRead s.opSrc s.opLen).count (BitVec.ofNat 8 x))
        ∧ (∀ a, a < s.opDst ∨ s.opDst + 1024 ≤ a → t.readByte a = s.readByte a))

/-- 41_huffman.md R411: HBUILD checks the table's range, then builds the tree of R402 from the 256 big-endian counts at aux and
sets TREE_VALID; RES0 is the number of symbols with a nonzero count and RES1 the length of the longest codeword; DMEM does not
change. R402: no symbol gives the Empty tree, one symbol the wrapper with its leaf on the left, and two or more the tree that
merging the leaves gives: each time the item of least (weight, seq) becomes the left child and the next least the right one. -/
def Obligations.HbuildBuildsTheTree : Prop :=
  (∀ s : State, Memory.wf s.mem = true →
    (s.params.dmemSize < s.opAux + 1024 → exec .hbuild s = .next (s.failedWith 6#4)) ∧
    (s.opAux + 1024 ≤ s.params.dmemSize → ∀ f, s.tableAt s.opAux f →
      ∃ longest, (buildTree f).longestIs longest
        ∧ exec .hbuild s = .next
            { s.succeededWith s.mem (BitVec.ofNat 32 f.distinct) (BitVec.ofNat 32 longest) with
              tree := buildTree f, treeValid := true })) ∧
  (∀ f : FreqTable,
    let A := (List.range 256).filter (fun symbol => decide (0 < f.count symbol))
    (A = [] → buildTree f = .empty) ∧
    (∀ symbol, A = [symbol] → buildTree f = .root (.internal (.leaf (BitVec.ofNat 8 symbol)) .absent)) ∧
    (2 ≤ A.length →
      ∃ root, buildTree f = .root root
        ∧ MergesTo A.length
            (A.zipIdx.map (fun e => { weight := f.count e.1, seq := e.2, node := .leaf (BitVec.ofNat 8 e.1) })) root))

/-- 41_huffman.md R412: HENC's checks in order, then the concatenation of the codewords of the source bytes is stored packed at
dst, its last byte zero-filled; RES0 is its bit count. -/
def Obligations.HencStoresTheCodewords : Prop :=
  ∀ s : State,
    (s.treeValid = false → exec .henc s = .next (s.failedWith 4#4)) ∧
    (s.treeValid = true → s.params.dmemSize < s.opSrc + s.opLen → exec .henc s = .next (s.failedWith 6#4)) ∧
    (s.treeValid = true → s.opSrc + s.opLen ≤ s.params.dmemSize →
      (∃ x ∈ s.bytesRead s.opSrc s.opLen, s.tree.codeword x = none) → exec .henc s = .next (s.failedWith 5#4)) ∧
    (s.treeValid = true → s.opSrc + s.opLen ≤ s.params.dmemSize →
      (∀ x ∈ s.bytesRead s.opSrc s.opLen, s.tree.codeword x ≠ none) →
      ∃ codewords : List Bits, (s.bytesRead s.opSrc s.opLen).map s.tree.codeword = codewords.map some
        ∧ (s.params.dmemSize < s.opDst + (codewords.flatten.length + 7) / 8 → exec .henc s = .next (s.failedWith 6#4))
        ∧ (s.opDst + (codewords.flatten.length + 7) / 8 ≤ s.params.dmemSize →
            ∃ t, exec .henc s = .next t
              ∧ t = s.succeededWith t.mem (BitVec.ofNat 32 codewords.flatten.length) 0#32
              ∧ s.storedFrom t s.opDst (pack codewords.flatten)))

/-- 41_huffman.md R413: HDEC's checks in order, then the bytes the decode walk of R405 emits are stored at dst; RES0 is their
number and RES1 the number of dangling bits. -/
def Obligations.HdecStoresTheDecodedBytes : Prop :=
  ∀ s : State,
    (s.treeValid = false → exec .hdec s = .next (s.failedWith 4#4)) ∧
    (s.treeValid = true → s.params.dmemSize < s.opSrc + (s.opLen + 7) / 8 → exec .hdec s = .next (s.failedWith 6#4)) ∧
    (s.treeValid = true → s.opSrc + (s.opLen + 7) / 8 ≤ s.params.dmemSize →
      huffDecode s.tree (s.bitsRead s.opSrc s.opLen) = none → exec .hdec s = .next (s.failedWith 5#4)) ∧
    (∀ out d, s.treeValid = true → s.opSrc + (s.opLen + 7) / 8 ≤ s.params.dmemSize →
      huffDecode s.tree (s.bitsRead s.opSrc s.opLen) = some (out, d) →
      (s.params.dmemSize < s.opDst + out.length → exec .hdec s = .next (s.failedWith 6#4))
      ∧ (s.opDst + out.length ≤ s.params.dmemSize →
          ∃ t, exec .hdec s = .next t
            ∧ t = s.succeededWith t.mem (BitVec.ofNat 32 out.length) (BitVec.ofNat 32 d)
            ∧ s.storedFrom t s.opDst out))

/-- 41_huffman.md R414: HCOMP's checks in order, then the table of the source's counts is stored at aux and after it the packed
encoding at dst, which wins where the two overlap; the tree becomes that of the counts. It never raises INVALID_CODE. -/
def Obligations.HcompCompresses : Prop :=
  ∀ s : State, s.params.legal = true →
    let bs := s.bytesRead s.opSrc s.opLen
    let freq : FreqTable := (List.range 256).map (fun x => bs.count (BitVec.ofNat 8 x))
    (s.params.dmemSize < s.opSrc + s.opLen ∨ s.params.dmemSize < s.opAux + 1024 →
      exec .hcomp s = .next (s.failedWith 6#4)) ∧
    (s.opSrc + s.opLen ≤ s.params.dmemSize → s.opAux + 1024 ≤ s.params.dmemSize →
      ∃ codewords : List Bits, bs.map (buildTree freq).codeword = codewords.map some
        ∧ (s.params.dmemSize < s.opDst + (codewords.flatten.length + 7) / 8 → exec .hcomp s = .next (s.failedWith 6#4))
        ∧ (s.opDst + (codewords.flatten.length + 7) / 8 ≤ s.params.dmemSize →
            ∃ t, exec .hcomp s = .next t
              ∧ t = { s.succeededWith t.mem (BitVec.ofNat 32 codewords.flatten.length) (BitVec.ofNat 32 freq.distinct) with
                      tree := buildTree freq, treeValid := true }
              ∧ (∀ j < (codewords.flatten.length + 7) / 8, t.readByte (s.opDst + j) = (pack codewords.flatten).getD j 0#8)
              ∧ (∀ x < 256, ∀ j < 4,
                  (s.opAux + 4 * x + j < s.opDst ∨ s.opDst + (codewords.flatten.length + 7) / 8 ≤ s.opAux + 4 * x + j) →
                  t.readByte (s.opAux + 4 * x + j)
                    = (BitVec.ofNat 32 (bs.count (BitVec.ofNat 8 x))).extractLsb' (8 * (3 - j)) 8)
              ∧ (∀ a, (a < s.opDst ∨ s.opDst + (codewords.flatten.length + 7) / 8 ≤ a) → (a < s.opAux ∨ s.opAux + 1024 ≤ a) →
                  t.readByte a = s.readByte a)))

/-- 41_huffman.md R415: HDECOMP's checks in order, then the tree is rebuilt from the table at aux and the decoded bytes are stored
at dst; on an error the previous tree is kept. -/
def Obligations.HdecompDecompresses : Prop :=
  ∀ s : State, Memory.wf s.mem = true →
    (s.params.dmemSize < s.opSrc + (s.opLen + 7) / 8 ∨ s.params.dmemSize < s.opAux + 1024 →
      exec .hdecomp s = .next (s.failedWith 6#4)) ∧
    (∀ f, s.opSrc + (s.opLen + 7) / 8 ≤ s.params.dmemSize → s.opAux + 1024 ≤ s.params.dmemSize → s.tableAt s.opAux f →
      (huffDecode (buildTree f) (s.bitsRead s.opSrc s.opLen) = none → exec .hdecomp s = .next (s.failedWith 5#4))
      ∧ (∀ out d, huffDecode (buildTree f) (s.bitsRead s.opSrc s.opLen) = some (out, d) →
          (s.params.dmemSize < s.opDst + out.length → exec .hdecomp s = .next (s.failedWith 6#4))
          ∧ (s.opDst + out.length ≤ s.params.dmemSize →
              ∃ t, exec .hdecomp s = .next t
                ∧ t = { s.succeededWith t.mem (BitVec.ofNat 32 out.length) (BitVec.ofNat 32 d) with
                        tree := buildTree f, treeValid := true }
                ∧ s.storedFrom t s.opDst out)))

/-- 41_huffman.md R416: HCODE stores the codeword of its symbol packed at dst, with its length in RES0; an absent symbol succeeds
with RES0 = 0, writes nothing and checks no range. -/
def Obligations.HcodeReadsOneCodeword : Prop :=
  ∀ (s : State) (symbol : Byte),
    (s.treeValid = false → exec (.hcode symbol) s = .next (s.failedWith 4#4)) ∧
    (s.treeValid = true → s.tree.codeword symbol = none →
      exec (.hcode symbol) s = .next (s.succeededWith s.mem 0#32 0#32)) ∧
    (∀ c, s.treeValid = true → s.tree.codeword symbol = some c →
      (s.params.dmemSize < s.opDst + (c.length + 7) / 8 → exec (.hcode symbol) s = .next (s.failedWith 6#4))
      ∧ (s.opDst + (c.length + 7) / 8 ≤ s.params.dmemSize →
          ∃ t, exec (.hcode symbol) s = .next t
            ∧ t = s.succeededWith t.mem (BitVec.ofNat 32 c.length) 0#32
            ∧ s.storedFrom t s.opDst (pack c)))

/-- 41_huffman.md R403, R406 (a): in the code map of a built tree a symbol has a codeword exactly when its count is nonzero, every
codeword has 1 to 255 bits, and no codeword is a prefix of another symbol's; the codeword of a symbol is the path from the root to
its leaf, with 0 for left and 1 for right. -/
def Obligations.CodeMapCoversTheAlphabetPrefixFree : Prop :=
  ∀ f : FreqTable,
    (∀ x : Byte, (buildTree f).codeword x ≠ none ↔ 0 < f.count x.toNat) ∧
    (∀ (x : Byte) (c : Bits), (buildTree f).codeword x = some c → 1 ≤ c.length ∧ c.length ≤ 255) ∧
    (∀ (x y : Byte) (c d : Bits), (buildTree f).codeword x = some c → (buildTree f).codeword y = some d → c <+: d → x = y) ∧
    (∀ (x : Byte) (c : Bits), (buildTree f).codeword x = some c ↔ ∃ root, buildTree f = .root root ∧ root.LeafAt c x)

/-- 41_huffman.md R406 (b), (c), (d): with a built tree, decoding an encoding gives back the bytes with no dangling bit; whatever
decodes is the encoding of its bytes followed by the dangling bits, in which no codeword begins; encoding bytes with the tree of
their own counts never fails, and is empty exactly when there are no bytes. R405: with two or more symbols decoding never fails,
with one it fails exactly when some bit is 1, and with none exactly when there is a bit. -/
def Obligations.HuffmanDecodeInvertsEncode : Prop :=
  (∀ (f : FreqTable) (bs : List Byte) (out : Bits), huffEncode (buildTree f) bs = some out →
    huffDecode (buildTree f) out = some (bs, 0)) ∧
  (∀ (f : FreqTable) (bs : List Byte) (b : Bits) (d : Nat), huffDecode (buildTree f) b = some (bs, d) →
    ∃ out dangling, huffEncode (buildTree f) bs = some out ∧ b = out ++ dangling ∧ dangling.length = d
      ∧ ∀ (x : Byte) (c : Bits), (buildTree f).codeword x = some c → ¬ c <+: dangling) ∧
  (∀ bs : List Byte, ∃ out, huffEncode (buildTree (freqOf bs)) bs = some out ∧ (out = [] ↔ bs = [])) ∧
  (∀ (f : FreqTable) (b : Bits),
    (2 ≤ f.distinct → huffDecode (buildTree f) b ≠ none) ∧
    (f.distinct = 1 → (huffDecode (buildTree f) b = none ↔ true ∈ b)) ∧
    (f.distinct = 0 → (huffDecode (buildTree f) b = none ↔ b ≠ [])))

/-- 41_huffman.md R414, R415, R406 (b): on the machine, HDECOMP of what HCOMP stored, with the bit count of RES0 and the stored
table, gives back the source bytes with RES1 = 0, wherever the bits and the table do not overlap. -/
def Obligations.DecompressRestoresCompressedBytes : Prop :=
  ∀ (s t : State) (dst2 : Word), s.params.legal = true → Memory.wf s.mem = true → s.err = false →
    exec .hcomp s = .next t → t.err = false →
    (s.opDst + (t.res0.toNat + 7) / 8 ≤ s.opAux ∨ s.opAux + 1024 ≤ s.opDst) →
    dst2.toNat + s.opLen ≤ s.params.dmemSize →
    ∃ u, exec .hdecomp { t with latch := { t.latch with src := t.latch.dst, len := t.res0, dst := dst2 } } = .next u
      ∧ u.err = false ∧ u.res0 = t.latch.len ∧ u.res1 = 0#32
      ∧ ∀ j < s.opLen, u.readByte (dst2.toNat + j) = (s.bytesRead s.opSrc s.opLen).getD j 0#8

/-! ### Bit packing and padding -/

/-- 20_memory.md R204 to R206: bit i of a bit sequence in DMEM is bit 7 − i mod 8 of byte a + i div 8; the packed form has
ceil8(L) bytes, its bits beyond the sequence are 0, and pack and unpack are inverse. That they are inverse (the last two clauses) is
an inference the spec marks as its own. -/
def Obligations.BitSequencesArePackedFirstBitHighest : Prop :=
  (∀ (s : State) (a L i : Nat), Memory.wf s.mem = true → i < L →
    (s.bitsRead a L).length = L ∧ (s.bitsRead a L).getD i false = (s.readByte (a + i / 8)).getLsbD (7 - i % 8)) ∧
  (∀ b : Bits, (pack b).length = (b.length + 7) / 8) ∧
  (∀ (b : Bits) (j t : Nat), j < (pack b).length → t < 8 →
    ((pack b).getD j 0#8).getLsbD (7 - t) = b.getD (8 * j + t) false) ∧
  (∀ (bs : List Byte) (L i : Nat), L ≤ 8 * bs.length → i < L →
    (unpack bs L).length = L ∧ (unpack bs L).getD i false = (bs.getD (i / 8) 0#8).getLsbD (7 - i % 8)) ∧
  (∀ b : Bits, unpack (pack b) b.length = b) ∧
  (∀ bs : List Byte, pack (unpack bs (8 * bs.length)) = bs)

/-- 42_bitpack_padding.md R510: PACK's checks in order, then the cells are stored as packed bits. -/
def Obligations.PackStoresTheCellsAsBits : Prop :=
  ∀ s : State,
    let cells := s.bytesRead s.opSrc s.opLen
    (s.params.dmemSize < s.opSrc + s.opLen → exec .pack s = .next (s.failedWith 6#4)) ∧
    (s.opSrc + s.opLen ≤ s.params.dmemSize → (∃ c ∈ cells, c ≠ 0x00#8 ∧ c ≠ 0x01#8) →
      exec .pack s = .next (s.failedWith 1#4)) ∧
    (s.opSrc + s.opLen ≤ s.params.dmemSize → (∀ c ∈ cells, c = 0x00#8 ∨ c = 0x01#8) →
      s.params.dmemSize < s.opDst + (s.opLen + 7) / 8 → exec .pack s = .next (s.failedWith 6#4)) ∧
    (s.opSrc + s.opLen ≤ s.params.dmemSize → (∀ c ∈ cells, c = 0x00#8 ∨ c = 0x01#8) →
      s.opDst + (s.opLen + 7) / 8 ≤ s.params.dmemSize →
      ∃ t, exec .pack s = .next t
        ∧ t = s.succeededWith t.mem (BitVec.ofNat 32 ((s.opLen + 7) / 8)) 0#32
        ∧ s.storedFrom t s.opDst (pack (cells.map (fun c => decide (c = 0x01#8)))))

/-- 42_bitpack_padding.md R511: UNPACK's checks in order, then each bit is stored as a byte 0x00 or 0x01. -/
def Obligations.UnpackStoresTheBitsAsCells : Prop :=
  ∀ s : State,
    (s.params.dmemSize < s.opSrc + (s.opLen + 7) / 8 ∨ s.params.dmemSize < s.opDst + s.opLen →
      exec .unpack s = .next (s.failedWith 6#4)) ∧
    (s.opSrc + (s.opLen + 7) / 8 ≤ s.params.dmemSize → s.opDst + s.opLen ≤ s.params.dmemSize →
      ∃ t, exec .unpack s = .next t
        ∧ t = s.succeededWith t.mem s.latch.len 0#32
        ∧ s.storedFrom t s.opDst ((s.bitsRead s.opSrc s.opLen).map (fun b => if b then 0x01#8 else 0x00#8)))

/-- 42_bitpack_padding.md R512: PAD's checks in order, then the packed data is stored with padn bytes of value padn after it, where
padn = B − (len mod B) in bytes; RES0 is the output bit count, a multiple of the block size, and RES1 is padn. -/
def Obligations.PadAppendsThePadBytes : Prop :=
  ∀ s : State,
    let blockOk : Prop := 8 ≤ s.opAux ∧ s.opAux % 8 = 0 ∧ s.opAux ≤ 2040
    let m := (s.opLen + 7) / 8
    let padn := s.opAux / 8 - m % (s.opAux / 8)
    (¬ blockOk → exec .pad s = .next (s.failedWith 1#4)) ∧
    (blockOk → s.params.dmemSize < s.opSrc + m → exec .pad s = .next (s.failedWith 6#4)) ∧
    (blockOk → s.opSrc + m ≤ s.params.dmemSize → s.params.dmemSize < s.opDst + (m + padn) →
      exec .pad s = .next (s.failedWith 6#4)) ∧
    (blockOk → s.opSrc + m ≤ s.params.dmemSize → s.opDst + (m + padn) ≤ s.params.dmemSize →
      8 * (m + padn) % s.opAux = 0 ∧
      ∃ t, exec .pad s = .next t
        ∧ t = s.succeededWith t.mem (BitVec.ofNat 32 (8 * (m + padn))) (BitVec.ofNat 32 padn)
        ∧ s.storedFrom t s.opDst
            (pack (s.bitsRead s.opSrc s.opLen) ++ List.replicate padn (BitVec.ofNat 8 padn)))

/-- 42_bitpack_padding.md R513, R503: UNPAD's checks in order: block size, source range, an empty input or a trailing byte that is
0, above B or above the data length (INVALID_PADDING), fewer bits left than aux2 (LENGTH_MISMATCH), destination range; then the
first aux2 bits of the data are stored. -/
def Obligations.UnpadStripsThePadBytes : Prop :=
  ∀ s : State,
    let blockOk : Prop := 8 ≤ s.opAux ∧ s.opAux % 8 = 0 ∧ s.opAux ≤ 2040
    let m := (s.opLen + 7) / 8
    let data := pack (s.bitsRead s.opSrc s.opLen)
    let padn := (data.getD (m - 1) 0#8).toNat
    let sourceOk : Prop := blockOk ∧ s.opSrc + m ≤ s.params.dmemSize
    let paddingOk : Prop := sourceOk ∧ m ≠ 0 ∧ padn ≠ 0 ∧ padn ≤ s.opAux / 8 ∧ padn ≤ m
    (¬ blockOk → exec .unpad s = .next (s.failedWith 1#4)) ∧
    (blockOk → s.params.dmemSize < s.opSrc + m → exec .unpad s = .next (s.failedWith 6#4)) ∧
    (sourceOk → m = 0 ∨ padn = 0 ∨ s.opAux / 8 < padn ∨ m < padn → exec .unpad s = .next (s.failedWith 2#4)) ∧
    (paddingOk → 8 * (m - padn) < s.opAux2 → exec .unpad s = .next (s.failedWith 3#4)) ∧
    (paddingOk → s.opAux2 ≤ 8 * (m - padn) → s.params.dmemSize < s.opDst + (s.opAux2 + 7) / 8 →
      exec .unpad s = .next (s.failedWith 6#4)) ∧
    (paddingOk → s.opAux2 ≤ 8 * (m - padn) → s.opDst + (s.opAux2 + 7) / 8 ≤ s.params.dmemSize →
      ∃ t, exec .unpad s = .next t
        ∧ t = s.succeededWith t.mem s.latch.aux2 (BitVec.ofNat 32 padn)
        ∧ s.storedFrom t s.opDst (pack ((unpack data (8 * m)).take s.opAux2)))

/-- 42_bitpack_padding.md R504 (a): unpadding a padded bit sequence with its own length gives the sequence back. -/
def Obligations.UnpadInvertsPad : Prop :=
  ∀ (S : Bits) (B : Nat), 1 ≤ B → B ≤ 255 →
    unpadBytes (padBytes (pack S) B) B S.length = .ok (S, padCount (pack S).length B)

/-! ### Linear block code -/

/-- 43_linear_code.md R610, R600: LCGEN's checks in order, then the code of R601 to R603 for (aux, aux2) replaces the current code,
both validity flags are set, RES0 is p and RES1 is n, the number of syndrome-table entries; CODE_N and CODE_K read n and k. -/
def Obligations.LcgenBuildsTheCode : Prop :=
  ∀ s : State, s.params.legal = true →
    let n := s.opAux
    let k := s.opAux2
    let sizesOk : Prop := ¬ (k = 0 ∨ n ≤ k) ∧ n ≤ s.params.nMax ∧ n - k ≤ s.params.pMax
    (k = 0 ∨ n ≤ k → exec .lcgen s = .next (s.failedWith 1#4)) ∧
    (¬ (k = 0 ∨ n ≤ k) → s.params.nMax < n ∨ s.params.pMax < n - k → exec .lcgen s = .next (s.failedWith 6#4)) ∧
    (sizesOk → 2 ^ (n - k) - 1 - (n - k) < k → exec .lcgen s = .next (s.failedWith 1#4)) ∧
    (sizesOk → k ≤ 2 ^ (n - k) - 1 - (n - k) →
      ∃ t, exec .lcgen s = .next t
        ∧ t = { s.succeededWith s.mem (BitVec.ofNat 32 (n - k)) (BitVec.ofNat 32 n) with
                code := generateCode n k, codeValid := true, gValid := true, codeChanges := t.codeChanges }
        ∧ t.codeNWord = s.latch.aux ∧ t.codeKWord = s.latch.aux2)

/-- 43_linear_code.md R611: LCLOADH's checks in order, then H takes the p·n bits at src row by row, with n, k and the syndrome table
of H; CODE_VALID is set and G_VALID cleared; RES1 is the number of distinct nonzero columns of H. -/
def Obligations.LcloadhImportsTheParityCheck : Prop :=
  ∀ s : State,
    let n := s.opAux
    let k := s.opAux2
    let b := s.bitsRead s.opSrc ((n - k) * n)
    let sizesOk : Prop := ¬ (k = 0 ∨ n ≤ k) ∧ n ≤ s.params.nMax ∧ n - k ≤ s.params.pMax
    (k = 0 ∨ n ≤ k → exec .lcloadh s = .next (s.failedWith 1#4)) ∧
    (¬ (k = 0 ∨ n ≤ k) → s.params.nMax < n ∨ s.params.pMax < n - k → exec .lcloadh s = .next (s.failedWith 6#4)) ∧
    (sizesOk → s.params.dmemSize < s.opSrc + ((n - k) * n + 7) / 8 → exec .lcloadh s = .next (s.failedWith 6#4)) ∧
    (sizesOk → s.opSrc + ((n - k) * n + 7) / 8 ≤ s.params.dmemSize →
      ∃ t, exec .lcloadh s = .next t
        ∧ t = { s.succeededWith s.mem (BitVec.ofNat 32 (n - k)) t.res1 with
                code := t.code, codeValid := true, gValid := false, codeChanges := t.codeChanges }
        ∧ t.code.n = n ∧ t.code.k = k
        ∧ t.code.H.length = n - k
        ∧ (∀ i < n - k, ∀ c < n, matrixEntry t.code.H i c = b.getD (i * n + c) false)
        ∧ t.res1 = BitVec.ofNat 32
            (((List.range n).map (fun c => bitsNumber (matrixColumn t.code.H c))).filter (fun S => S != 0)).dedup.length)

/-- 43_linear_code.md R612, 20_memory.md R210: LCSTOREH's checks in order, then H is stored row by row, entry (i, c) as bit i·n + c. -/
def Obligations.LcstorehExportsTheParityCheck : Prop :=
  ∀ s : State, s.codeOk →
    let n := s.code.n
    let p := s.code.n - s.code.k
    (s.codeValid = false → exec .lcstoreh s = .next (s.failedWith 4#4)) ∧
    (s.codeValid = true → s.params.dmemSize < s.opDst + (p * n + 7) / 8 → exec .lcstoreh s = .next (s.failedWith 6#4)) ∧
    (s.codeValid = true → s.opDst + (p * n + 7) / 8 ≤ s.params.dmemSize →
      ∃ t b, exec .lcstoreh s = .next t
        ∧ t = s.succeededWith t.mem (BitVec.ofNat 32 (p * n)) 0#32
        ∧ b.length = p * n ∧ (∀ i < p, ∀ c < n, b.getD (i * n + c) false = matrixEntry s.code.H i c)
        ∧ s.storedFrom t s.opDst (pack b))

/-- 43_linear_code.md R613, 20_memory.md R210: LCSTOREG's checks in order, then G is stored row by row, entry (j, c) as bit j·n + c. -/
def Obligations.LcstoregExportsTheGenerator : Prop :=
  ∀ s : State, s.codeOk →
    let n := s.code.n
    let k := s.code.k
    (s.gValid = false → exec .lcstoreg s = .next (s.failedWith 4#4)) ∧
    (s.gValid = true → s.params.dmemSize < s.opDst + (k * n + 7) / 8 → exec .lcstoreg s = .next (s.failedWith 6#4)) ∧
    (s.gValid = true → s.opDst + (k * n + 7) / 8 ≤ s.params.dmemSize →
      ∃ t b, exec .lcstoreg s = .next t
        ∧ t = s.succeededWith t.mem (BitVec.ofNat 32 (k * n)) 0#32
        ∧ b.length = k * n ∧ (∀ j < k, ∀ c < n, b.getD (j * n + c) false = matrixEntry s.code.G j c)
        ∧ s.storedFrom t s.opDst (pack b))

/-- 43_linear_code.md R614, R606: LCENC's checks in order, then the n-bit codeword is stored: bit c is the sum over j of m[j]·G[j][c],
so the first k bits are the message itself. -/
def Obligations.LcencEncodesOneMessage : Prop :=
  ∀ s : State, s.codeOk →
    let n := s.code.n
    let k := s.code.k
    let m := s.bitsRead s.opSrc k
    (s.gValid = false → exec .lcenc s = .next (s.failedWith 4#4)) ∧
    (s.gValid = true → s.opLen ≠ k → exec .lcenc s = .next (s.failedWith 1#4)) ∧
    (s.gValid = true → s.opLen = k → s.params.dmemSize < s.opSrc + (k + 7) / 8 ∨ s.params.dmemSize < s.opDst + (n + 7) / 8 →
      exec .lcenc s = .next (s.failedWith 6#4)) ∧
    (s.gValid = true → s.opLen = k → s.opSrc + (k + 7) / 8 ≤ s.params.dmemSize → s.opDst + (n + 7) / 8 ≤ s.params.dmemSize →
      ∃ t w, exec .lcenc s = .next t
        ∧ t = s.succeededWith t.mem (BitVec.ofNat 32 n) 0#32
        ∧ w.length = n ∧ w.take k = m
        ∧ (∀ c < n, w.getD c false
            = (List.range k).foldl (fun acc j => xor acc (m.getD j false && matrixEntry s.code.G j c)) false)
        ∧ s.storedFrom t s.opDst (pack w))

/-- 43_linear_code.md R615, R607, R604, R605: LCDEC's checks in order, then by the syndrome number S of H·r: S = 0 stores the first
k bits; S equal to the number of a column flips the first such position, with RES0 = 1 and RES1 that position; any other S stores
the first k bits uncorrected and sets UNC. SYND takes S. -/
def Obligations.LcdecDecodesOneWord : Prop :=
  ∀ s : State,
    let n := s.code.n
    let k := s.code.k
    let r := s.bitsRead s.opSrc n
    let S := bitsNumber (s.code.H.map (fun row => (List.zipWith (fun x y => x && y) row r).foldl (fun acc x => xor acc x) false))
    let column (c : Nat) : Nat := bitsNumber (matrixColumn s.code.H c)
    let sizesOk : Prop := s.codeValid = true ∧ s.opLen = n
      ∧ s.opSrc + (n + 7) / 8 ≤ s.params.dmemSize ∧ s.opDst + (k + 7) / 8 ≤ s.params.dmemSize
    let decodesTo (message : Bits) (corrected position : Word) (unc : Bool) : Prop :=
      ∃ t, exec .lcdec s = .next t
        ∧ t = { s.succeededWith t.mem corrected position with synd := BitVec.ofNat 32 S, unc := unc }
        ∧ s.storedFrom t s.opDst (pack message)
    (s.codeValid = false → exec .lcdec s = .next (s.failedWith 4#4)) ∧
    (s.codeValid = true → s.opLen ≠ n → exec .lcdec s = .next (s.failedWith 1#4)) ∧
    (s.codeValid = true → s.opLen = n →
      s.params.dmemSize < s.opSrc + (n + 7) / 8 ∨ s.params.dmemSize < s.opDst + (k + 7) / 8 →
      exec .lcdec s = .next (s.failedWith 6#4)) ∧
    (sizesOk → S = 0 → decodesTo (r.take k) 0#32 0xFFFFFFFF#32 false) ∧
    (∀ pos, sizesOk → S ≠ 0 → pos < n → column pos = S → (∀ c < pos, column c ≠ S) →
      decodesTo ((r.set pos (!r.getD pos false)).take k) 1#32 (BitVec.ofNat 32 pos) false) ∧
    (sizesOk → S ≠ 0 → (∀ c < n, column c ≠ S) → decodesTo (r.take k) 0#32 0xFFFFFFFF#32 true)

/-- 43_linear_code.md R616: LCENCS's checks in order, then the codewords of the successive k-bit messages are stored one after the
other; RES0 is the output bit count and RES1 the number of blocks. -/
def Obligations.LcencsEncodesAStream : Prop :=
  ∀ s : State, s.codeOk →
    let n := s.code.n
    let k := s.code.k
    let b := s.bitsRead s.opSrc s.opLen
    let nblk := s.opLen / k
    let sizesOk : Prop := s.gValid = true ∧ s.opLen % k = 0
    (s.gValid = false → exec .lcencs s = .next (s.failedWith 4#4)) ∧
    (s.gValid = true → s.opLen % k ≠ 0 → exec .lcencs s = .next (s.failedWith 1#4)) ∧
    (sizesOk → s.params.dmemSize < s.opSrc + (s.opLen + 7) / 8 ∨ s.params.dmemSize < s.opDst + (nblk * n + 7) / 8 →
      exec .lcencs s = .next (s.failedWith 6#4)) ∧
    (sizesOk → s.opSrc + (s.opLen + 7) / 8 ≤ s.params.dmemSize → s.opDst + (nblk * n + 7) / 8 ≤ s.params.dmemSize →
      ∃ t w, exec .lcencs s = .next t
        ∧ t = s.succeededWith t.mem (BitVec.ofNat 32 (nblk * n)) (BitVec.ofNat 32 nblk)
        ∧ w.length = nblk * n
        ∧ (∀ blk < nblk, ∀ c < n, w.getD (blk * n + c) false
            = (List.range k).foldl (fun acc j => xor acc (b.getD (blk * k + j) false && matrixEntry s.code.G j c)) false)
        ∧ s.storedFrom t s.opDst (pack w))

/-- 43_linear_code.md R617: LCDECS's checks in order, then each n-bit word is decoded as in R607 and the messages are stored one
after the other; RES0 is the total corrected count, RES1 the number of words with an absent syndrome, SYND the last word's
syndrome (0 with no words) and UNC says whether any syndrome was absent. -/
def Obligations.LcdecsDecodesAStream : Prop :=
  ∀ s : State,
    let n := s.code.n
    let k := s.code.k
    let b := s.bitsRead s.opSrc s.opLen
    let nblk := s.opLen / n
    let word (blk : Nat) : DecodeResult :=
      decodeBlock s.code.H (syndromeTable n s.code.H) k ((b.drop (blk * n)).take n)
    let sizesOk : Prop := s.codeValid = true ∧ s.opLen % n = 0
    let uncs := (List.range nblk).countP (fun blk => (word blk).uncorrectable)
    (s.codeValid = false → exec .lcdecs s = .next (s.failedWith 4#4)) ∧
    (s.codeValid = true → s.opLen % n ≠ 0 → exec .lcdecs s = .next (s.failedWith 1#4)) ∧
    (sizesOk → s.params.dmemSize < s.opSrc + (s.opLen + 7) / 8 ∨ s.params.dmemSize < s.opDst + (nblk * k + 7) / 8 →
      exec .lcdecs s = .next (s.failedWith 6#4)) ∧
    (sizesOk → s.opSrc + (s.opLen + 7) / 8 ≤ s.params.dmemSize → s.opDst + (nblk * k + 7) / 8 ≤ s.params.dmemSize →
      ∃ t, exec .lcdecs s = .next t
        ∧ t = { s.succeededWith t.mem (BitVec.ofNat 32 ((List.range nblk).map (fun blk => (word blk).corrected)).sum)
                  (BitVec.ofNat 32 uncs) with
                synd := BitVec.ofNat 32 (if nblk = 0 then 0 else (word (nblk - 1)).syndrome), unc := decide (0 < uncs) }
        ∧ s.storedFrom t s.opDst (pack ((List.range nblk).flatMap (fun blk => (word blk).message))))

/-- 43_linear_code.md R618: LCSYN's checks in order, then RES0 and SYND take the syndrome number of the word, RES1 the first position
whose column has that number, or 0xFFFFFFFF for a zero or absent syndrome, and UNC says whether it is nonzero and absent; DMEM
does not change. -/
def Obligations.LcsynReportsTheSyndrome : Prop :=
  ∀ s : State,
    let n := s.code.n
    let r := s.bitsRead s.opSrc n
    let S := bitsNumber (s.code.H.map (fun row => (List.zipWith (fun x y => x && y) row r).foldl (fun acc x => xor acc x) false))
    let column (c : Nat) : Nat := bitsNumber (matrixColumn s.code.H c)
    let sizesOk : Prop := s.codeValid = true ∧ s.opLen = n ∧ s.opSrc + (n + 7) / 8 ≤ s.params.dmemSize
    let reports (position : Word) (unc : Bool) : Prop :=
      exec .lcsyn s = .next
        { s.succeededWith s.mem (BitVec.ofNat 32 S) position with synd := BitVec.ofNat 32 S, unc := unc }
    (s.codeValid = false → exec .lcsyn s = .next (s.failedWith 4#4)) ∧
    (s.codeValid = true → s.opLen ≠ n → exec .lcsyn s = .next (s.failedWith 1#4)) ∧
    (s.codeValid = true → s.opLen = n → s.params.dmemSize < s.opSrc + (n + 7) / 8 →
      exec .lcsyn s = .next (s.failedWith 6#4)) ∧
    (sizesOk → S = 0 → reports 0xFFFFFFFF#32 false) ∧
    (∀ pos, sizesOk → S ≠ 0 → pos < n → column pos = S → (∀ c < pos, column c ≠ S) → reports (BitVec.ofNat 32 pos) false) ∧
    (sizesOk → S ≠ 0 → (∀ c < n, column c ≠ S) → reports 0xFFFFFFFF#32 true)

/-- 43_linear_code.md R601 to R603: the columns are the first k integers from 1 on that are no power of two, ascending; P holds their
binary numerals, most significant bit in row 0; G is [I_k | P^T] and H is [P | I_p], entry by entry. -/
def Obligations.GeneratedMatricesAreSystematic : Prop :=
  ∀ n k : Nat, 1 ≤ k → k < n → k ≤ 2 ^ (n - k) - 1 - (n - k) →
    let p := n - k
    let cols := pColumns p k
    let C := generateCode n k
    (cols.length = k ∧ cols.Pairwise (fun a b => a < b) ∧ (∀ v ∈ cols, 1 ≤ v ∧ v < 2 ^ p ∧ ∀ i, v ≠ 2 ^ i)
      ∧ (∀ v u, 1 ≤ v → (∀ i, v ≠ 2 ^ i) → u ∈ cols → v < u → v ∈ cols)) ∧
    (∀ i < p, ∀ j < k, matrixEntry C.P i j = (cols.getD j 0).testBit (p - 1 - i)) ∧
    (C.G.length = k ∧ (∀ row ∈ C.G, row.length = n)
      ∧ (∀ j < k, ∀ c < k, matrixEntry C.G j c = decide (c = j))
      ∧ (∀ j < k, ∀ c, k ≤ c → c < n → matrixEntry C.G j c = matrixEntry C.P (c - k) j)) ∧
    (C.H.length = p ∧ (∀ row ∈ C.H, row.length = n)
      ∧ (∀ i < p, ∀ c < k, matrixEntry C.H i c = matrixEntry C.P i c)
      ∧ (∀ i < p, ∀ c, k ≤ c → c < n → matrixEntry C.H i c = decide (c - k = i)))

/-- 43_linear_code.md R608 (a): H·G^T = 0 for every code LCGEN builds. -/
def Obligations.ParityCheckAnnihilatesGenerator : Prop :=
  ∀ n k : Nat, 1 ≤ k → k < n → k ≤ 2 ^ (n - k) - 1 - (n - k) →
    ∀ h ∈ (generateCode n k).H, ∀ g ∈ (generateCode n k).G, gf2Dot h g = false

/-- 43_linear_code.md R608 (b), (c): with a code LCGEN builds, decoding a codeword gives the message with nothing corrected, and
decoding it with any one bit inverted gives the message, corrected count 1 and the position of that bit. -/
def Obligations.GeneratedCodeCorrectsEverySingleError : Prop :=
  ∀ n k : Nat, 1 ≤ k → k < n → k ≤ 2 ^ (n - k) - 1 - (n - k) →
    let C := generateCode n k
    ∀ M : Bits, M.length = k →
      (decodeBlock C.H (syndromeTable n C.H) k (encodeBlock n C.G M)
        = { message := M, corrected := 0, position := 0xFFFFFFFF#32, syndrome := 0, uncorrectable := false }) ∧
      ∀ q < n,
        decodeBlock C.H (syndromeTable n C.H) k (flipBit (encodeBlock n C.G M) q)
          = { message := M, corrected := 1, position := BitVec.ofNat 32 q
              syndrome := bitsNumber (matrixColumn C.H q), uncorrectable := false }

/-- 43_linear_code.md R605: a syndrome number is in the table exactly when it is nonzero and the number of a column, and then with
the first position that has it; for a code LCGEN builds the table has exactly n entries. -/
def Obligations.SyndromeTableKeepsTheFirstWriter : Prop :=
  (∀ (n : Nat) (H : BitMatrix) (S pos : Nat),
    SyndromeTable.position (syndromeTable n H) S = some pos ↔
      S ≠ 0 ∧ pos < n ∧ bitsNumber (matrixColumn H pos) = S ∧ ∀ c < pos, bitsNumber (matrixColumn H c) ≠ S) ∧
  (∀ n k : Nat, 1 ≤ k → k < n → k ≤ 2 ^ (n - k) - 1 - (n - k) → (syndromeTable n (generateCode n k).H).length = n)

/-- 43_linear_code.md R608 (d), R611, R612: LCLOADH of what LCSTOREH stored, with the same (n, k), gives the same H, so every word
decodes as before. -/
def Obligations.ReimportedParityCheckDecodesAlike : Prop :=
  ∀ (s t : State), s.Inv → s.codeValid = true → s.err = false → exec .lcstoreh s = .next t → t.err = false →
    ∃ u, exec .lcloadh { t with latch := { t.latch with src := t.latch.dst, aux := BitVec.ofNat 32 s.code.n
                                                        aux2 := BitVec.ofNat 32 s.code.k } } = .next u
      ∧ u.err = false ∧ u.codeValid = true ∧ u.gValid = false
      ∧ u.code.n = s.code.n ∧ u.code.k = s.code.k ∧ u.code.H = s.code.H
      ∧ ∀ r, u.decodeWord r = s.decodeWord r

/-! ### Invariants and whole-machine rules -/

/-- The reset state meets the invariant (10_state.md R150; the free choices of the reset state, log 1 to log 5, included). -/
def Obligations.ResetStateMeetsTheInvariant : Prop := State.reset.Inv

/-- Every step keeps the invariant: legal parameters, which never change (00_scope.md R7, 10_state.md R119); DMEM in canonical form
and inside DMEM_SIZE (20_memory.md R207); ERR = 0 exactly when ERRCODE = 0 and the flags of a running command clear (10_state.md
R112, 70_reset_and_hazards.md R914); a valid tree is one the builder makes (10_state.md R130); a valid code has its shape, a
valid G is the generated one, and SYND stays below 2^P_MAX (R118, R132). -/
def Obligations.EveryStepKeepsTheInvariant : Prop :=
  ∀ s t : State, s.Inv → step s = .next t → t.Inv ∧ t.params = s.params

/-- 70_reset_and_hazards.md R920: BUSY always falls: from every state with BUSY = 1, whatever the free delay, the engine is IDLE
again after at most delay + 1 steps. The delay is the model's free value (log 5). -/
def Obligations.BusyAlwaysFalls : Prop :=
  ∀ s : State, s.inReset = false → s.engine = .busy →
    ∃ m t, m ≤ s.delay + 1 ∧ Sys2Proof.core.run m s = .next t ∧ t.engine = .idle

/-- 70_reset_and_hazards.md R920, R915: a host program that obeys the waiting duty ends in the same state, with the same last
response, for every choice of the completion times. The two states start with different delays and different issue counters, so
every command of the program may complete at another time. The duty here also excludes STATUS writes before WAIT, because
clearing DONE before completion has no lasting effect (10_state.md R113), and R915's waiting by interrupt is not among the inputs.
The inputs, the delay and the issue counter are the model's own (log 5, log 6). -/
def Obligations.CompletionTimesAreUnobservableToWaitingHosts : Prop :=
  ∀ (s : State) (delay1 delay2 issues1 issues2 : Nat), (s.inReset = true → s.engine = .idle) →
    obeysWaitingDuty s.params (decide (s.engine = .busy)) s.pending = true →
    ∃ m1 m2 t1 t2,
      Sys2Proof.core.run m1 { s with delay := delay1, issues := issues1 } = .next t1 ∧ t1.pending = [] ∧ t1.engine = .idle ∧
      Sys2Proof.core.run m2 { s with delay := delay2, issues := issues2 } = .next t2 ∧ t2.pending = [] ∧ t2.engine = .idle ∧
      { t1 with delay := 0, issues := 0 } = ({ t2 with delay := 0, issues := 0 } : State)

/-- 10_state.md R130, R132, R134 (93 U3 to U5): no step reads the tree while tree_valid = 0, the linear code while code_valid and
g_valid are 0, G and P while g_valid = 0, or the latch while the engine is IDLE: changing them changes nothing else in the next
state, and nothing at all once they are valid. -/
def Obligations.UnspecifiedTablesAreNeverRead : Prop :=
  ∀ s t : State, step s = .next t →
    (∀ tree, s.treeValid = false →
      ∃ t', step { s with tree := tree } = .next t' ∧ t' = { t with tree := t'.tree } ∧ (t.treeValid = true → t' = t)) ∧
    (∀ code, s.codeValid = false → s.gValid = false →
      ∃ t', step { s with code := code } = .next t' ∧ t' = { t with code := t'.code } ∧ (t.codeValid = true → t' = t)) ∧
    (∀ P G, s.gValid = false →
      ∃ t', step { s with code := { s.code with P := P, G := G } } = .next t'
        ∧ t' = { t with code := { t.code with P := t'.code.P, G := t'.code.G } } ∧ (t.gValid = true → t' = t)) ∧
    (∀ latch, s.engine = .idle →
      ∃ t', step { s with latch := latch } = .next t' ∧ t' = { t with latch := t'.latch } ∧ (t.engine = .busy → t' = t))
end

