-- ==== Sys2Proof/Laws/State.lean ====
section
/-! SUPPORT. What each update of State does to each field: one lemma per field per update, true by unfolding. -/

namespace Sys2Proof.Machine

/-! ### commit -/

@[simp] theorem State.commit_params (s : State) (e : Effects) : (s.commit e).params = s.params := rfl
@[simp] theorem State.commit_ie (s : State) (e : Effects) : (s.commit e).ie = s.ie := rfl
@[simp] theorem State.commit_engine (s : State) (e : Effects) : (s.commit e).engine = s.engine := rfl
@[simp] theorem State.commit_done (s : State) (e : Effects) : (s.commit e).done = s.done := rfl
@[simp] theorem State.commit_err (s : State) (e : Effects) : (s.commit e).err = s.err := rfl
@[simp] theorem State.commit_cmdOvr (s : State) (e : Effects) : (s.commit e).cmdOvr = s.cmdOvr := rfl
@[simp] theorem State.commit_errCode (s : State) (e : Effects) : (s.commit e).errCode = s.errCode := rfl
@[simp] theorem State.commit_treeValid (s : State) (e : Effects) : (s.commit e).treeValid = (s.treeValid || e.tree.isSome) := rfl
@[simp] theorem State.commit_codeValid (s : State) (e : Effects) : (s.commit e).codeValid = (s.codeValid || e.code.isSome) := rfl
@[simp] theorem State.commit_gValid (s : State) (e : Effects) : (s.commit e).gValid = (e.code.map (fun c => c.2)).getD s.gValid := rfl
@[simp] theorem State.commit_unc (s : State) (e : Effects) : (s.commit e).unc = (e.syndrome.map (fun c => c.2)).getD s.unc := rfl
@[simp] theorem State.commit_arg0 (s : State) (e : Effects) : (s.commit e).arg0 = s.arg0 := rfl
@[simp] theorem State.commit_arg1 (s : State) (e : Effects) : (s.commit e).arg1 = s.arg1 := rfl
@[simp] theorem State.commit_arg2 (s : State) (e : Effects) : (s.commit e).arg2 = s.arg2 := rfl
@[simp] theorem State.commit_arg3 (s : State) (e : Effects) : (s.commit e).arg3 = s.arg3 := rfl
@[simp] theorem State.commit_arg4 (s : State) (e : Effects) : (s.commit e).arg4 = s.arg4 := rfl
@[simp] theorem State.commit_res0 (s : State) (e : Effects) : (s.commit e).res0 = e.res0 := rfl
@[simp] theorem State.commit_res1 (s : State) (e : Effects) : (s.commit e).res1 = e.res1 := rfl
@[simp] theorem State.commit_synd (s : State) (e : Effects) : (s.commit e).synd = (e.syndrome.map (fun c => c.1)).getD s.synd := rfl
@[simp] theorem State.commit_tree (s : State) (e : Effects) : (s.commit e).tree = e.tree.getD s.tree := rfl
@[simp] theorem State.commit_code (s : State) (e : Effects) : (s.commit e).code = (e.code.map (fun c => c.1)).getD s.code := rfl
@[simp] theorem State.commit_latch (s : State) (e : Effects) : (s.commit e).latch = s.latch := rfl
@[simp] theorem State.commit_inReset (s : State) (e : Effects) : (s.commit e).inReset = s.inReset := rfl
@[simp] theorem State.commit_mem (s : State) (e : Effects) : (s.commit e).mem = Memory.writeAll s.mem e.writes := rfl
@[simp] theorem State.commit_pending (s : State) (e : Effects) : (s.commit e).pending = s.pending := rfl
@[simp] theorem State.commit_response (s : State) (e : Effects) : (s.commit e).response = s.response := rfl
@[simp] theorem State.commit_delay (s : State) (e : Effects) : (s.commit e).delay = s.delay := rfl
@[simp] theorem State.commit_issues (s : State) (e : Effects) : (s.commit e).issues = s.issues := rfl
@[simp] theorem State.commit_memEpoch (s : State) (e : Effects) : (s.commit e).memEpoch = s.memEpoch := rfl
@[simp] theorem State.commit_codeChanges (s : State) (e : Effects) : (s.commit e).codeChanges = s.codeChanges + e.code.toList.length := rfl

/-! ### finish -/

@[simp] theorem State.finish_params (s : State) : (s.finish).params = s.params := rfl
@[simp] theorem State.finish_ie (s : State) : (s.finish).ie = s.ie := rfl
@[simp] theorem State.finish_engine (s : State) : (s.finish).engine = .idle := rfl
@[simp] theorem State.finish_done (s : State) : (s.finish).done = true := rfl
@[simp] theorem State.finish_err (s : State) : (s.finish).err = s.err := rfl
@[simp] theorem State.finish_cmdOvr (s : State) : (s.finish).cmdOvr = s.cmdOvr := rfl
@[simp] theorem State.finish_errCode (s : State) : (s.finish).errCode = s.errCode := rfl
@[simp] theorem State.finish_treeValid (s : State) : (s.finish).treeValid = s.treeValid := rfl
@[simp] theorem State.finish_codeValid (s : State) : (s.finish).codeValid = s.codeValid := rfl
@[simp] theorem State.finish_gValid (s : State) : (s.finish).gValid = s.gValid := rfl
@[simp] theorem State.finish_unc (s : State) : (s.finish).unc = s.unc := rfl
@[simp] theorem State.finish_arg0 (s : State) : (s.finish).arg0 = s.arg0 := rfl
@[simp] theorem State.finish_arg1 (s : State) : (s.finish).arg1 = s.arg1 := rfl
@[simp] theorem State.finish_arg2 (s : State) : (s.finish).arg2 = s.arg2 := rfl
@[simp] theorem State.finish_arg3 (s : State) : (s.finish).arg3 = s.arg3 := rfl
@[simp] theorem State.finish_arg4 (s : State) : (s.finish).arg4 = s.arg4 := rfl
@[simp] theorem State.finish_res0 (s : State) : (s.finish).res0 = s.res0 := rfl
@[simp] theorem State.finish_res1 (s : State) : (s.finish).res1 = s.res1 := rfl
@[simp] theorem State.finish_synd (s : State) : (s.finish).synd = s.synd := rfl
@[simp] theorem State.finish_tree (s : State) : (s.finish).tree = s.tree := rfl
@[simp] theorem State.finish_code (s : State) : (s.finish).code = s.code := rfl
@[simp] theorem State.finish_latch (s : State) : (s.finish).latch = s.latch := rfl
@[simp] theorem State.finish_inReset (s : State) : (s.finish).inReset = s.inReset := rfl
@[simp] theorem State.finish_mem (s : State) : (s.finish).mem = s.mem := rfl
@[simp] theorem State.finish_pending (s : State) : (s.finish).pending = s.pending := rfl
@[simp] theorem State.finish_response (s : State) : (s.finish).response = s.response := rfl
@[simp] theorem State.finish_delay (s : State) : (s.finish).delay = s.delay := rfl
@[simp] theorem State.finish_issues (s : State) : (s.finish).issues = s.issues := rfl
@[simp] theorem State.finish_memEpoch (s : State) : (s.finish).memEpoch = s.memEpoch := rfl
@[simp] theorem State.finish_codeChanges (s : State) : (s.finish).codeChanges = s.codeChanges := rfl

/-! ### takeError -/

@[simp] theorem State.takeError_params (s : State) (c : ErrorCode) : (s.takeError c).params = s.params := rfl
@[simp] theorem State.takeError_ie (s : State) (c : ErrorCode) : (s.takeError c).ie = s.ie := rfl
@[simp] theorem State.takeError_engine (s : State) (c : ErrorCode) : (s.takeError c).engine = .idle := rfl
@[simp] theorem State.takeError_done (s : State) (c : ErrorCode) : (s.takeError c).done = true := rfl
@[simp] theorem State.takeError_err (s : State) (c : ErrorCode) : (s.takeError c).err = true := rfl
@[simp] theorem State.takeError_cmdOvr (s : State) (c : ErrorCode) : (s.takeError c).cmdOvr = s.cmdOvr := rfl
@[simp] theorem State.takeError_errCode (s : State) (c : ErrorCode) : (s.takeError c).errCode = c.number := rfl
@[simp] theorem State.takeError_treeValid (s : State) (c : ErrorCode) : (s.takeError c).treeValid = s.treeValid := rfl
@[simp] theorem State.takeError_codeValid (s : State) (c : ErrorCode) : (s.takeError c).codeValid = s.codeValid := rfl
@[simp] theorem State.takeError_gValid (s : State) (c : ErrorCode) : (s.takeError c).gValid = s.gValid := rfl
@[simp] theorem State.takeError_unc (s : State) (c : ErrorCode) : (s.takeError c).unc = s.unc := rfl
@[simp] theorem State.takeError_arg0 (s : State) (c : ErrorCode) : (s.takeError c).arg0 = s.arg0 := rfl
@[simp] theorem State.takeError_arg1 (s : State) (c : ErrorCode) : (s.takeError c).arg1 = s.arg1 := rfl
@[simp] theorem State.takeError_arg2 (s : State) (c : ErrorCode) : (s.takeError c).arg2 = s.arg2 := rfl
@[simp] theorem State.takeError_arg3 (s : State) (c : ErrorCode) : (s.takeError c).arg3 = s.arg3 := rfl
@[simp] theorem State.takeError_arg4 (s : State) (c : ErrorCode) : (s.takeError c).arg4 = s.arg4 := rfl
@[simp] theorem State.takeError_res0 (s : State) (c : ErrorCode) : (s.takeError c).res0 = 0#32 := rfl
@[simp] theorem State.takeError_res1 (s : State) (c : ErrorCode) : (s.takeError c).res1 = 0#32 := rfl
@[simp] theorem State.takeError_synd (s : State) (c : ErrorCode) : (s.takeError c).synd = s.synd := rfl
@[simp] theorem State.takeError_tree (s : State) (c : ErrorCode) : (s.takeError c).tree = s.tree := rfl
@[simp] theorem State.takeError_code (s : State) (c : ErrorCode) : (s.takeError c).code = s.code := rfl
@[simp] theorem State.takeError_latch (s : State) (c : ErrorCode) : (s.takeError c).latch = s.latch := rfl
@[simp] theorem State.takeError_inReset (s : State) (c : ErrorCode) : (s.takeError c).inReset = s.inReset := rfl
@[simp] theorem State.takeError_mem (s : State) (c : ErrorCode) : (s.takeError c).mem = s.mem := rfl
@[simp] theorem State.takeError_pending (s : State) (c : ErrorCode) : (s.takeError c).pending = s.pending := rfl
@[simp] theorem State.takeError_response (s : State) (c : ErrorCode) : (s.takeError c).response = s.response := rfl
@[simp] theorem State.takeError_delay (s : State) (c : ErrorCode) : (s.takeError c).delay = s.delay := rfl
@[simp] theorem State.takeError_issues (s : State) (c : ErrorCode) : (s.takeError c).issues = s.issues := rfl
@[simp] theorem State.takeError_memEpoch (s : State) (c : ErrorCode) : (s.takeError c).memEpoch = s.memEpoch := rfl
@[simp] theorem State.takeError_codeChanges (s : State) (c : ErrorCode) : (s.takeError c).codeChanges = s.codeChanges := rfl

/-! ### writeStatus -/

@[simp] theorem State.writeStatus_params (s : State) (v : Word) : (s.writeStatus v).params = s.params := rfl
@[simp] theorem State.writeStatus_ie (s : State) (v : Word) : (s.writeStatus v).ie = s.ie := rfl
@[simp] theorem State.writeStatus_engine (s : State) (v : Word) : (s.writeStatus v).engine = s.engine := rfl
@[simp] theorem State.writeStatus_done (s : State) (v : Word) : (s.writeStatus v).done = (s.done && !v.getLsbD 1) := rfl
@[simp] theorem State.writeStatus_err (s : State) (v : Word) : (s.writeStatus v).err = (s.err && !v.getLsbD 2) := rfl
@[simp] theorem State.writeStatus_cmdOvr (s : State) (v : Word) : (s.writeStatus v).cmdOvr = (s.cmdOvr && !v.getLsbD 3) := rfl
@[simp] theorem State.writeStatus_errCode (s : State) (v : Word) : (s.writeStatus v).errCode = (if v.getLsbD 2 then 0#4 else s.errCode) := rfl
@[simp] theorem State.writeStatus_treeValid (s : State) (v : Word) : (s.writeStatus v).treeValid = s.treeValid := rfl
@[simp] theorem State.writeStatus_codeValid (s : State) (v : Word) : (s.writeStatus v).codeValid = s.codeValid := rfl
@[simp] theorem State.writeStatus_gValid (s : State) (v : Word) : (s.writeStatus v).gValid = s.gValid := rfl
@[simp] theorem State.writeStatus_unc (s : State) (v : Word) : (s.writeStatus v).unc = s.unc := rfl
@[simp] theorem State.writeStatus_arg0 (s : State) (v : Word) : (s.writeStatus v).arg0 = s.arg0 := rfl
@[simp] theorem State.writeStatus_arg1 (s : State) (v : Word) : (s.writeStatus v).arg1 = s.arg1 := rfl
@[simp] theorem State.writeStatus_arg2 (s : State) (v : Word) : (s.writeStatus v).arg2 = s.arg2 := rfl
@[simp] theorem State.writeStatus_arg3 (s : State) (v : Word) : (s.writeStatus v).arg3 = s.arg3 := rfl
@[simp] theorem State.writeStatus_arg4 (s : State) (v : Word) : (s.writeStatus v).arg4 = s.arg4 := rfl
@[simp] theorem State.writeStatus_res0 (s : State) (v : Word) : (s.writeStatus v).res0 = s.res0 := rfl
@[simp] theorem State.writeStatus_res1 (s : State) (v : Word) : (s.writeStatus v).res1 = s.res1 := rfl
@[simp] theorem State.writeStatus_synd (s : State) (v : Word) : (s.writeStatus v).synd = s.synd := rfl
@[simp] theorem State.writeStatus_tree (s : State) (v : Word) : (s.writeStatus v).tree = s.tree := rfl
@[simp] theorem State.writeStatus_code (s : State) (v : Word) : (s.writeStatus v).code = s.code := rfl
@[simp] theorem State.writeStatus_latch (s : State) (v : Word) : (s.writeStatus v).latch = s.latch := rfl
@[simp] theorem State.writeStatus_inReset (s : State) (v : Word) : (s.writeStatus v).inReset = s.inReset := rfl
@[simp] theorem State.writeStatus_mem (s : State) (v : Word) : (s.writeStatus v).mem = s.mem := rfl
@[simp] theorem State.writeStatus_pending (s : State) (v : Word) : (s.writeStatus v).pending = s.pending := rfl
@[simp] theorem State.writeStatus_response (s : State) (v : Word) : (s.writeStatus v).response = s.response := rfl
@[simp] theorem State.writeStatus_delay (s : State) (v : Word) : (s.writeStatus v).delay = s.delay := rfl
@[simp] theorem State.writeStatus_issues (s : State) (v : Word) : (s.writeStatus v).issues = s.issues := rfl
@[simp] theorem State.writeStatus_memEpoch (s : State) (v : Word) : (s.writeStatus v).memEpoch = s.memEpoch := rfl
@[simp] theorem State.writeStatus_codeChanges (s : State) (v : Word) : (s.writeStatus v).codeChanges = s.codeChanges := rfl

/-! ### issue -/

@[simp] theorem State.issue_params (s : State) (w : Word) : (s.issue w).params = s.params := rfl
@[simp] theorem State.issue_ie (s : State) (w : Word) : (s.issue w).ie = s.ie := rfl
@[simp] theorem State.issue_engine (s : State) (w : Word) : (s.issue w).engine = .busy := rfl
@[simp] theorem State.issue_done (s : State) (w : Word) : (s.issue w).done = false := rfl
@[simp] theorem State.issue_err (s : State) (w : Word) : (s.issue w).err = false := rfl
@[simp] theorem State.issue_cmdOvr (s : State) (w : Word) : (s.issue w).cmdOvr = s.cmdOvr := rfl
@[simp] theorem State.issue_errCode (s : State) (w : Word) : (s.issue w).errCode = 0#4 := rfl
@[simp] theorem State.issue_treeValid (s : State) (w : Word) : (s.issue w).treeValid = s.treeValid := rfl
@[simp] theorem State.issue_codeValid (s : State) (w : Word) : (s.issue w).codeValid = s.codeValid := rfl
@[simp] theorem State.issue_gValid (s : State) (w : Word) : (s.issue w).gValid = s.gValid := rfl
@[simp] theorem State.issue_unc (s : State) (w : Word) : (s.issue w).unc = false := rfl
@[simp] theorem State.issue_arg0 (s : State) (w : Word) : (s.issue w).arg0 = s.arg0 := rfl
@[simp] theorem State.issue_arg1 (s : State) (w : Word) : (s.issue w).arg1 = s.arg1 := rfl
@[simp] theorem State.issue_arg2 (s : State) (w : Word) : (s.issue w).arg2 = s.arg2 := rfl
@[simp] theorem State.issue_arg3 (s : State) (w : Word) : (s.issue w).arg3 = s.arg3 := rfl
@[simp] theorem State.issue_arg4 (s : State) (w : Word) : (s.issue w).arg4 = s.arg4 := rfl
@[simp] theorem State.issue_res0 (s : State) (w : Word) : (s.issue w).res0 = s.res0 := rfl
@[simp] theorem State.issue_res1 (s : State) (w : Word) : (s.issue w).res1 = s.res1 := rfl
@[simp] theorem State.issue_synd (s : State) (w : Word) : (s.issue w).synd = s.synd := rfl
@[simp] theorem State.issue_tree (s : State) (w : Word) : (s.issue w).tree = s.tree := rfl
@[simp] theorem State.issue_code (s : State) (w : Word) : (s.issue w).code = s.code := rfl
@[simp] theorem State.issue_latch (s : State) (w : Word) : (s.issue w).latch = s.loadLatch w := rfl
@[simp] theorem State.issue_inReset (s : State) (w : Word) : (s.issue w).inReset = s.inReset := rfl
@[simp] theorem State.issue_mem (s : State) (w : Word) : (s.issue w).mem = s.mem := rfl
@[simp] theorem State.issue_pending (s : State) (w : Word) : (s.issue w).pending = s.pending := rfl
@[simp] theorem State.issue_response (s : State) (w : Word) : (s.issue w).response = s.response := rfl
@[simp] theorem State.issue_delay (s : State) (w : Word) : (s.issue w).delay = Config.completionDelay s.issues := rfl
@[simp] theorem State.issue_issues (s : State) (w : Word) : (s.issue w).issues = s.issues + 1 := rfl
@[simp] theorem State.issue_memEpoch (s : State) (w : Word) : (s.issue w).memEpoch = s.memEpoch := rfl
@[simp] theorem State.issue_codeChanges (s : State) (w : Word) : (s.issue w).codeChanges = s.codeChanges := rfl

/-! ### softReset -/

@[simp] theorem State.softReset_params (s : State) : (s.softReset).params = s.params := rfl
@[simp] theorem State.softReset_ie (s : State) : (s.softReset).ie = false := rfl
@[simp] theorem State.softReset_engine (s : State) : (s.softReset).engine = .idle := rfl
@[simp] theorem State.softReset_done (s : State) : (s.softReset).done = false := rfl
@[simp] theorem State.softReset_err (s : State) : (s.softReset).err = false := rfl
@[simp] theorem State.softReset_cmdOvr (s : State) : (s.softReset).cmdOvr = false := rfl
@[simp] theorem State.softReset_errCode (s : State) : (s.softReset).errCode = 0#4 := rfl
@[simp] theorem State.softReset_treeValid (s : State) : (s.softReset).treeValid = false := rfl
@[simp] theorem State.softReset_codeValid (s : State) : (s.softReset).codeValid = false := rfl
@[simp] theorem State.softReset_gValid (s : State) : (s.softReset).gValid = false := rfl
@[simp] theorem State.softReset_unc (s : State) : (s.softReset).unc = false := rfl
@[simp] theorem State.softReset_arg0 (s : State) : (s.softReset).arg0 = 0#32 := rfl
@[simp] theorem State.softReset_arg1 (s : State) : (s.softReset).arg1 = 0#32 := rfl
@[simp] theorem State.softReset_arg2 (s : State) : (s.softReset).arg2 = 0#32 := rfl
@[simp] theorem State.softReset_arg3 (s : State) : (s.softReset).arg3 = 0#32 := rfl
@[simp] theorem State.softReset_arg4 (s : State) : (s.softReset).arg4 = 0#32 := rfl
@[simp] theorem State.softReset_res0 (s : State) : (s.softReset).res0 = 0#32 := rfl
@[simp] theorem State.softReset_res1 (s : State) : (s.softReset).res1 = 0#32 := rfl
@[simp] theorem State.softReset_synd (s : State) : (s.softReset).synd = 0#32 := rfl
@[simp] theorem State.softReset_tree (s : State) : (s.softReset).tree = .empty := rfl
@[simp] theorem State.softReset_code (s : State) : (s.softReset).code = LinearCode.unset := rfl
@[simp] theorem State.softReset_latch (s : State) : (s.softReset).latch = Latch.unloaded := rfl
@[simp] theorem State.softReset_inReset (s : State) : (s.softReset).inReset = s.inReset := rfl
@[simp] theorem State.softReset_mem (s : State) : (s.softReset).mem = s.mem := rfl
@[simp] theorem State.softReset_pending (s : State) : (s.softReset).pending = s.pending := rfl
@[simp] theorem State.softReset_response (s : State) : (s.softReset).response = s.response := rfl
@[simp] theorem State.softReset_delay (s : State) : (s.softReset).delay = 0 := rfl
@[simp] theorem State.softReset_issues (s : State) : (s.softReset).issues = s.issues := rfl
@[simp] theorem State.softReset_memEpoch (s : State) : (s.softReset).memEpoch = s.memEpoch := rfl
@[simp] theorem State.softReset_codeChanges (s : State) : (s.softReset).codeChanges = s.codeChanges := rfl

/-! ### hardReset -/

@[simp] theorem State.hardReset_params (s : State) (b : Bool) : (s.hardReset b).params = s.params := rfl
@[simp] theorem State.hardReset_ie (s : State) (b : Bool) : (s.hardReset b).ie = false := rfl
@[simp] theorem State.hardReset_engine (s : State) (b : Bool) : (s.hardReset b).engine = .idle := rfl
@[simp] theorem State.hardReset_done (s : State) (b : Bool) : (s.hardReset b).done = false := rfl
@[simp] theorem State.hardReset_err (s : State) (b : Bool) : (s.hardReset b).err = false := rfl
@[simp] theorem State.hardReset_cmdOvr (s : State) (b : Bool) : (s.hardReset b).cmdOvr = false := rfl
@[simp] theorem State.hardReset_errCode (s : State) (b : Bool) : (s.hardReset b).errCode = 0#4 := rfl
@[simp] theorem State.hardReset_treeValid (s : State) (b : Bool) : (s.hardReset b).treeValid = false := rfl
@[simp] theorem State.hardReset_codeValid (s : State) (b : Bool) : (s.hardReset b).codeValid = false := rfl
@[simp] theorem State.hardReset_gValid (s : State) (b : Bool) : (s.hardReset b).gValid = false := rfl
@[simp] theorem State.hardReset_unc (s : State) (b : Bool) : (s.hardReset b).unc = false := rfl
@[simp] theorem State.hardReset_arg0 (s : State) (b : Bool) : (s.hardReset b).arg0 = 0#32 := rfl
@[simp] theorem State.hardReset_arg1 (s : State) (b : Bool) : (s.hardReset b).arg1 = 0#32 := rfl
@[simp] theorem State.hardReset_arg2 (s : State) (b : Bool) : (s.hardReset b).arg2 = 0#32 := rfl
@[simp] theorem State.hardReset_arg3 (s : State) (b : Bool) : (s.hardReset b).arg3 = 0#32 := rfl
@[simp] theorem State.hardReset_arg4 (s : State) (b : Bool) : (s.hardReset b).arg4 = 0#32 := rfl
@[simp] theorem State.hardReset_res0 (s : State) (b : Bool) : (s.hardReset b).res0 = 0#32 := rfl
@[simp] theorem State.hardReset_res1 (s : State) (b : Bool) : (s.hardReset b).res1 = 0#32 := rfl
@[simp] theorem State.hardReset_synd (s : State) (b : Bool) : (s.hardReset b).synd = 0#32 := rfl
@[simp] theorem State.hardReset_tree (s : State) (b : Bool) : (s.hardReset b).tree = .empty := rfl
@[simp] theorem State.hardReset_code (s : State) (b : Bool) : (s.hardReset b).code = LinearCode.unset := rfl
@[simp] theorem State.hardReset_latch (s : State) (b : Bool) : (s.hardReset b).latch = Latch.unloaded := rfl
@[simp] theorem State.hardReset_inReset (s : State) (b : Bool) : (s.hardReset b).inReset = b := rfl
@[simp] theorem State.hardReset_mem (s : State) (b : Bool) : (s.hardReset b).mem = [] := rfl
@[simp] theorem State.hardReset_pending (s : State) (b : Bool) : (s.hardReset b).pending = s.pending := rfl
@[simp] theorem State.hardReset_response (s : State) (b : Bool) : (s.hardReset b).response = s.response := rfl
@[simp] theorem State.hardReset_delay (s : State) (b : Bool) : (s.hardReset b).delay = 0 := rfl
@[simp] theorem State.hardReset_issues (s : State) (b : Bool) : (s.hardReset b).issues = s.issues := rfl
@[simp] theorem State.hardReset_memEpoch (s : State) (b : Bool) : (s.hardReset b).memEpoch = s.memEpoch + 1 := rfl
@[simp] theorem State.hardReset_codeChanges (s : State) (b : Bool) : (s.hardReset b).codeChanges = 0 := rfl

/-! ### respond -/

@[simp] theorem State.respond_params (s : State) (r : BusResponse) : (s.respond r).params = s.params := rfl
@[simp] theorem State.respond_ie (s : State) (r : BusResponse) : (s.respond r).ie = s.ie := rfl
@[simp] theorem State.respond_engine (s : State) (r : BusResponse) : (s.respond r).engine = s.engine := rfl
@[simp] theorem State.respond_done (s : State) (r : BusResponse) : (s.respond r).done = s.done := rfl
@[simp] theorem State.respond_err (s : State) (r : BusResponse) : (s.respond r).err = s.err := rfl
@[simp] theorem State.respond_cmdOvr (s : State) (r : BusResponse) : (s.respond r).cmdOvr = s.cmdOvr := rfl
@[simp] theorem State.respond_errCode (s : State) (r : BusResponse) : (s.respond r).errCode = s.errCode := rfl
@[simp] theorem State.respond_treeValid (s : State) (r : BusResponse) : (s.respond r).treeValid = s.treeValid := rfl
@[simp] theorem State.respond_codeValid (s : State) (r : BusResponse) : (s.respond r).codeValid = s.codeValid := rfl
@[simp] theorem State.respond_gValid (s : State) (r : BusResponse) : (s.respond r).gValid = s.gValid := rfl
@[simp] theorem State.respond_unc (s : State) (r : BusResponse) : (s.respond r).unc = s.unc := rfl
@[simp] theorem State.respond_arg0 (s : State) (r : BusResponse) : (s.respond r).arg0 = s.arg0 := rfl
@[simp] theorem State.respond_arg1 (s : State) (r : BusResponse) : (s.respond r).arg1 = s.arg1 := rfl
@[simp] theorem State.respond_arg2 (s : State) (r : BusResponse) : (s.respond r).arg2 = s.arg2 := rfl
@[simp] theorem State.respond_arg3 (s : State) (r : BusResponse) : (s.respond r).arg3 = s.arg3 := rfl
@[simp] theorem State.respond_arg4 (s : State) (r : BusResponse) : (s.respond r).arg4 = s.arg4 := rfl
@[simp] theorem State.respond_res0 (s : State) (r : BusResponse) : (s.respond r).res0 = s.res0 := rfl
@[simp] theorem State.respond_res1 (s : State) (r : BusResponse) : (s.respond r).res1 = s.res1 := rfl
@[simp] theorem State.respond_synd (s : State) (r : BusResponse) : (s.respond r).synd = s.synd := rfl
@[simp] theorem State.respond_tree (s : State) (r : BusResponse) : (s.respond r).tree = s.tree := rfl
@[simp] theorem State.respond_code (s : State) (r : BusResponse) : (s.respond r).code = s.code := rfl
@[simp] theorem State.respond_latch (s : State) (r : BusResponse) : (s.respond r).latch = s.latch := rfl
@[simp] theorem State.respond_inReset (s : State) (r : BusResponse) : (s.respond r).inReset = s.inReset := rfl
@[simp] theorem State.respond_mem (s : State) (r : BusResponse) : (s.respond r).mem = s.mem := rfl
@[simp] theorem State.respond_pending (s : State) (r : BusResponse) : (s.respond r).pending = s.pending := rfl
@[simp] theorem State.respond_response (s : State) (r : BusResponse) : (s.respond r).response = some r := rfl
@[simp] theorem State.respond_delay (s : State) (r : BusResponse) : (s.respond r).delay = s.delay := rfl
@[simp] theorem State.respond_issues (s : State) (r : BusResponse) : (s.respond r).issues = s.issues := rfl
@[simp] theorem State.respond_memEpoch (s : State) (r : BusResponse) : (s.respond r).memEpoch = s.memEpoch := rfl
@[simp] theorem State.respond_codeChanges (s : State) (r : BusResponse) : (s.respond r).codeChanges = s.codeChanges := rfl

/-! ### takeInput -/

@[simp] theorem State.takeInput_params (s : State) (rest : List Input) : (s.takeInput rest).params = s.params := rfl
@[simp] theorem State.takeInput_ie (s : State) (rest : List Input) : (s.takeInput rest).ie = s.ie := rfl
@[simp] theorem State.takeInput_engine (s : State) (rest : List Input) : (s.takeInput rest).engine = s.engine := rfl
@[simp] theorem State.takeInput_done (s : State) (rest : List Input) : (s.takeInput rest).done = s.done := rfl
@[simp] theorem State.takeInput_err (s : State) (rest : List Input) : (s.takeInput rest).err = s.err := rfl
@[simp] theorem State.takeInput_cmdOvr (s : State) (rest : List Input) : (s.takeInput rest).cmdOvr = s.cmdOvr := rfl
@[simp] theorem State.takeInput_errCode (s : State) (rest : List Input) : (s.takeInput rest).errCode = s.errCode := rfl
@[simp] theorem State.takeInput_treeValid (s : State) (rest : List Input) : (s.takeInput rest).treeValid = s.treeValid := rfl
@[simp] theorem State.takeInput_codeValid (s : State) (rest : List Input) : (s.takeInput rest).codeValid = s.codeValid := rfl
@[simp] theorem State.takeInput_gValid (s : State) (rest : List Input) : (s.takeInput rest).gValid = s.gValid := rfl
@[simp] theorem State.takeInput_unc (s : State) (rest : List Input) : (s.takeInput rest).unc = s.unc := rfl
@[simp] theorem State.takeInput_arg0 (s : State) (rest : List Input) : (s.takeInput rest).arg0 = s.arg0 := rfl
@[simp] theorem State.takeInput_arg1 (s : State) (rest : List Input) : (s.takeInput rest).arg1 = s.arg1 := rfl
@[simp] theorem State.takeInput_arg2 (s : State) (rest : List Input) : (s.takeInput rest).arg2 = s.arg2 := rfl
@[simp] theorem State.takeInput_arg3 (s : State) (rest : List Input) : (s.takeInput rest).arg3 = s.arg3 := rfl
@[simp] theorem State.takeInput_arg4 (s : State) (rest : List Input) : (s.takeInput rest).arg4 = s.arg4 := rfl
@[simp] theorem State.takeInput_res0 (s : State) (rest : List Input) : (s.takeInput rest).res0 = s.res0 := rfl
@[simp] theorem State.takeInput_res1 (s : State) (rest : List Input) : (s.takeInput rest).res1 = s.res1 := rfl
@[simp] theorem State.takeInput_synd (s : State) (rest : List Input) : (s.takeInput rest).synd = s.synd := rfl
@[simp] theorem State.takeInput_tree (s : State) (rest : List Input) : (s.takeInput rest).tree = s.tree := rfl
@[simp] theorem State.takeInput_code (s : State) (rest : List Input) : (s.takeInput rest).code = s.code := rfl
@[simp] theorem State.takeInput_latch (s : State) (rest : List Input) : (s.takeInput rest).latch = s.latch := rfl
@[simp] theorem State.takeInput_inReset (s : State) (rest : List Input) : (s.takeInput rest).inReset = s.inReset := rfl
@[simp] theorem State.takeInput_mem (s : State) (rest : List Input) : (s.takeInput rest).mem = s.mem := rfl
@[simp] theorem State.takeInput_pending (s : State) (rest : List Input) : (s.takeInput rest).pending = rest := rfl
@[simp] theorem State.takeInput_response (s : State) (rest : List Input) : (s.takeInput rest).response = s.response := rfl
@[simp] theorem State.takeInput_delay (s : State) (rest : List Input) : (s.takeInput rest).delay = s.delay - 1 := rfl
@[simp] theorem State.takeInput_issues (s : State) (rest : List Input) : (s.takeInput rest).issues = s.issues := rfl
@[simp] theorem State.takeInput_memEpoch (s : State) (rest : List Input) : (s.takeInput rest).memEpoch = s.memEpoch := rfl
@[simp] theorem State.takeInput_codeChanges (s : State) (rest : List Input) : (s.takeInput rest).codeChanges = s.codeChanges := rfl

/-! ### resetWith -/

@[simp] theorem State.resetWith_params (p : Params) : (State.resetWith p).params = p := rfl
@[simp] theorem State.resetWith_ie (p : Params) : (State.resetWith p).ie = false := rfl
@[simp] theorem State.resetWith_engine (p : Params) : (State.resetWith p).engine = .idle := rfl
@[simp] theorem State.resetWith_done (p : Params) : (State.resetWith p).done = false := rfl
@[simp] theorem State.resetWith_err (p : Params) : (State.resetWith p).err = false := rfl
@[simp] theorem State.resetWith_cmdOvr (p : Params) : (State.resetWith p).cmdOvr = false := rfl
@[simp] theorem State.resetWith_errCode (p : Params) : (State.resetWith p).errCode = 0#4 := rfl
@[simp] theorem State.resetWith_treeValid (p : Params) : (State.resetWith p).treeValid = false := rfl
@[simp] theorem State.resetWith_codeValid (p : Params) : (State.resetWith p).codeValid = false := rfl
@[simp] theorem State.resetWith_gValid (p : Params) : (State.resetWith p).gValid = false := rfl
@[simp] theorem State.resetWith_unc (p : Params) : (State.resetWith p).unc = false := rfl
@[simp] theorem State.resetWith_arg0 (p : Params) : (State.resetWith p).arg0 = 0#32 := rfl
@[simp] theorem State.resetWith_arg1 (p : Params) : (State.resetWith p).arg1 = 0#32 := rfl
@[simp] theorem State.resetWith_arg2 (p : Params) : (State.resetWith p).arg2 = 0#32 := rfl
@[simp] theorem State.resetWith_arg3 (p : Params) : (State.resetWith p).arg3 = 0#32 := rfl
@[simp] theorem State.resetWith_arg4 (p : Params) : (State.resetWith p).arg4 = 0#32 := rfl
@[simp] theorem State.resetWith_res0 (p : Params) : (State.resetWith p).res0 = 0#32 := rfl
@[simp] theorem State.resetWith_res1 (p : Params) : (State.resetWith p).res1 = 0#32 := rfl
@[simp] theorem State.resetWith_synd (p : Params) : (State.resetWith p).synd = 0#32 := rfl
@[simp] theorem State.resetWith_tree (p : Params) : (State.resetWith p).tree = .empty := rfl
@[simp] theorem State.resetWith_code (p : Params) : (State.resetWith p).code = LinearCode.unset := rfl
@[simp] theorem State.resetWith_latch (p : Params) : (State.resetWith p).latch = Latch.unloaded := rfl
@[simp] theorem State.resetWith_inReset (p : Params) : (State.resetWith p).inReset = false := rfl
@[simp] theorem State.resetWith_mem (p : Params) : (State.resetWith p).mem = [] := rfl
@[simp] theorem State.resetWith_pending (p : Params) : (State.resetWith p).pending = [] := rfl
@[simp] theorem State.resetWith_response (p : Params) : (State.resetWith p).response = none := rfl
@[simp] theorem State.resetWith_delay (p : Params) : (State.resetWith p).delay = 0 := rfl
@[simp] theorem State.resetWith_issues (p : Params) : (State.resetWith p).issues = 0 := rfl
@[simp] theorem State.resetWith_memEpoch (p : Params) : (State.resetWith p).memEpoch = 0 := rfl
@[simp] theorem State.resetWith_codeChanges (p : Params) : (State.resetWith p).codeChanges = 0 := rfl

/-! ### complete -/

@[simp] theorem State.complete_ok (s : State) (e : Effects) : s.complete (.ok e) = (s.commit e).finish := rfl

@[simp] theorem State.complete_error (s : State) (c : ErrorCode) : s.complete (.error c) = s.takeError c := rfl

end Sys2Proof.Machine
end

