-- ==== Sys2Proof/Laws/Memory.lean ====
section
/-! SUPPORT. The laws of DMEM: what a write does to each offset, that every memory operation keeps the canonical form, and that
the run of bytes a command reads is the bytes one by one. -/

namespace Sys2Proof.Machine

/-! ### Cells -/

theorem Memory.cells_length (a : Nat) (bs : List Byte) : (Memory.cells a bs).length = bs.length := by
  induction bs generalizing a with
  | nil => rfl
  | cons b bs ih => simp [Memory.cells, ih]

theorem Memory.mem_cells {a : Nat} {bs : List Byte} {c : Host.Cell} (h : c ∈ Memory.cells a bs) :
    a ≤ c.1 ∧ c.1 < a + bs.length := by
  induction bs generalizing a with
  | nil => simp [Memory.cells] at h
  | cons b bs ih =>
    rcases List.mem_cons.1 h with rfl | h
    · simp
    · have := ih h
      simp only [List.length_cons]
      omega

theorem Memory.lookup_cells (a x : Nat) (bs : List Byte) :
    Memory.lookup (Memory.cells a bs) x = if a ≤ x then bs[x - a]? else none := by
  induction bs generalizing a with
  | nil => simp [Memory.cells, Memory.lookup]
  | cons b bs ih =>
    by_cases hx : a = x
    · subst hx
      simp [Memory.cells, Memory.lookup]
    · have ih' := ih (a + 1)
      simp only [Memory.lookup] at ih' ⊢
      rw [Memory.cells, List.find?_cons_of_neg (by simpa using hx), ih']
      by_cases h : a + 1 ≤ x
      · have h' : a ≤ x := by omega
        have e : x - a = (x - (a + 1)) + 1 := by omega
        rw [if_pos h, if_pos h', e, List.getElem?_cons_succ]
      · have h' : ¬ a ≤ x := by omega
        rw [if_neg h, if_neg h']

/-! ### Lookup through a filter and an append -/

theorem Memory.lookup_append (m m' : List Host.Cell) (x : Nat) :
    Memory.lookup (m ++ m') x = (Memory.lookup m x).or (Memory.lookup m' x) := by
  simp only [Memory.lookup, List.find?_append]
  cases List.find? (fun c => c.1 == x) m <;> simp

theorem Memory.lookup_filter (m : List Host.Cell) (p : Nat → Bool) (x : Nat) :
    Memory.lookup (m.filter (fun c => p c.1)) x = if p x then Memory.lookup m x else none := by
  induction m with
  | nil => simp [Memory.lookup]
  | cons c m ih =>
    by_cases hp : p c.1 = true
    · rw [List.filter_cons_of_pos (p := fun c : Host.Cell => p c.1) hp]
      by_cases hc : c.1 = x
      · subst hc; simp [Memory.lookup, hp]
      · simp only [Memory.lookup] at ih ⊢
        rw [List.find?_cons_of_neg (by simpa using hc), List.find?_cons_of_neg (by simpa using hc), ih]
    · rw [List.filter_cons_of_neg (p := fun c : Host.Cell => p c.1) hp, ih]
      by_cases hc : c.1 = x
      · subst hc; simp [hp]
      · simp only [Memory.lookup]
        rw [List.find?_cons_of_neg (by simpa using hc)]

/-- What a write does to every offset: inside the region the new byte, outside nothing. -/
theorem Memory.lookup_write (m : List Host.Cell) (a : Nat) (bs : List Byte) (x : Nat) :
    Memory.lookup (Memory.write m a bs) x
      = if a ≤ x ∧ x < a + bs.length then bs[x - a]? else Memory.lookup m x := by
  unfold Memory.write
  by_cases hb : bs = []
  · subst hb; simp
  · have : bs.isEmpty = false := by simpa using hb
    simp only [this, Bool.false_eq_true, if_false]
    rw [Memory.lookup_append, Memory.lookup_append,
      Memory.lookup_filter m (fun y => decide (y < a)), Memory.lookup_filter m (fun y => decide (a + bs.length ≤ y)),
      Memory.lookup_cells]
    by_cases h1 : x < a
    · have h2 : ¬ a ≤ x := by omega
      have h3 : ¬ a + bs.length ≤ x := by omega
      simp [h1, h2, h3]
    · have h2 : a ≤ x := by omega
      by_cases h3 : x < a + bs.length
      · have h4 : x - a < bs.length := by omega
        simp [h1, h2, h3, h4]
      · have h4 : bs.length ≤ x - a := by omega
        have h5 : a + bs.length ≤ x := by omega
        simp [h1, h3, h4, h5]

theorem Memory.lookup_write_inside {m : List Host.Cell} {a : Nat} {bs : List Byte} {x : Nat}
    (h : a ≤ x) (h' : x < a + bs.length) : Memory.lookup (Memory.write m a bs) x = bs[x - a]? := by
  rw [Memory.lookup_write, if_pos ⟨h, h'⟩]

theorem Memory.lookup_write_outside {m : List Host.Cell} {a : Nat} {bs : List Byte} {x : Nat}
    (h : x < a ∨ a + bs.length ≤ x) : Memory.lookup (Memory.write m a bs) x = Memory.lookup m x := by
  rw [Memory.lookup_write, if_neg (by omega)]

/-! ### The canonical form -/

/-- The canonical form is that every cell lies below every later one. -/
theorem Memory.wf_iff_pairwise (m : List Host.Cell) :
    Memory.wf m = true ↔ m.Pairwise (fun c d => c.1 < d.1) := by
  induction m with
  | nil => simp [Memory.wf]
  | cons c m ih =>
    cases m with
    | nil => simp [Memory.wf]
    | cons d m =>
      simp only [Memory.wf, Bool.and_eq_true, decide_eq_true_eq, ih]
      constructor
      · rintro ⟨h, hp⟩
        refine List.pairwise_cons.2 ⟨fun e he => ?_, hp⟩
        rcases List.mem_cons.1 he with rfl | he
        · exact h
        · exact Nat.lt_trans h ((List.pairwise_cons.1 hp).1 e he)
      · intro hp
        exact ⟨(List.pairwise_cons.1 hp).1 d (by simp), (List.pairwise_cons.1 hp).2⟩

theorem Memory.cells_pairwise (a : Nat) (bs : List Byte) :
    (Memory.cells a bs).Pairwise (fun c d => c.1 < d.1) := by
  induction bs generalizing a with
  | nil => simp [Memory.cells]
  | cons b bs ih =>
    refine List.pairwise_cons.2 ⟨fun d hd => ?_, ih (a + 1)⟩
    have := Memory.mem_cells hd
    simp only
    omega

/-- A write keeps the canonical form. -/
theorem Memory.write_wf {m : List Host.Cell} (h : Memory.wf m = true) (a : Nat) (bs : List Byte) :
    Memory.wf (Memory.write m a bs) = true := by
  unfold Memory.write
  split
  · exact h
  · rw [Memory.wf_iff_pairwise] at h ⊢
    refine List.pairwise_append.2 ⟨List.pairwise_append.2 ⟨h.filter _, Memory.cells_pairwise a bs, ?_⟩, h.filter _, ?_⟩
    · intro c hc d hd
      have h1 := (List.mem_filter.1 hc).2
      have h2 := Memory.mem_cells hd
      simp only [decide_eq_true_eq] at h1
      omega
    · intro c hc d hd
      have h2 := (List.mem_filter.1 hd).2
      simp only [decide_eq_true_eq] at h2
      rcases List.mem_append.1 hc with hc | hc
      · have h1 := (List.mem_filter.1 hc).2
        simp only [decide_eq_true_eq] at h1
        omega
      · have h1 := Memory.mem_cells hc
        omega

/-- A list of writes keeps the canonical form. -/
theorem Memory.writeAll_wf {m : List Host.Cell} (h : Memory.wf m = true) (ws : List (Nat × List Byte)) :
    Memory.wf (Memory.writeAll m ws) = true := by
  induction ws generalizing m with
  | nil => exact h
  | cons w ws ih => exact ih (Memory.write_wf h w.1 w.2)

/-- A write below `size` keeps every listed offset below `size`. -/
theorem Memory.write_below {m : List Host.Cell} {size a : Nat} {bs : List Byte} (h : ∀ c ∈ m, c.1 < size)
    (hw : a + bs.length ≤ size) : ∀ c ∈ Memory.write m a bs, c.1 < size := by
  intro c hc
  unfold Memory.write at hc
  split at hc
  · exact h c hc
  · rcases List.mem_append.1 hc with hc | hc
    · rcases List.mem_append.1 hc with hc | hc
      · exact h c (List.mem_filter.1 hc).1
      · have := Memory.mem_cells hc
        omega
    · exact h c (List.mem_filter.1 hc).1

@[simp] theorem Memory.writeAll_nil (m : List Host.Cell) : Memory.writeAll m [] = m := rfl

@[simp] theorem Memory.writeAll_cons (m : List Host.Cell) (w : Nat × List Byte) (ws : List (Nat × List Byte)) :
    Memory.writeAll m (w :: ws) = Memory.writeAll (Memory.write m w.1 w.2) ws := rfl

@[simp] theorem Memory.write_nil (m : List Host.Cell) (a : Nat) : Memory.write m a [] = m := rfl

/-! ### Reading -/

theorem Memory.lookup_none_of_lt {m : List Host.Cell} {x : Nat} (h : ∀ c ∈ m, x < c.1) : Memory.lookup m x = none := by
  simp only [Memory.lookup, Option.map_eq_none_iff, List.find?_eq_none, beq_iff_eq]
  intro c hc he
  have := h c hc
  omega

theorem Memory.lookup_dropWhile {m : List Host.Cell} {a x : Nat} (hx : a ≤ x) :
    Memory.lookup (m.dropWhile (fun c => decide (c.1 < a))) x = Memory.lookup m x := by
  induction m with
  | nil => rfl
  | cons c m ih =>
    by_cases h : c.1 < a
    · rw [List.dropWhile_cons_of_pos (by simpa using h), ih]
      simp only [Memory.lookup]
      rw [List.find?_cons_of_neg (by simp; omega)]
    · rw [List.dropWhile_cons_of_neg (by simpa using h)]

/-- The walk along a canonical memory reads its bytes one by one. -/
theorem Memory.readRun_eq (free : Nat → Byte) {m : List Host.Cell} (h : Memory.wf m = true) (a n : Nat) :
    Memory.readRun free m a n = (List.range n).map (fun i => (Memory.lookup m (a + i)).getD (free (a + i))) := by
  induction n generalizing m a with
  | zero => rfl
  | succ n ih =>
    have hp := (Memory.wf_iff_pairwise m).1 h
    have hd : (m.dropWhile (fun c => decide (c.1 < a))).Pairwise (fun c d => c.1 < d.1) :=
      hp.sublist (List.dropWhile_sublist _)
    have hl : ∀ i, Memory.lookup m (a + i) = Memory.lookup (m.dropWhile (fun c => decide (c.1 < a))) (a + i) :=
      fun i => (Memory.lookup_dropWhile (by omega)).symm
    have hge : ∀ c ∈ (m.dropWhile (fun c => decide (c.1 < a))).head?, a ≤ c.1 := by
      intro c hc
      have := List.head?_dropWhile_not (fun c : Host.Cell => decide (c.1 < a)) m
      rw [Option.mem_def.1 hc] at this
      simpa using this
    rw [List.range_succ_eq_map, List.map_cons, List.map_map]
    simp only [hl]
    rw [Memory.readRun]
    generalize m.dropWhile (fun c => decide (c.1 < a)) = q at hd hge ⊢
    match q with
    | [] =>
      simp only [ih (m := []) rfl (a + 1), List.cons.injEq]
      refine ⟨by simp [Memory.lookup], List.map_congr_left (fun i _ => ?_)⟩
      simp only [Function.comp_apply]
      rw [show a + 1 + i = a + (i + 1) by omega]
    | c :: rest =>
      have hc : a ≤ c.1 := hge c (by simp)
      have hrest := List.pairwise_cons.1 hd
      simp only
      split
      · rename_i he
        rw [ih ((Memory.wf_iff_pairwise rest).2 hrest.2) (a + 1)]
        refine List.cons_eq_cons.2 ⟨by simp [Memory.lookup, he], List.map_congr_left (fun i _ => ?_)⟩
        simp only [Function.comp_apply]
        have : Memory.lookup (c :: rest) (a + i.succ) = Memory.lookup rest (a + i.succ) := by
          simp only [Memory.lookup]
          rw [List.find?_cons_of_neg (by simp; omega)]
        rw [this, show a + 1 + i = a + i.succ by omega]
      · rename_i he
        rw [ih ((Memory.wf_iff_pairwise (c :: rest)).2 hd) (a + 1)]
        refine List.cons_eq_cons.2 ⟨?_, List.map_congr_left (fun i _ => ?_)⟩
        · rw [Memory.lookup_none_of_lt (x := a + 0)]
          · rfl
          · intro d hd'
            rcases List.mem_cons.1 hd' with rfl | hd'
            · omega
            · have := hrest.1 d hd'
              omega
        · simp only [Function.comp_apply]
          rw [show a + 1 + i = a + i.succ by omega]

theorem Memory.readRun_length (free : Nat → Byte) (m : List Host.Cell) (a n : Nat) :
    (Memory.readRun free m a n).length = n := by
  induction n generalizing m a with
  | zero => rfl
  | succ n ih =>
    rw [Memory.readRun]
    split
    · simp [ih]
    · split <;> simp [ih]

/-- The walk over a region just written reads what was written, whatever the other cells are. -/
theorem Memory.readRun_write (free : Nat → Byte) (m : List Host.Cell) (a : Nat) (bs : List Byte) :
    Memory.readRun free (Memory.write m a bs) a bs.length = bs := by
  have key : ∀ (bs : List Byte) (a : Nat) (low high : List Host.Cell), (∀ c ∈ low, c.1 < a) →
      Memory.readRun free (low ++ (Memory.cells a bs ++ high)) a bs.length = bs := by
    intro bs
    induction bs with
    | nil => intros; rfl
    | cons b bs ih =>
      intro a low high hlow
      rw [List.length_cons, Memory.readRun, List.dropWhile_append_of_pos (by simpa using hlow), Memory.cells, List.cons_append,
        List.dropWhile_cons_of_neg (by simp)]
      simp only [if_true]
      rw [← List.nil_append (Memory.cells (a + 1) bs ++ high), ih (a + 1) [] high (by simp)]
  unfold Memory.write
  by_cases hb : bs = []
  · subst hb; rfl
  · rw [if_neg (by simpa using hb), List.append_assoc]
    exact key bs a _ _ (fun c hc => by simpa using (List.mem_filter.1 hc).2)

@[simp] theorem State.bytesRead_length (s : State) (a n : Nat) : (s.bytesRead a n).length = n :=
  Memory.readRun_length _ _ _ _

/-- `BytesRead` is `ByteRead` offset by offset (00_scope.md R13). -/
theorem State.bytesRead_eq (s : State) (h : Memory.wf s.mem = true) (a n : Nat) :
    s.bytesRead a n = (List.range n).map (fun i => s.readByte (a + i)) :=
  Memory.readRun_eq _ h a n

/-- What a write of State's memory does to every byte. -/
theorem State.readByte_write (s : State) (a : Nat) (bs : List Byte) (x : Nat) :
    State.readByte { s with mem := Memory.write s.mem a bs } x
      = if a ≤ x ∧ x < a + bs.length then bs.getD (x - a) 0#8 else s.readByte x := by
  simp only [State.readByte, Memory.lookup_write]
  split
  · rename_i h
    have h' : x - a < bs.length := by omega
    simp [List.getD_eq_getElem?_getD, h']
  · rfl

/-- A byte reads the same in two states with the same DMEM. -/
theorem State.readByte_congr {s t : State} (hm : t.mem = s.mem) (he : t.memEpoch = s.memEpoch) (x : Nat) :
    t.readByte x = s.readByte x := by
  simp [State.readByte, hm, he]

theorem State.bytesRead_congr {s t : State} (hm : t.mem = s.mem) (he : t.memEpoch = s.memEpoch) (a n : Nat) :
    t.bytesRead a n = s.bytesRead a n := by
  simp [State.bytesRead, hm, he]

theorem State.bitsRead_congr {s t : State} (hm : t.mem = s.mem) (he : t.memEpoch = s.memEpoch) (a n : Nat) :
    t.bitsRead a n = s.bitsRead a n := by
  simp [State.bitsRead, State.bytesRead_congr hm he]

end Sys2Proof.Machine
end

