-- ==== Sys2Proof/Laws/Bits.lean ====
section
/-! SUPPORT. The laws of bit sequences and numbers: lengths, the bits of a packed byte and of an unpacked list, and big-endian
numbers (20_memory.md R202, R204 to R206). -/

namespace Sys2Proof.Machine

@[simp] theorem byteBits_length (v : Byte) : (byteBits v).length = 8 := by simp [byteBits]

theorem byteBits_getElem (v : Byte) (t : Nat) (h : t < (byteBits v).length) :
    (byteBits v)[t] = v.getLsbD (7 - t) := by
  simp [byteBits]

/-- Bit 7 − t of a packed byte is bit t of the sequence, and 0 past its end (R206). -/
theorem packByte_getLsbD (b : Bits) {t : Nat} (ht : t < 8) : (packByte b).getLsbD (7 - t) = b.getD t false := by
  have key : ∀ b0 b1 b2 b3 b4 b5 b6 b7 : Bool, ∀ t : Fin 8,
      (BitVec.ofNat 8 (bitsNumber [b0, b1, b2, b3, b4, b5, b6, b7])).getLsbD (7 - t.val)
        = [b0, b1, b2, b3, b4, b5, b6, b7].getD t.val false := by decide +kernel
  have h := key (b.getD 0 false) (b.getD 1 false) (b.getD 2 false) (b.getD 3 false) (b.getD 4 false) (b.getD 5 false)
    (b.getD 6 false) (b.getD 7 false) ⟨t, ht⟩
  refine Eq.trans h ?_
  have : t = 0 ∨ t = 1 ∨ t = 2 ∨ t = 3 ∨ t = 4 ∨ t = 5 ∨ t = 6 ∨ t = 7 := by omega
  rcases this with rfl | rfl | rfl | rfl | rfl | rfl | rfl | rfl <;> rfl

/-- Two bytes are equal when they agree on the bits a packed sequence reads. -/
theorem byte_ext {v w : Byte} (h : ∀ t < 8, v.getLsbD (7 - t) = w.getLsbD (7 - t)) : v = w := by
  apply BitVec.eq_of_getLsbD_eq
  intro i hi
  have := h (7 - i) (by omega)
  rwa [show 7 - (7 - i) = i by omega] at this

/-- Byte `j` of the packed form packs the bits from `8·j` on (R206). -/
theorem packBytes_getD {n j : Nat} (b : Bits) (h : j < n) : (packBytes n b).getD j 0#8 = packByte (b.drop (8 * j)) := by
  induction n generalizing b j with
  | zero => omega
  | succ n ih =>
    cases j with
    | zero => rfl
    | succ j =>
      rw [packBytes, List.getD_cons_succ, ih _ (by omega), List.drop_drop, show 8 + 8 * j = 8 * (j + 1) by omega]

theorem packBytes_length (n : Nat) (b : Bits) : (packBytes n b).length = n := by
  induction n generalizing b with
  | zero => rfl
  | succ n ih => simp [packBytes, ih]

/-- `pack(b)` has ceil8(len(b)) bytes (R206). -/
@[simp] theorem pack_length (b : Bits) : (pack b).length = ceil8 b.length := packBytes_length _ _

theorem flatMap_byteBits_length (bs : List Byte) : (bs.flatMap byteBits).length = 8 * bs.length := by
  induction bs with
  | nil => rfl
  | cons v bs ih => simp [ih]; omega

theorem unpack_length (bs : List Byte) (L : Nat) : (unpack bs L).length = min L (8 * bs.length) := by
  simp only [unpack, List.length_take, flatMap_byteBits_length]

/-- `BitsRead(a, L)` has L bits (R204). -/
@[simp] theorem State.bitsRead_length (s : State) (a L : Nat) : (s.bitsRead a L).length = L := by
  simp only [State.bitsRead, unpack_length, State.bytesRead_length, ceil8]
  omega

theorem flatMap_byteBits_getElem (bs : List Byte) (i : Nat) (h : i < (bs.flatMap byteBits).length) :
    (bs.flatMap byteBits)[i] = (bs.getD (i / 8) 0#8).getLsbD (7 - i % 8) := by
  have hi : i < 8 * bs.length := by rw [flatMap_byteBits_length] at h; exact h
  induction bs generalizing i with
  | nil => simp at hi
  | cons v bs ih =>
    simp only [List.length_cons] at hi
    by_cases h8 : i < 8
    · simp only [List.flatMap_cons, List.getElem_append, byteBits_length, h8, dite_true, byteBits_getElem]
      rw [Nat.div_eq_of_lt h8, Nat.mod_eq_of_lt h8]
      rfl
    · simp only [List.flatMap_cons, List.getElem_append, byteBits_length, h8, dite_false]
      rw [ih (i - 8) (by rw [flatMap_byteBits_length]; omega) (by omega)]
      have e1 : i / 8 = (i - 8) / 8 + 1 := by omega
      have e2 : (i - 8) % 8 = i % 8 := by omega
      rw [e1, e2]
      rfl

/-- Bit i of an unpacked byte list is bit 7 − i mod 8 of byte i div 8 (R206). -/
theorem unpack_getElem (bs : List Byte) (L i : Nat) (h : i < (unpack bs L).length) :
    (unpack bs L)[i] = (bs.getD (i / 8) 0#8).getLsbD (7 - i % 8) := by
  simp only [unpack, List.getElem_take, flatMap_byteBits_getElem]

theorem bitsNumber_append_single (b : Bits) (x : Bool) : bitsNumber (b ++ [x]) = 2 * bitsNumber b + x.toNat := by
  simp [bitsNumber]

/-- A bit sequence of length L writes a number below 2^L. -/
theorem bitsNumber_lt (b : Bits) : bitsNumber b < 2 ^ b.length := by
  induction b using List.reverseRecOn with
  | nil => simp [bitsNumber]
  | append_singleton b x ih =>
    rw [bitsNumber_append_single, List.length_append, List.length_singleton, Nat.pow_succ]
    cases x <;> simp <;> omega

@[simp] theorem beBytes_length (n v : Nat) : (beBytes n v).length = n := by
  induction n generalizing v with
  | zero => rfl
  | succ n ih => simp [beBytes, ih]

theorem beNumber_append_single (bs : List Byte) (b : Byte) : beNumber (bs ++ [b]) = 256 * beNumber bs + b.toNat := by
  simp [beNumber]

/-- The big-endian form of a number reads back as the number, modulo its width (R202). -/
theorem beNumber_beBytes (n v : Nat) : beNumber (beBytes n v) = v % 256 ^ n := by
  induction n generalizing v with
  | zero => simp [beBytes, beNumber, Nat.mod_one]
  | succ n ih =>
    rw [beBytes, beNumber_append_single, ih, BitVec.toNat_ofNat, Nat.pow_succ (n := 256), Nat.mul_comm (256 ^ n) 256, Nat.mod_mul]
    omega

theorem beNumber_lt (bs : List Byte) : beNumber bs < 256 ^ bs.length := by
  induction bs using List.reverseRecOn with
  | nil => simp [beNumber]
  | append_singleton bs b ih =>
    rw [beNumber_append_single, List.length_append, List.length_singleton, Nat.pow_succ]
    have := b.isLt
    omega

/-- Byte `j` of the big-endian form of a number (R202). -/
theorem beBytes_getD {n j : Nat} (v : Nat) (h : j < n) :
    (beBytes n v).getD j 0#8 = BitVec.ofNat 8 (v / 256 ^ (n - 1 - j)) := by
  induction n generalizing v with
  | zero => omega
  | succ n ih =>
    rw [beBytes]
    by_cases hj : j < n
    · rw [List.getD_append _ _ _ _ (by simpa using hj), ih _ hj, Nat.div_div_eq_div_mul]
      congr 2
      rw [show n + 1 - 1 - j = (n - 1 - j) + 1 by omega, Nat.pow_succ, Nat.mul_comm]
    · have : j = n := by omega
      subst this
      rw [List.getD_append_right _ _ _ _ (by simp)]
      simp

theorem tableBytes_length (f : FreqTable) (n : Nat) :
    ((List.range n).flatMap (fun symbol => beBytes 4 (f.count symbol))).length = 4 * n := by
  simp [List.length_flatMap]
  omega

@[simp] theorem tableWrite_length (a : Nat) (f : FreqTable) : (tableWrite a f).2.length = 1024 := tableBytes_length f 256

/-- Byte `4·x + j` of a stored table is byte `j` of the big-endian count of `x` (R209, R401). -/
theorem tableWrite_getD (a : Nat) (f : FreqTable) {x j : Nat} (hx : x < 256) (hj : j < 4) :
    (tableWrite a f).2.getD (4 * x + j) 0#8 = (beBytes 4 (f.count x)).getD j 0#8 := by
  suffices h : ∀ n, x < n → ((List.range n).flatMap (fun symbol => beBytes 4 (f.count symbol))).getD (4 * x + j) 0#8
      = (beBytes 4 (f.count x)).getD j 0#8 from h 256 hx
  intro n hn
  induction n with
  | zero => omega
  | succ n ih =>
    rw [List.range_succ, List.flatMap_append]
    by_cases h : x < n
    · rw [List.getD_append _ _ _ _ (by rw [tableBytes_length]; omega), ih h]
    · have : x = n := by omega
      subst this
      rw [List.getD_append_right _ _ _ _ (by rw [tableBytes_length]; omega), tableBytes_length]
      simp

@[simp] theorem beWords_length (n : Nat) (bs : List Byte) : (beWords n bs).length = n := by
  induction n generalizing bs with
  | zero => rfl
  | succ n ih => simp [beWords, ih]

@[simp] theorem matrixOfBits_length (r c : Nat) (b : Bits) : (matrixOfBits r c b).length = r := by
  induction r generalizing b with
  | zero => rfl
  | succ r ih => simp [matrixOfBits, ih]

theorem matrixOfBits_row_length {r c : Nat} {b : Bits} (h : r * c ≤ b.length) : ∀ row ∈ matrixOfBits r c b, row.length = c := by
  induction r generalizing b with
  | zero => simp [matrixOfBits]
  | succ r ih =>
    rw [Nat.succ_mul] at h
    intro row hrow
    rcases List.mem_cons.1 hrow with rfl | hrow
    · simp; omega
    · exact ih (by simp; omega) row hrow

end Sys2Proof.Machine
end

