-- ==== Sys2Proof/Laws/Command.lean ====
section
/-! SUPPORT. What executing a command can do, said once for all commands: Exec's result (30_encoding.md R311) for every command,
the two completions (R312, R313, R820), and which results a command can have. -/

namespace Sys2Proof.Machine

/-- Exec's result for a command (R311). -/
def resultOf (i : Instr) (s : State) : CommandResult :=
  match i with
  | .nop => nopResult s
  | .hfreq => hfreqResult s
  | .hbuild => hbuildResult s
  | .henc => hencResult s
  | .hdec => hdecResult s
  | .hcomp => hcompResult s
  | .hdecomp => hdecompResult s
  | .hcode symbol => hcodeResult symbol s
  | .pack => packResult s
  | .unpack => unpackResult s
  | .pad => padResult s
  | .unpad => unpadResult s
  | .lcgen => lcgenResult s
  | .lcloadh => lcloadhResult s
  | .lcstoreh => lcstorehResult s
  | .lcstoreg => lcstoregResult s
  | .lcenc => lcencResult s
  | .lcdec => lcdecResult s
  | .lcencs => lcencsResult s
  | .lcdecs => lcdecsResult s
  | .lcsyn => lcsynResult s

/-- Every command completes, and its completion is that of its result. -/
theorem exec_eq (i : Instr) (s : State) : exec i s = .next (s.complete (resultOf i s)) := by
  cases i <;> rfl

theorem exec_next_iff (i : Instr) (s t : State) : exec i s = .next t ↔ t = s.complete (resultOf i s) := by
  rw [exec_eq]
  constructor
  · intro h; injection h with h; exact h.symm
  · rintro rfl; rfl

/-- The two ways a command can end: it commits its effects, or it raises an error. -/
theorem exec_cases {i : Instr} {s t : State} (h : exec i s = .next t) :
    (∃ e, resultOf i s = .ok e ∧ t = (s.commit e).finish) ∨ (∃ c, resultOf i s = .error c ∧ t = s.takeError c) := by
  rw [exec_next_iff] at h
  cases hr : resultOf i s with
  | ok e => exact .inl ⟨e, rfl, by rw [h, hr]; rfl⟩
  | error c => exact .inr ⟨c, rfl, by rw [h, hr]; rfl⟩

/-- A command that writes no table, no SYND and no UNC changes DMEM, the results and the completion flags only. -/
theorem commit_plain (s : State) (ws : List (Nat × List Byte)) (r0 r1 : Word) :
    s.commit { writes := ws, res0 := r0, res1 := r1 }
      = { s with mem := Memory.writeAll s.mem ws, res0 := r0, res1 := r1 } := by
  simp [State.commit]

/-- Error completion is precise: it changes RES0, RES1, ERR, ERRCODE, BUSY and DONE only (R820, R821). -/
theorem takeError_eq (s : State) (c : ErrorCode) :
    s.takeError c = { s with res0 := 0#32, res1 := 0#32, err := true, errCode := c.number, engine := .idle, done := true } :=
  rfl

theorem ErrorCode.number_injective {c d : ErrorCode} (h : c.number = d.number) : c = d := by
  cases c <;> cases d <;> first | rfl | exact absurd h (by decide)

theorem ErrorCode.number_ne_zero (c : ErrorCode) : c.number ≠ 0#4 := by cases c <;> decide

/-- No error code is above 7 (R801). -/
theorem ErrorCode.number_le (c : ErrorCode) : c.number.toNat ≤ 7 := by cases c <;> decide

end Sys2Proof.Machine
end

