-- ==== Sys2Proof/Laws/Step.lean ====
section
/-! SUPPORT. What a step can do, said once: the engine completes a command or an illegal word, or the block performs the next
input; and what performing an access can do. -/

namespace Sys2Proof.Machine

/-- The engine's step always answers a next state: the completion of a result. -/
theorem engineStep_cases (s : State) :
    (∃ i, decode s.latch.raw = .ok i ∧ s.engineStep = .next (s.complete (resultOf i s))) ∨
    (∃ e, decode s.latch.raw = .error e ∧ s.engineStep = .next (s.complete (.error .illegalCommand))) := by
  unfold State.engineStep
  cases h : decode s.latch.raw with
  | ok i => exact .inl ⟨i, rfl, exec_eq i s⟩
  | error e => exact .inr ⟨e, rfl, rfl⟩

/-- A step is the engine's completion or the performance of the next input. -/
theorem step_cases {s t : State} (h : step s = .next t) :
    (s.engineMoves = true ∧ ∃ r, t = s.complete r ∧
      ((∃ i, decode s.latch.raw = .ok i ∧ r = resultOf i s) ∨
       (∃ e, decode s.latch.raw = .error e ∧ r = .error .illegalCommand))) ∨
    (s.engineMoves = false ∧ t = s.inputStep) := by
  unfold step at h
  split at h
  · rename_i hm
    refine .inl ⟨hm, ?_⟩
    rcases engineStep_cases s with ⟨i, hd, he⟩ | ⟨e, hd, he⟩
    · rw [he] at h; injection h with h
      exact ⟨_, h.symm, .inl ⟨i, hd, rfl⟩⟩
    · rw [he] at h; injection h with h
      exact ⟨_, h.symm, .inr ⟨e, hd, rfl⟩⟩
  · rename_i hm
    injection h with h
    exact .inr ⟨by simpa using hm, h.symm⟩

/-- Every step answers a next state: nothing stops the machine. -/
theorem step_next (s : State) : ∃ t, step s = .next t := by
  unfold step
  split
  · rcases engineStep_cases s with ⟨i, _, he⟩ | ⟨e, _, he⟩
    · exact ⟨_, he⟩
    · exact ⟨_, he⟩
  · exact ⟨_, rfl⟩

/-- What performing an access can do: nothing but the response, a register write, or a write of 1, 2 or 4 bytes that lie
wholly below DMEM_SIZE. -/
theorem performAccess_cases (s : State) (a : BusAccess) :
    (∃ r, s.performAccess a = s.respond r) ∨
    (∃ r v, s.inReset = false ∧ Params.target s.params a = .register r ∧ a.kind = .write v ∧
      s.performAccess a = (s.writeRegister r v).respond .done) ∨
    (∃ d v, s.inReset = false ∧ Params.target s.params a = .dmem d ∧ a.kind = .write v ∧
      s.performAccess a = State.respond { s with mem := Memory.write s.mem d (beBytes a.bytes v.toNat) } .done) := by
  unfold State.performAccess
  cases hr : s.inReset with
  | true =>
    cases hk : a.kind with
    | read => exact .inl ⟨.data 0#32, rfl⟩
    | write v => exact .inl ⟨.done, rfl⟩
  | false =>
    simp only [Bool.false_eq_true, if_false]
    cases ht : Params.target s.params a with
    | outside => exact .inl ⟨.notSelected, by cases a.kind <;> rfl⟩
    | reserved => exact .inl ⟨.busError, by cases a.kind <;> rfl⟩
    | badDmem => exact .inl ⟨.busError, by cases a.kind <;> rfl⟩
    | register r =>
      cases hk : a.kind with
      | read => exact .inl ⟨_, rfl⟩
      | write v => exact .inr (.inl ⟨r, v, trivial, rfl, rfl, rfl⟩)
    | dmem d =>
      cases hk : a.kind with
      | read => exact .inl ⟨_, rfl⟩
      | write v => exact .inr (.inr ⟨d, v, trivial, rfl, rfl, rfl⟩)

/-- A register write changes no parameter. -/
@[simp] theorem State.writeRegister_params (s : State) (r : Reg) (v : Word) : (s.writeRegister r v).params = s.params := by
  cases r <;> simp only [State.writeRegister, State.writeCtrl, State.writeStatus, State.writeCmd] <;> repeat' split
  all_goals rfl

/-- Performing an access changes no parameter. -/
@[simp] theorem State.performAccess_params (s : State) (a : BusAccess) : (s.performAccess a).params = s.params := by
  rcases performAccess_cases s a with ⟨r, h⟩ | ⟨r, v, -, -, -, h⟩ | ⟨d, v, -, -, -, h⟩
  · rw [h]; rfl
  · rw [h]; exact State.writeRegister_params s r v
  · rw [h]; rfl

/-- No step changes a parameter: not the sizes, not BASE, not the routing of IRQ (log 1, log 25). -/
theorem step_params {s t : State} (h : step s = .next t) : t.params = s.params := by
  rcases step_cases h with ⟨-, r, rfl, -⟩ | ⟨-, rfl⟩
  · cases r <;> rfl
  · unfold State.inputStep
    split
    · rfl
    · rw [State.performAccess_params]; rfl
    · split <;> rw [State.performAccess_params] <;> rfl
    · simp only [State.driveResetLine]; repeat' split
      all_goals rfl

/-- The line of the routing parameter carries IRQ. -/
@[simp] theorem State.irqOnLine_own (s : State) : s.irqOnLine s.params.irqLine = s.irq := by simp [State.irqOnLine]

/-- Every other line of the platform's interrupt controller is left alone. -/
theorem State.irqOnLine_other {s : State} {line : Nat} (h : line ≠ s.params.irqLine) : s.irqOnLine line = false := by
  simp [State.irqOnLine, h]

/-- An accepted DMEM target lies wholly below DMEM_SIZE (R202). -/
theorem target_dmem_bound {p : Params} {a : BusAccess} {d : Nat} (h : Params.target p a = .dmem d) :
    d + a.bytes ≤ p.dmemSize := by
  unfold Params.target at h
  split at h
  · cases h
  · unfold Params.targetAt at h
    split at h
    · split at h
      · cases ho : Reg.atOffset (a.address - p.base) <;> rw [ho] at h <;> cases h
      · cases h
    · split at h
      · rename_i hok
        injection h with h
        subst h
        simp only [Params.dmemAccessOk, Bool.and_eq_true, decide_eq_true_eq] at hok
        exact hok.2
      · split at h <;> cases h

end Sys2Proof.Machine
end

