-- ==== Sys2Proof/Laws/Bus.lean ====
section
/-! SUPPORT. The laws of the host's side: where an address of the window leads (20_memory.md R201), when the engine moves before
the next input, and what an input that is not held does. -/

namespace Sys2Proof.Machine

/-! ### The window -/

theorem windowSize_covers (p : Params) : dmemOffset + p.dmemSize ≤ p.windowSize := by
  unfold Params.windowSize
  have := Nat.lt_log2_self (n := dmemOffset + p.dmemSize - 1)
  omega

theorem dmemOffset_le_windowSize (p : Params) : dmemOffset ≤ p.windowSize :=
  Nat.le_trans (Nat.le_add_right _ _) (windowSize_covers p)

/-- An address inside the window leads where its offset does. -/
theorem target_inside {p : Params} {offset : Nat} (h : offset < p.windowSize) (bytes : Nat) (kind : AccessKind) :
    Params.target p { address := p.base + offset, bytes := bytes, kind := kind } = Params.targetAt p bytes offset := by
  unfold Params.target
  rw [if_neg (by simp; omega)]
  simp

/-- An aligned 32-bit access at the offset of a register reaches the register (R101). -/
theorem target_register {p : Params} {offset : Nat} {r : Reg} (h : Reg.atOffset offset = some r) (kind : AccessKind) :
    Params.target p { address := p.base + offset, bytes := 4, kind := kind } = .register r := by
  have hlt : offset < 0x40 := by
    unfold Reg.atOffset at h
    split at h
    · have := (List.getElem?_eq_some_iff.1 h).1
      simp only [registerMap, List.length_cons, List.length_nil] at this
      omega
    · cases h
  have hw := dmemOffset_le_windowSize p
  rw [target_inside (by simp only [dmemOffset] at hw; omega)]
  unfold Params.targetAt
  rw [if_pos (by simp only [dmemOffset]; omega), if_pos rfl, h]
  rfl

/-- An accepted host DMEM access reaches its DMEM offset (R202). -/
theorem target_dmem {p : Params} {bytes offset : Nat} (h : Params.dmemAccessOk p bytes offset = true) (kind : AccessKind) :
    Params.target p { address := p.base + dmemOffset + offset, bytes := bytes, kind := kind } = .dmem offset := by
  have hb : offset + bytes ≤ p.dmemSize ∧ 0 < bytes := by
    unfold Params.dmemAccessOk at h
    simp only [Bool.and_eq_true, Bool.or_eq_true, decide_eq_true_eq] at h
    omega
  have hw := windowSize_covers p
  rw [Nat.add_assoc, target_inside (by omega)]
  unfold Params.targetAt
  rw [if_neg (by omega), Nat.add_sub_cancel_left, if_pos h]

/-- Every access that starts at a DMEM offset is held while BUSY = 1 (R203, log 9). -/
theorem holds_dmem {p : Params} {a : BusAccess} (h : p.base + dmemOffset ≤ a.address)
    (h' : a.address < p.base + dmemOffset + p.dmemSize) : Params.holds p a = true := by
  have hw := windowSize_covers p
  have ht : Params.target p a = Params.targetAt p a.bytes (a.address - p.base) := by
    unfold Params.target
    rw [if_neg (by omega)]
  have hd : (∃ d, Params.targetAt p a.bytes (a.address - p.base) = .dmem d)
      ∨ Params.targetAt p a.bytes (a.address - p.base) = .badDmem := by
    unfold Params.targetAt
    rw [if_neg (by omega)]
    split
    · exact .inl ⟨_, rfl⟩
    · rw [if_pos (by omega)]
      exact .inr rfl
  unfold Params.holds
  rcases hd with ⟨d, hd⟩ | hd <;> rw [ht, hd]

/-! ### When the engine moves -/

theorem engineMoves_of_ready {s : State} (h1 : s.inReset = false) (h2 : s.engine = .busy)
    (h3 : s.delay = 0 ∨ s.pending = []) : s.engineMoves = true := by
  rcases h3 with h3 | h3 <;> simp [State.engineMoves, State.busy, h1, h2, h3]

theorem engineMoves_idle {s : State} (h : s.engine = .idle) : s.engineMoves = false := by
  simp [State.engineMoves, State.busy, h]

theorem engineMoves_access {s : State} {a : BusAccess} {rest : List Input} (hp : s.pending = .access a :: rest)
    (h : s.engine = .idle ∨ s.delay ≠ 0) (ha : Params.holds s.params a = false) : s.engineMoves = false := by
  rcases h with h | h
  · exact engineMoves_idle h
  · simp [State.engineMoves, hp, h, ha]

/-- An access that is not held is performed by the step. -/
theorem step_access {s : State} {a : BusAccess} {rest : List Input} (hp : s.pending = .access a :: rest)
    (h : s.engineMoves = false) : step s = .next ((s.takeInput rest).performAccess a) := by
  unfold step
  rw [if_neg (by simp [h])]
  unfold State.inputStep
  rw [hp]

/-- A write to a register other than CTRL is not held. -/
theorem holds_register {p : Params} {a : BusAccess} {r : Reg} (h : Params.target p a = .register r) (hr : r ≠ .ctrl) :
    Params.holds p a = false := by
  unfold Params.holds
  rw [h]
  cases r <;> cases a.kind <;> first | rfl | exact absurd rfl hr

/-- A register write and a register read outside reset. -/
theorem performAccess_write {s : State} {a : BusAccess} {r : Reg} {v : Word} (h : s.inReset = false)
    (ht : Params.target s.params a = .register r) (hk : a.kind = .write v) :
    s.performAccess a = (s.writeRegister r v).respond .done := by
  unfold State.performAccess
  rw [if_neg (by simp [h]), ht, hk]

theorem performAccess_read {s : State} {a : BusAccess} {r : Reg} (h : s.inReset = false)
    (ht : Params.target s.params a = .register r) (hk : a.kind = .read) :
    s.performAccess a = s.respond (.data (s.readRegister r)) := by
  unfold State.performAccess
  rw [if_neg (by simp [h]), ht, hk]

/-- A register write is performed by the step, unless it is a CTRL write while BUSY = 1 (R102, R911, R912). -/
theorem step_register_write {s : State} {offset : Nat} {r : Reg} {v : Word} {rest : List Input} (h : s.inReset = false)
    (ho : Reg.atOffset offset = some r) (hi : s.engine = .idle ∨ (s.delay ≠ 0 ∧ r ≠ .ctrl))
    (hp : s.pending = .access { address := s.params.base + offset, bytes := 4, kind := .write v } :: rest) :
    step s = .next (((s.takeInput rest).writeRegister r v).respond .done) := by
  have ht := target_register (p := s.params) ho (.write v)
  have hm : s.engineMoves = false := by
    rcases hi with hi | hi
    · exact engineMoves_idle hi
    · exact engineMoves_access hp (.inr hi.1) (holds_register ht hi.2)
  rw [step_access hp hm, performAccess_write (s := s.takeInput rest) h ht rfl]

/-- A register read is performed by the step, also while BUSY = 1 (R914). -/
theorem step_register_read {s : State} {offset : Nat} {r : Reg} {rest : List Input} (h : s.inReset = false)
    (ho : Reg.atOffset offset = some r) (hi : s.engine = .idle ∨ s.delay ≠ 0)
    (hp : s.pending = .access { address := s.params.base + offset, bytes := 4, kind := .read } :: rest) :
    step s = .next ((s.takeInput rest).respond (.data (s.readRegister r))) := by
  have ht := target_register (p := s.params) ho .read
  have hh : Params.holds s.params { address := s.params.base + offset, bytes := 4, kind := .read } = false := by
    unfold Params.holds
    rw [ht]
    cases r <;> rfl
  rw [step_access hp (engineMoves_access hp hi hh), performAccess_read (s := s.takeInput rest) h ht rfl]
  cases r <;> rfl

end Sys2Proof.Machine
end

