-- ==== Sys2Proof/Laws/Completion.lean ====
section
/-! SUPPORT. From a command's result to the state it completes in, in the words of the claims (Safety.lean), and the bytes and
tables a claim reads. -/

namespace Sys2Proof.Machine

/-! ### The fields of a completed state -/

@[simp] theorem State.failedWith_params (s : State) (code : BitVec 4) : (s.failedWith code).params = s.params := rfl
@[simp] theorem State.failedWith_ie (s : State) (code : BitVec 4) : (s.failedWith code).ie = s.ie := rfl
@[simp] theorem State.failedWith_engine (s : State) (code : BitVec 4) : (s.failedWith code).engine = .idle := rfl
@[simp] theorem State.failedWith_done (s : State) (code : BitVec 4) : (s.failedWith code).done = true := rfl
@[simp] theorem State.failedWith_err (s : State) (code : BitVec 4) : (s.failedWith code).err = true := rfl
@[simp] theorem State.failedWith_cmdOvr (s : State) (code : BitVec 4) : (s.failedWith code).cmdOvr = s.cmdOvr := rfl
@[simp] theorem State.failedWith_errCode (s : State) (code : BitVec 4) : (s.failedWith code).errCode = code := rfl
@[simp] theorem State.failedWith_treeValid (s : State) (code : BitVec 4) : (s.failedWith code).treeValid = s.treeValid := rfl
@[simp] theorem State.failedWith_codeValid (s : State) (code : BitVec 4) : (s.failedWith code).codeValid = s.codeValid := rfl
@[simp] theorem State.failedWith_gValid (s : State) (code : BitVec 4) : (s.failedWith code).gValid = s.gValid := rfl
@[simp] theorem State.failedWith_unc (s : State) (code : BitVec 4) : (s.failedWith code).unc = s.unc := rfl
@[simp] theorem State.failedWith_arg0 (s : State) (code : BitVec 4) : (s.failedWith code).arg0 = s.arg0 := rfl
@[simp] theorem State.failedWith_arg1 (s : State) (code : BitVec 4) : (s.failedWith code).arg1 = s.arg1 := rfl
@[simp] theorem State.failedWith_arg2 (s : State) (code : BitVec 4) : (s.failedWith code).arg2 = s.arg2 := rfl
@[simp] theorem State.failedWith_arg3 (s : State) (code : BitVec 4) : (s.failedWith code).arg3 = s.arg3 := rfl
@[simp] theorem State.failedWith_arg4 (s : State) (code : BitVec 4) : (s.failedWith code).arg4 = s.arg4 := rfl
@[simp] theorem State.failedWith_res0 (s : State) (code : BitVec 4) : (s.failedWith code).res0 = 0#32 := rfl
@[simp] theorem State.failedWith_res1 (s : State) (code : BitVec 4) : (s.failedWith code).res1 = 0#32 := rfl
@[simp] theorem State.failedWith_synd (s : State) (code : BitVec 4) : (s.failedWith code).synd = s.synd := rfl
@[simp] theorem State.failedWith_tree (s : State) (code : BitVec 4) : (s.failedWith code).tree = s.tree := rfl
@[simp] theorem State.failedWith_code (s : State) (code : BitVec 4) : (s.failedWith code).code = s.code := rfl
@[simp] theorem State.failedWith_latch (s : State) (code : BitVec 4) : (s.failedWith code).latch = s.latch := rfl
@[simp] theorem State.failedWith_inReset (s : State) (code : BitVec 4) : (s.failedWith code).inReset = s.inReset := rfl
@[simp] theorem State.failedWith_mem (s : State) (code : BitVec 4) : (s.failedWith code).mem = s.mem := rfl
@[simp] theorem State.failedWith_pending (s : State) (code : BitVec 4) : (s.failedWith code).pending = s.pending := rfl
@[simp] theorem State.failedWith_response (s : State) (code : BitVec 4) : (s.failedWith code).response = s.response := rfl
@[simp] theorem State.failedWith_delay (s : State) (code : BitVec 4) : (s.failedWith code).delay = s.delay := rfl
@[simp] theorem State.failedWith_issues (s : State) (code : BitVec 4) : (s.failedWith code).issues = s.issues := rfl
@[simp] theorem State.failedWith_memEpoch (s : State) (code : BitVec 4) : (s.failedWith code).memEpoch = s.memEpoch := rfl
@[simp] theorem State.failedWith_codeChanges (s : State) (code : BitVec 4) : (s.failedWith code).codeChanges = s.codeChanges := rfl

@[simp] theorem State.succeededWith_params (s : State) (m : List Host.Cell) (r0 r1 : Word) : (s.succeededWith m r0 r1).params = s.params := rfl
@[simp] theorem State.succeededWith_ie (s : State) (m : List Host.Cell) (r0 r1 : Word) : (s.succeededWith m r0 r1).ie = s.ie := rfl
@[simp] theorem State.succeededWith_engine (s : State) (m : List Host.Cell) (r0 r1 : Word) : (s.succeededWith m r0 r1).engine = .idle := rfl
@[simp] theorem State.succeededWith_done (s : State) (m : List Host.Cell) (r0 r1 : Word) : (s.succeededWith m r0 r1).done = true := rfl
@[simp] theorem State.succeededWith_err (s : State) (m : List Host.Cell) (r0 r1 : Word) : (s.succeededWith m r0 r1).err = s.err := rfl
@[simp] theorem State.succeededWith_cmdOvr (s : State) (m : List Host.Cell) (r0 r1 : Word) : (s.succeededWith m r0 r1).cmdOvr = s.cmdOvr := rfl
@[simp] theorem State.succeededWith_errCode (s : State) (m : List Host.Cell) (r0 r1 : Word) : (s.succeededWith m r0 r1).errCode = s.errCode := rfl
@[simp] theorem State.succeededWith_treeValid (s : State) (m : List Host.Cell) (r0 r1 : Word) : (s.succeededWith m r0 r1).treeValid = s.treeValid := rfl
@[simp] theorem State.succeededWith_codeValid (s : State) (m : List Host.Cell) (r0 r1 : Word) : (s.succeededWith m r0 r1).codeValid = s.codeValid := rfl
@[simp] theorem State.succeededWith_gValid (s : State) (m : List Host.Cell) (r0 r1 : Word) : (s.succeededWith m r0 r1).gValid = s.gValid := rfl
@[simp] theorem State.succeededWith_unc (s : State) (m : List Host.Cell) (r0 r1 : Word) : (s.succeededWith m r0 r1).unc = s.unc := rfl
@[simp] theorem State.succeededWith_arg0 (s : State) (m : List Host.Cell) (r0 r1 : Word) : (s.succeededWith m r0 r1).arg0 = s.arg0 := rfl
@[simp] theorem State.succeededWith_arg1 (s : State) (m : List Host.Cell) (r0 r1 : Word) : (s.succeededWith m r0 r1).arg1 = s.arg1 := rfl
@[simp] theorem State.succeededWith_arg2 (s : State) (m : List Host.Cell) (r0 r1 : Word) : (s.succeededWith m r0 r1).arg2 = s.arg2 := rfl
@[simp] theorem State.succeededWith_arg3 (s : State) (m : List Host.Cell) (r0 r1 : Word) : (s.succeededWith m r0 r1).arg3 = s.arg3 := rfl
@[simp] theorem State.succeededWith_arg4 (s : State) (m : List Host.Cell) (r0 r1 : Word) : (s.succeededWith m r0 r1).arg4 = s.arg4 := rfl
@[simp] theorem State.succeededWith_res0 (s : State) (m : List Host.Cell) (r0 r1 : Word) : (s.succeededWith m r0 r1).res0 = r0 := rfl
@[simp] theorem State.succeededWith_res1 (s : State) (m : List Host.Cell) (r0 r1 : Word) : (s.succeededWith m r0 r1).res1 = r1 := rfl
@[simp] theorem State.succeededWith_synd (s : State) (m : List Host.Cell) (r0 r1 : Word) : (s.succeededWith m r0 r1).synd = s.synd := rfl
@[simp] theorem State.succeededWith_tree (s : State) (m : List Host.Cell) (r0 r1 : Word) : (s.succeededWith m r0 r1).tree = s.tree := rfl
@[simp] theorem State.succeededWith_code (s : State) (m : List Host.Cell) (r0 r1 : Word) : (s.succeededWith m r0 r1).code = s.code := rfl
@[simp] theorem State.succeededWith_latch (s : State) (m : List Host.Cell) (r0 r1 : Word) : (s.succeededWith m r0 r1).latch = s.latch := rfl
@[simp] theorem State.succeededWith_inReset (s : State) (m : List Host.Cell) (r0 r1 : Word) : (s.succeededWith m r0 r1).inReset = s.inReset := rfl
@[simp] theorem State.succeededWith_mem (s : State) (m : List Host.Cell) (r0 r1 : Word) : (s.succeededWith m r0 r1).mem = m := rfl
@[simp] theorem State.succeededWith_pending (s : State) (m : List Host.Cell) (r0 r1 : Word) : (s.succeededWith m r0 r1).pending = s.pending := rfl
@[simp] theorem State.succeededWith_response (s : State) (m : List Host.Cell) (r0 r1 : Word) : (s.succeededWith m r0 r1).response = s.response := rfl
@[simp] theorem State.succeededWith_delay (s : State) (m : List Host.Cell) (r0 r1 : Word) : (s.succeededWith m r0 r1).delay = s.delay := rfl
@[simp] theorem State.succeededWith_issues (s : State) (m : List Host.Cell) (r0 r1 : Word) : (s.succeededWith m r0 r1).issues = s.issues := rfl
@[simp] theorem State.succeededWith_memEpoch (s : State) (m : List Host.Cell) (r0 r1 : Word) : (s.succeededWith m r0 r1).memEpoch = s.memEpoch := rfl
@[simp] theorem State.succeededWith_codeChanges (s : State) (m : List Host.Cell) (r0 r1 : Word) : (s.succeededWith m r0 r1).codeChanges = s.codeChanges := rfl

/-! ### From a result to a state -/

/-- A command whose result is an error completes with it (30_encoding.md R312, 60_exceptions.md R820). -/
theorem exec_error {i : Instr} {s : State} {c : ErrorCode} (h : resultOf i s = .error c) :
    exec i s = .next (s.failedWith c.number) := by
  rw [exec_eq, h]
  rfl

/-- A command that writes DMEM and the results only completes with them (30_encoding.md R312). -/
theorem exec_ok_plain {i : Instr} {s : State} {ws : List (Nat × List Byte)} {r0 r1 : Word}
    (h : resultOf i s = .ok { writes := ws, res0 := r0, res1 := r1 }) :
    exec i s = .next (s.succeededWith (Memory.writeAll s.mem ws) r0 r1) := by
  rw [exec_eq, h]
  simp [State.complete, State.commit, State.finish, State.succeededWith]

/-- Any successful result. -/
theorem exec_ok {i : Instr} {s : State} {e : Effects} (h : resultOf i s = .ok e) :
    exec i s = .next (s.commit e).finish := by
  rw [exec_eq, h]
  rfl

/-- A state whose memory is one write over the old one stores exactly the written bytes. -/
theorem storedFrom_write {s t : State} {a : Nat} {bs : List Byte} (h : t.mem = Memory.write s.mem a bs)
    (he : t.memEpoch = s.memEpoch) : s.storedFrom t a bs := by
  intro x
  rw [← State.readByte_write s a bs x]
  unfold State.readByte
  rw [h, he]

/-- A state whose memory is two writes over the old one: the later write wins (R214). -/
theorem readByte_two_writes {s t : State} {a b : Nat} {cs bs : List Byte}
    (h : t.mem = Memory.write (Memory.write s.mem a cs) b bs) (he : t.memEpoch = s.memEpoch) (x : Nat) :
    t.readByte x = if b ≤ x ∧ x < b + bs.length then bs.getD (x - b) 0#8
      else if a ≤ x ∧ x < a + cs.length then cs.getD (x - a) 0#8 else s.readByte x := by
  have h1 : State.readByte { s with mem := Memory.write (Memory.write s.mem a cs) b bs } x = _ :=
    State.readByte_write { s with mem := Memory.write s.mem a cs } b bs x
  have h2 := State.readByte_write s a cs x
  rw [h2] at h1
  rw [← h1]
  unfold State.readByte
  rw [h, he]

/-- Number `i` of consecutive big-endian 32-bit numbers. -/
theorem beWords_getD {n i : Nat} (bs : List Byte) (h : i < n) :
    (beWords n bs).getD i 0 = beNumber ((bs.drop (4 * i)).take 4) := by
  induction n generalizing bs i with
  | zero => omega
  | succ n ih =>
    cases i with
    | zero => rfl
    | succ i =>
      simp only [beWords, List.getD_cons_succ]
      rw [ih _ (by omega), List.drop_drop, show 4 + 4 * i = 4 * (i + 1) by omega]

/-- Four of the bytes a command reads are the 32-bit number at their offset (R209). -/
theorem beNumber_bytesRead {s : State} (h : Memory.wf s.mem = true) {a i n : Nat} (hi : 4 * i + 4 ≤ n) :
    beNumber (((s.bytesRead a n).drop (4 * i)).take 4) = s.word32 (a + 4 * i) := by
  rw [State.bytesRead_eq s h, State.word32]
  congr 1
  apply List.ext_getElem
  · simp; omega
  · intro j h1 h2
    simp only [List.getElem_take, List.getElem_drop, List.getElem_map, List.getElem_range]
    have : j = 0 ∨ j = 1 ∨ j = 2 ∨ j = 3 := by simp at h2; omega
    rcases this with rfl | rfl | rfl | rfl <;> rfl

/-- `ReadTable(a)` is the table that stands at `a` (R401, R209). -/
theorem readTable_of_tableAt {s : State} (h : Memory.wf s.mem = true) {a : Nat} {f : FreqTable} (hf : s.tableAt a f) :
    s.readTable a = f := by
  unfold State.readTable
  obtain ⟨h1, h2⟩ := hf
  apply List.ext_getElem
  · simp [h1]
  · intro i hi hi'
    have hi2 : i < 256 := by simpa using hi
    have e1 := beWords_getD (s.bytesRead a tableBytes) hi2
    have e2 := h2 i hi2
    rw [beNumber_bytesRead h (by simp only [tableBytes]; omega), ← e2] at e1
    rw [List.getD_eq_getElem _ _ hi, FreqTable.count, List.getD_eq_getElem _ _ hi'] at e1
    exact e1

/-- The table a command reads at `a` is the table that stands there (R401, R209). -/
theorem tableAt_readTable {s : State} (h : Memory.wf s.mem = true) (a : Nat) : s.tableAt a (s.readTable a) := by
  refine ⟨by simp [State.readTable], fun symbol hs => ?_⟩
  rw [FreqTable.count, State.readTable, beWords_getD _ hs]
  exact beNumber_bytesRead h (by simp only [tableBytes]; omega)

end Sys2Proof.Machine
end

