-- ==== Sys2Proof/Laws/Decode.lean ====
section
/-! SUPPORT. The fields of a command word: taking a word apart and putting it together are inverse (30_encoding.md R300), and no
two rows of the opcode map overlap (R303). -/

namespace Sys2Proof

theorem extract_high (x : BitVec 16) (y z : Byte) : ((x ++ y) ++ z).extractLsb' 16 16 = x := by
  ext i hi
  rw [BitVec.getElem_extractLsb', BitVec.getLsbD_append, BitVec.getLsbD_append]
  simp [show ¬ (16 + i < 8) by omega, show ¬ (16 + i - 8 < 8) by omega, show 16 + i - 8 - 8 = i by omega,
    BitVec.getLsbD_eq_getElem hi]

theorem extract_middle (x : BitVec 16) (y z : Byte) : ((x ++ y) ++ z).extractLsb' 8 8 = y := by
  ext i hi
  rw [BitVec.getElem_extractLsb', BitVec.getLsbD_append, BitVec.getLsbD_append]
  simp [show ¬ (8 + i < 8) by omega, show 8 + i - 8 = i by omega, hi]

theorem extract_low (x : BitVec 16) (y z : Byte) : ((x ++ y) ++ z).extractLsb' 0 8 = z := by
  ext i hi
  rw [BitVec.getElem_extractLsb', BitVec.getLsbD_append, BitVec.getLsbD_append]
  simp [hi]

/-- The fields of the word with the fields `f` are `f`. -/
@[simp] theorem CommandFields.ofWord_toWord (f : CommandFields) : CommandFields.ofWord f.toWord = f := by
  simp only [CommandFields.ofWord, CommandFields.toWord, extract_high, extract_middle, extract_low]

/-- The word with the fields of `w` is `w`. -/
@[simp] theorem CommandFields.toWord_ofWord (w : Word) : (CommandFields.ofWord w).toWord = w := by
  simp only [CommandFields.ofWord, CommandFields.toWord]
  ext i hi
  rw [BitVec.getElem_append]
  split
  · rw [BitVec.getElem_extractLsb', Nat.zero_add, BitVec.getLsbD_eq_getElem hi]
  · rw [BitVec.getElem_append]
    split
    · rw [BitVec.getElem_extractLsb', show 8 + (i - 8) = i by omega, BitVec.getLsbD_eq_getElem hi]
    · rw [BitVec.getElem_extractLsb', show 16 + (i - 8 - 8) = i by omega, BitVec.getLsbD_eq_getElem hi]

/-- No two rows of the opcode map have the same opcode (R303). -/
theorem opcodeMap_pairwise : opcodeMap.Pairwise (fun a b => a.opc ≠ b.opc) := by decide

end Sys2Proof
end

