-- ==== Sys2Proof/Laws/Huffman.lean ====
section
/-! SUPPORT. The laws of the Huffman tree (41_huffman.md R402, R403): what the builder keeps while it merges, the shape of the
tree it makes, and how a codeword leads from the root to its leaf. -/

namespace Sys2Proof.Machine

/-! ### Following a path -/

/-- The node a path leads to. -/
def Node.follow (node : Node) (path : Bits) : Node := path.foldl Node.child node

@[simp] theorem Node.follow_nil (node : Node) : node.follow [] = node := rfl

@[simp] theorem Node.follow_cons (node : Node) (bit : Bool) (path : Bits) :
    node.follow (bit :: path) = (node.child bit).follow path := rfl

theorem Node.follow_append (node : Node) (p q : Bits) : node.follow (p ++ q) = (node.follow p).follow q := by
  simp [Node.follow]

theorem Node.follow_absent (path : Bits) : Node.absent.follow path = .absent := by
  induction path with
  | nil => rfl
  | cons bit path ih => simpa [Node.child] using ih

theorem Node.follow_leaf {symbol : Byte} {path : Bits} (h : path ≠ []) : (Node.leaf symbol).follow path = .absent := by
  cases path with
  | nil => exact absurd rfl h
  | cons bit path => simp [Node.child, Node.follow_absent]

/-- A codeword leads to its leaf (R403). -/
theorem Node.follow_codeword {node : Node} {x : Byte} {c : Bits} (h : node.codeword x = some c) : node.follow c = .leaf x := by
  induction node generalizing c with
  | absent => cases h
  | leaf symbol =>
    simp only [Node.codeword] at h
    split at h
    · injection h with h
      subst h
      simp_all
    · cases h
  | internal left right ihl ihr =>
    simp only [Node.codeword] at h
    split at h
    · rename_i path hp
      injection h with h
      subst h
      simpa [Node.child] using ihr hp
    · simp only [Option.map_eq_some_iff] at h
      obtain ⟨path, hp, rfl⟩ := h
      simpa [Node.child] using ihl hp

/-- A symbol has a codeword exactly when it is a leaf's symbol (R403). -/
theorem Node.codeword_isSome_iff (node : Node) (x : Byte) : (node.codeword x).isSome ↔ x ∈ node.symbols := by
  induction node with
  | absent => simp [Node.codeword, Node.symbols]
  | leaf symbol => simp only [Node.codeword, Node.symbols]; split <;> simp_all
  | internal left right ihl ihr =>
    simp only [Node.codeword, Node.symbols, List.mem_append, ← ihl, ← ihr]
    cases right.codeword x <;> simp

/-- A path to a leaf is the codeword of its symbol, where the symbols are distinct (R403). -/
theorem Node.codeword_of_follow {node : Node} {x : Byte} {path : Bits} (hn : node.symbols.Nodup)
    (h : node.follow path = .leaf x) : node.codeword x = some path := by
  induction node generalizing path with
  | absent => rw [Node.follow_absent] at h; cases h
  | leaf symbol =>
    by_cases hp : path = []
    · subst hp
      injection h with h
      simp [Node.codeword, h]
    · rw [Node.follow_leaf hp] at h; cases h
  | internal left right ihl ihr =>
    simp only [Node.symbols, List.nodup_append] at hn
    cases path with
    | nil => cases h
    | cons bit path =>
      cases bit with
      | true =>
        simp only [Node.codeword, ihr hn.2.1 (by simpa [Node.child] using h)]
      | false =>
        have hl := ihl hn.1 (by simpa [Node.child] using h)
        have hx : x ∈ left.symbols := by rw [← Node.codeword_isSome_iff, hl]; rfl
        have hr : right.codeword x = none := by
          rw [← Option.not_isSome_iff_eq_none, Node.codeword_isSome_iff]
          exact fun hr => hn.2.2 x hx x hr rfl
        simp [Node.codeword, hl, hr]

/-! ### Full subtrees -/

theorem Node.symbols_ne_nil {node : Node} (h : node.full = true) : node.symbols ≠ [] := by
  induction node with
  | absent => cases h
  | leaf symbol => simp [Node.symbols]
  | internal left right ihl ihr =>
    simp only [Node.full, Bool.and_eq_true] at h
    simp [Node.symbols, ihl h.1]

/-- In a full subtree a codeword is shorter than the number of leaves (R8, R403). -/
theorem Node.codeword_length_lt {node : Node} (h : node.full = true) {x : Byte} {c : Bits} (hc : node.codeword x = some c) :
    c.length < node.symbols.length := by
  induction node generalizing c with
  | absent => cases hc
  | leaf symbol =>
    simp only [Node.codeword] at hc
    split at hc
    · injection hc with hc; subst hc; simp [Node.symbols]
    · cases hc
  | internal left right ihl ihr =>
    simp only [Node.full, Bool.and_eq_true] at h
    have hl := List.length_pos_iff.2 (Node.symbols_ne_nil h.1)
    have hr := List.length_pos_iff.2 (Node.symbols_ne_nil h.2)
    simp only [Node.symbols, List.length_append]
    simp only [Node.codeword] at hc
    split at hc
    · rename_i path hp
      injection hc with hc
      subst hc
      have := ihr h.2 hp
      simp only [List.length_cons]
      omega
    · simp only [Option.map_eq_some_iff] at hc
      obtain ⟨path, hp, rfl⟩ := hc
      have := ihl h.1 hp
      simp only [List.length_cons]
      omega

/-- A list of distinct symbols has at most 256. -/
theorem symbols_length_le {l : List Byte} (h : l.Nodup) : l.length ≤ 256 := by
  have : (l.map BitVec.toFin).Nodup := h.map (fun a b hab => BitVec.eq_of_toFin_eq hab)
  simpa using List.Nodup.length_le_card this

/-! ### The builder -/

/-- Extracting the least item takes one item out of the set (R402). -/
theorem extractLeast_perm (best : QueueItem) (rest : List QueueItem) :
    ((extractLeast best rest).1 :: (extractLeast best rest).2).Perm (best :: rest) := by
  induction rest generalizing best with
  | nil => exact .refl _
  | cons x rest ih =>
    unfold extractLeast
    split
    · exact (List.Perm.swap _ _ _).trans ((ih x).cons best)
    · exact (List.Perm.swap _ _ _).trans (((ih best).cons x).trans (List.Perm.swap _ _ _))

/-- The extracted item is the least by (weight, seq): no other item lies before it (R402). -/
theorem extractLeast_least (best : QueueItem) (rest : List QueueItem) :
    ∀ x ∈ (extractLeast best rest).2, x.before (extractLeast best rest).1 = false := by
  have trans : ∀ a b c : QueueItem, a.before b = false → b.before c = false → a.before c = false := by
    intro a b c hab hbc
    simp only [QueueItem.before, Bool.or_eq_false_iff, Bool.and_eq_false_iff, decide_eq_false_iff_not] at *
    omega
  have total : ∀ a b : QueueItem, a.before b = true → b.before a = false := by
    intro a b hab
    simp only [QueueItem.before, Bool.or_eq_false_iff, Bool.and_eq_false_iff, decide_eq_false_iff_not, Bool.or_eq_true,
      Bool.and_eq_true, decide_eq_true_eq] at *
    omega
  -- the extracted item is not above the item the search starts with
  have start : ∀ (rest : List QueueItem) (best : QueueItem), best.before (extractLeast best rest).1 = false := by
    intro rest
    induction rest with
    | nil =>
      intro best
      simp [extractLeast, QueueItem.before]
    | cons x rest ih =>
      intro best
      unfold extractLeast
      split
      · rename_i hx
        exact trans _ _ _ (total _ _ hx) (ih x)
      · exact ih best
  induction rest generalizing best with
  | nil => simp [extractLeast]
  | cons x rest ih =>
    intro y hy
    unfold extractLeast at hy ⊢
    split at hy
    · rename_i hx
      rw [if_pos hx]
      rcases List.mem_cons.1 hy with rfl | hy
      · exact trans _ _ _ (total _ _ hx) (start rest x)
      · exact ih x y hy
    · rename_i hx
      rw [if_neg hx]
      rcases List.mem_cons.1 hy with rfl | hy
      · exact trans _ _ _ (by simpa using hx) (start rest best)
      · exact ih best y hy

/-- The symbols of all items of a set. -/
def itemSymbols (q : List QueueItem) : List Byte := q.flatMap (fun item => item.node.symbols)

/-- What the builder's loop keeps (R402): it ends with one item, which holds the symbols of all items and is full if all were. -/
theorem mergeLoop_spec (fuel next : Nat) (q : List QueueItem) (hq : q ≠ []) (hf : q.length ≤ fuel + 1)
    (hfull : ∀ item ∈ q, item.node.full = true) :
    ∃ item, mergeLoop fuel next q = [item] ∧ item.node.full = true ∧ item.node.symbols.Perm (itemSymbols q) := by
  induction fuel generalizing next q with
  | zero =>
    match q, hq, hf with
    | [x], _, _ => exact ⟨x, rfl, hfull x (by simp), by simp [itemSymbols]⟩
    | x :: y :: rest, _, hf => simp at hf
  | succ fuel ih =>
    match q, hq, hf with
    | [x], _, _ => exact ⟨x, rfl, hfull x (by simp), by simp [itemSymbols]⟩
    | x :: y :: rest, _, hf =>
      have h1 := extractLeast_perm x (y :: rest)
      simp only [mergeLoop]
      generalize extractLeast x (y :: rest) = first at h1 ⊢
      have l1 := h1.length_eq
      split
      · rename_i hnil
        rw [hnil] at l1
        simp at l1
      · rename_i z others hcons
        have h2 := extractLeast_perm z others
        generalize extractLeast z others = second at h2 ⊢
        have l2 := h2.length_eq
        rw [hcons] at h1 l1
        have h3 : (first.1 :: second.1 :: second.2).Perm (x :: y :: rest) := (h2.cons first.1).trans h1
        have hfull' : ∀ item ∈ first.1 :: second.1 :: second.2, item.node.full = true :=
          fun item hi => hfull item (h3.mem_iff.1 hi)
        obtain ⟨item, hi, hif, his⟩ := ih (next + 1) (mergeItems first.1 second.1 next :: second.2) (by simp)
          (by simp only [List.length_cons] at l1 l2 hf ⊢; omega)
          (by
            intro item hitem
            rcases List.mem_cons.1 hitem with rfl | hitem
            · simp [mergeItems, Node.full, hfull' first.1 (by simp), hfull' second.1 (by simp)]
            · exact hfull' item (by simp [hitem]))
        refine ⟨item, hi, hif, his.trans ?_⟩
        have : itemSymbols (mergeItems first.1 second.1 next :: second.2) = itemSymbols (first.1 :: second.1 :: second.2) := by
          simp [itemSymbols, mergeItems, Node.symbols]
        rw [this]
        exact h3.flatMap_right _

/-- The symbols of the alphabet as bytes. -/
def alphabetBytes (f : FreqTable) : List Byte := (alphabet f).map (BitVec.ofNat 8)

theorem mem_alphabet {f : FreqTable} {symbol : Nat} : symbol ∈ alphabet f ↔ symbol < 256 ∧ 0 < f.count symbol := by
  simp [alphabet]

theorem alphabet_nodup (f : FreqTable) : (alphabet f).Nodup := List.nodup_range.filter _

theorem mem_alphabetBytes {f : FreqTable} {x : Byte} : x ∈ alphabetBytes f ↔ 0 < f.count x.toNat := by
  simp only [alphabetBytes, List.mem_map, mem_alphabet]
  constructor
  · rintro ⟨symbol, ⟨h1, h2⟩, rfl⟩
    simpa [Nat.mod_eq_of_lt h1] using h2
  · intro h
    exact ⟨x.toNat, ⟨x.isLt, h⟩, by simp⟩

theorem alphabetBytes_nodup (f : FreqTable) : (alphabetBytes f).Nodup := by
  refine List.Nodup.map_on ?_ (alphabet_nodup f)
  intro a ha b hb hab
  have ha := (mem_alphabet.1 ha).1
  have hb := (mem_alphabet.1 hb).1
  have := congrArg BitVec.toNat hab
  simpa [Nat.mod_eq_of_lt ha, Nat.mod_eq_of_lt hb] using this

theorem itemSymbols_initialQueue (f : FreqTable) : itemSymbols (initialQueue f) = alphabetBytes f := by
  unfold itemSymbols initialQueue alphabetBytes
  rw [List.flatMap_map]
  simp only [Node.symbols]
  rw [← List.map_eq_flatMap]
  show (alphabet f).zipIdx.map (BitVec.ofNat 8 ∘ Prod.fst) = _
  rw [← List.map_map, List.zipIdx_map_fst]

/-- The trees the builder makes (R130, R402): the Empty tree exactly for an empty alphabet, the single-symbol wrapper exactly
for one symbol, and otherwise a full tree whose leaves are the alphabet. -/
theorem buildTree_cases (f : FreqTable) :
    (alphabet f = [] ∧ buildTree f = .empty) ∨
    (∃ symbol, alphabet f = [symbol] ∧ buildTree f = .root (.internal (.leaf (BitVec.ofNat 8 symbol)) .absent)) ∨
    (∃ left right, buildTree f = .root (.internal left right) ∧ left.full = true ∧ right.full = true
      ∧ (left.symbols ++ right.symbols).Perm (alphabetBytes f)) := by
  unfold buildTree
  split
  · rename_i h; exact .inl ⟨h, rfl⟩
  · rename_i symbol h; exact .inr (.inl ⟨symbol, h, rfl⟩)
  · rename_i h1 h2
    refine .inr (.inr ?_)
    have hlen : 2 ≤ (alphabet f).length := by
      match hq : alphabet f with
      | [] => exact absurd hq h1
      | [symbol] => exact absurd hq (h2 symbol)
      | _ :: _ :: _ => simp
    have hl : (initialQueue f).length = (alphabet f).length := by simp [initialQueue]
    obtain ⟨item, hi, hif, his⟩ := mergeLoop_spec (alphabet f).length (alphabet f).length (initialQueue f)
      (by intro h; rw [h] at hl; simp at hl; omega) (by omega)
      (by
        intro item hitem
        simp only [initialQueue, List.mem_map] at hitem
        obtain ⟨e, _, rfl⟩ := hitem
        rfl)
    rw [itemSymbols_initialQueue] at his
    have hs : 2 ≤ item.node.symbols.length := by rw [his.length_eq]; simpa [alphabetBytes] using hlen
    rw [hi]
    cases hn : item.node with
    | absent => rw [hn] at hif; cases hif
    | leaf symbol => rw [hn] at hs; simp [Node.symbols] at hs
    | internal left right =>
      rw [hn] at hif his
      simp only [Node.full, Bool.and_eq_true] at hif
      exact ⟨left, right, by simp [hn], hif.1, hif.2, his⟩

/-! ### The statement forms of R402 and R403 -/

/-- A path leads to a leaf exactly when following it ends there (R403). -/
theorem Node.leafAt_iff_follow (node : Node) (path : Bits) (x : Byte) : node.LeafAt path x ↔ node.follow path = .leaf x := by
  constructor
  · intro h
    induction h with
    | here symbol => rfl
    | left l r path symbol below ih => simpa [Node.child] using ih
    | right l r path symbol below ih => simpa [Node.child] using ih
  · intro h
    induction path generalizing node with
    | nil => rw [Node.follow_nil] at h; rw [h]; exact .here x
    | cons bit path ih =>
      cases node with
      | absent => rw [Node.follow_absent] at h; cases h
      | leaf symbol => rw [Node.follow_leaf (by simp)] at h; cases h
      | internal l r =>
        cases bit with
        | false => exact .left l r path x (ih l (by simpa [Node.child] using h))
        | true => exact .right l r path x (ih r (by simpa [Node.child] using h))

/-- Where sequence numbers are distinct, an item that no other lies before is strictly the least (R402). -/
theorem QueueItem.least_of_not_before {a x : QueueItem} (h : x.before a = false) (hs : a.seq ≠ x.seq) :
    a.weight < x.weight ∨ (a.weight = x.weight ∧ a.seq < x.seq) := by
  simp only [QueueItem.before, Bool.or_eq_false_iff, Bool.and_eq_false_iff, decide_eq_false_iff_not] at h
  omega

/-- The builder's loop merges as R402 says, where the sequence numbers are distinct and below the next one. -/
theorem mergeLoop_mergesTo (fuel next : Nat) (q : List QueueItem) (hq : q ≠ []) (hf : q.length ≤ fuel + 1)
    (hs : (q.map QueueItem.seq).Nodup) (hn : ∀ item ∈ q, item.seq < next) :
    ∃ item, mergeLoop fuel next q = [item] ∧ MergesTo next q item.node := by
  induction fuel generalizing next q with
  | zero =>
    match q, hq, hf with
    | [x], _, _ => exact ⟨x, rfl, .done next x⟩
    | x :: y :: rest, _, hf => simp at hf
  | succ fuel ih =>
    match q, hq, hf with
    | [x], _, _ => exact ⟨x, rfl, .done next x⟩
    | x :: y :: rest, _, hf =>
      have h1 := extractLeast_perm x (y :: rest)
      have e1 := extractLeast_least x (y :: rest)
      simp only [mergeLoop]
      generalize extractLeast x (y :: rest) = first at h1 e1 ⊢
      have l1 := h1.length_eq
      split
      · rename_i hnil
        rw [hnil] at l1
        simp at l1
      · rename_i z others hcons
        have h2 := extractLeast_perm z others
        have e2 := extractLeast_least z others
        generalize extractLeast z others = second at h2 e2 ⊢
        have l2 := h2.length_eq
        rw [hcons] at h1 l1 e1
        have h3 : (first.1 :: second.1 :: second.2).Perm (x :: y :: rest) := (h2.cons first.1).trans h1
        have hs' : ((first.1 :: second.1 :: second.2).map QueueItem.seq).Nodup := ((h3.map _).nodup_iff).2 hs
        have hn' : ∀ item ∈ first.1 :: second.1 :: second.2, item.seq < next := fun item hi => hn item (h3.mem_iff.1 hi)
        simp only [List.map_cons, List.nodup_cons, List.mem_cons, List.mem_map, not_or, not_exists, not_and] at hs'
        obtain ⟨⟨n1, n2⟩, n3, n4⟩ := hs'
        obtain ⟨item, hi, hm⟩ := ih (next + 1) (mergeItems first.1 second.1 next :: second.2) (by simp)
          (by simp only [List.length_cons] at l1 l2 hf ⊢; omega)
          (by
            simp only [List.map_cons, List.nodup_cons, List.mem_map, not_exists, not_and]
            exact ⟨fun w hw h => absurd (hn' w (by simp [hw])) (by rw [h]; simp [mergeItems]), n4⟩)
          (by
            intro item hitem
            rcases List.mem_cons.1 hitem with rfl | hitem
            · simp [mergeItems]
            · exact Nat.lt_succ_of_lt (hn' item (by simp [hitem])))
        refine ⟨item, hi, .merge next _ second.2 first.1 second.1 item.node h3.symm ?_ ?_ hm⟩
        · intro w hw
          refine QueueItem.least_of_not_before (e1 w (h2.mem_iff.1 hw)) ?_
          rcases List.mem_cons.1 hw with rfl | hw
          · exact n1
          · exact fun h => n2 w hw h.symm
        · exact fun w hw => QueueItem.least_of_not_before (e2 w hw) (fun h => n3 w hw h.symm)

/-- With two or more symbols the builder merges the leaves of the alphabet (R402). -/
theorem buildTree_mergesTo (f : FreqTable) (h : 2 ≤ (alphabet f).length) :
    ∃ root, buildTree f = .root root ∧ MergesTo (alphabet f).length (initialQueue f) root := by
  have hl : (initialQueue f).length = (alphabet f).length := by simp [initialQueue]
  have hseq : (initialQueue f).map QueueItem.seq = List.range (alphabet f).length := by
    simp only [initialQueue, List.map_map]
    show (alphabet f).zipIdx.map Prod.snd = _
    rw [List.zipIdx_map_snd, List.range_eq_range']
  obtain ⟨item, hi, hm⟩ := mergeLoop_mergesTo (alphabet f).length (alphabet f).length (initialQueue f)
    (by intro h'; rw [h'] at hl; simp at hl; omega) (by omega) (by rw [hseq]; exact List.nodup_range)
    (by
      intro item hitem
      have := List.mem_map_of_mem (f := QueueItem.seq) hitem
      rw [hseq] at this
      exact List.mem_range.1 this)
  refine ⟨item.node, ?_, hm⟩
  unfold buildTree
  split
  · rename_i h'; rw [h'] at h; simp at h
  · rename_i h'; rw [h'] at h; simp at h
  · rw [hi]
end Sys2Proof.Machine
end

