-- ==== Sys2Proof/Laws/PerInstr.lean ====
section
/-! SUPPORT. Statements for all commands, one lemma per constructor of Instr. -/

namespace Sys2Proof.Laws

/-- The word of a command is none of the illegal words of 30_encoding.md R304. -/
def EncodesLegally.Statement (i : Instr) : Prop := (CommandFields.ofWord (encode i)).wellFormed = true

namespace EncodesLegally

theorem nop : Statement .nop := by unfold Statement; decide
theorem hfreq : Statement .hfreq := by unfold Statement; decide
theorem hbuild : Statement .hbuild := by unfold Statement; decide
theorem henc : Statement .henc := by unfold Statement; decide
theorem hdec : Statement .hdec := by unfold Statement; decide
theorem hcomp : Statement .hcomp := by unfold Statement; decide
theorem hdecomp : Statement .hdecomp := by unfold Statement; decide
theorem hcode (symbol : Byte) : Statement (.hcode symbol) := by
  unfold Statement encode
  rw [CommandFields.ofWord_toWord]
  rfl
theorem pack : Statement .pack := by unfold Statement; decide
theorem unpack : Statement .unpack := by unfold Statement; decide
theorem pad : Statement .pad := by unfold Statement; decide
theorem unpad : Statement .unpad := by unfold Statement; decide
theorem lcgen : Statement .lcgen := by unfold Statement; decide
theorem lcloadh : Statement .lcloadh := by unfold Statement; decide
theorem lcstoreh : Statement .lcstoreh := by unfold Statement; decide
theorem lcstoreg : Statement .lcstoreg := by unfold Statement; decide
theorem lcenc : Statement .lcenc := by unfold Statement; decide
theorem lcdec : Statement .lcdec := by unfold Statement; decide
theorem lcencs : Statement .lcencs := by unfold Statement; decide
theorem lcdecs : Statement .lcdecs := by unfold Statement; decide
theorem lcsyn : Statement .lcsyn := by unfold Statement; decide

end EncodesLegally

end Sys2Proof.Laws
end

