-- ==== Sys2Proof/Tests/Slice0.lean ====
section
/-! SUPPORT. Tests of the model on single steps, with results from 95_test_vectors.md and hand calculation from the rules, and a
witness for the hypotheses of every obligation. -/

set_option Elab.async false

namespace Sys2Proof.Tests

open Sys2Proof Sys2Proof.Machine

/-! ### States to test on -/

/-- DMEM with the given bytes from an offset on. -/
def bytesAt (offset : Nat) (bytes : List Nat) : List Host.Cell := Memory.cells offset (bytes.map (BitVec.ofNat 8))

/-- A state whose engine runs the word `w` with the given operands. -/
def running (w src len dst aux aux2 : Word) (mem : List Host.Cell) : State :=
  { State.reset with
    engine := .busy, mem := mem, latch := { raw := w, src := src, len := len, dst := dst, aux := aux, aux2 := aux2 } }

/-- The state with the code LCGEN builds for (n, k). -/
def withCode (n k : Nat) (s : State) : State := { s with code := generateCode n k, codeValid := true, gValid := true }

/-- The state with a valid tree. -/
def withTree (t : CodeTree) (s : State) : State := { s with treeValid := true, tree := t }

/-- The tree of A:4 (R402 by hand). -/
def treeA : CodeTree := .root (.internal (.leaf 0x41#8) .absent)

/-- The tree of A:4 and B:3 (R402 by hand): B is extracted first. -/
def treeAB : CodeTree := .root (.internal (.leaf 0x42#8) (.leaf 0x41#8))

/-- The tree of A:5, B:5 and C:2 (95_test_vectors.md H6). -/
def treeABC : CodeTree := .root (.internal (.leaf 0x42#8) (.internal (.leaf 0x43#8) (.leaf 0x41#8)))

/-- The tree of A, B, C and D once each (95_test_vectors.md H23). -/
def treeABCD : CodeTree :=
  .root (.internal (.internal (.leaf 0x41#8) (.leaf 0x42#8)) (.internal (.leaf 0x43#8) (.leaf 0x44#8)))

/-- The bytes of a frequency table with a short count list. -/
def tableOf (counts : List (Nat × Nat)) : List Nat :=
  (List.range 256).flatMap (fun x => [0, 0, 0, ((counts.find? (fun e => e.1 == x)).map (fun e => e.2)).getD 0])

/-- A state whose host performs one access next. -/
def accessing (address bytes : Nat) (kind : AccessKind) (s : State) : State :=
  { s with pending := [.access { address := address, bytes := bytes, kind := kind }] }

/-- The state after one step. -/
def after (s : State) : State :=
  match step s with
  | .next t => t
  | .fault _ => s
  | .refused _ => s

/-- RES0, RES1 and ERRCODE. -/
def results (s : State) : Word × Word × BitVec 4 := (s.res0, s.res1, s.errCode)

/-- DMEM bytes as numbers. -/
def dump (s : State) (offset count : Nat) : List Nat := (s.bytesRead offset count).map (fun b => b.toNat)

/-! ### Ill-formed words (30_encoding.md R304) and parameters (00_scope.md R7) -/

theorem test_reserved_bits_refused : (CommandFields.ofWord 0x00010000#32).reservedClear = false := by decide
theorem test_reserved_bits_not_well_formed : (CommandFields.ofWord 0x80000005#32).wellFormed = false := by decide
theorem test_unmapped_opcode_refused :
    [0x08#32, 0x0F#32, 0x14#32, 0x1F#32, 0x29#32, 0xFF#32].all
      (fun w => !(CommandFields.ofWord w).opcodeMapped && !(CommandFields.ofWord w).wellFormed) = true := by decide
theorem test_immediate_refused : (CommandFields.ofWord 0x0103#32).immediateAllowed = false := by decide
theorem test_immediate_not_well_formed : (CommandFields.ofWord 0xFF00#32).wellFormed = false := by decide
theorem test_hcode_immediate_well_formed : (CommandFields.ofWord 0xFF07#32).wellFormed = true := by decide

theorem test_params_default_legal : Params.default.legal = true := by decide
theorem test_params_refused :
    [ { Params.default with nMax := 2 }, { Params.default with nMax := 65536 }, { Params.default with pMax := 1 },
      { Params.default with pMax := 17 }, { Params.default with dmemSize := 1020 }, { Params.default with dmemSize := 1026 },
      { Params.default with base := 4 } ].all (fun p => !p.legal) = true := by decide
theorem test_params_bounds_legal :
    [ { Params.default with nMax := 3 }, { Params.default with nMax := 65535 }, { Params.default with pMax := 2 },
      { Params.default with pMax := 16 }, { Params.default with dmemSize := 1024 },
      { Params.default with base := 0x20000 } ].all (fun p => p.legal) = true := by decide

/-! ### Decoding: words written out from R300 and R303 -/

theorem test_decode_nop : decode 0b00000000000000000000000000000000#32 = .ok .nop := by decide
theorem test_decode_hfreq : decode 0b00000000000000000000000000000001#32 = .ok .hfreq := by decide
theorem test_decode_hbuild : decode 0b00000000000000000000000000000010#32 = .ok .hbuild := by decide
theorem test_decode_henc : decode 0b00000000000000000000000000000011#32 = .ok .henc := by decide
theorem test_decode_hdec : decode 0b00000000000000000000000000000100#32 = .ok .hdec := by decide
theorem test_decode_hcomp : decode 0b00000000000000000000000000000101#32 = .ok .hcomp := by decide
theorem test_decode_hdecomp : decode 0b00000000000000000000000000000110#32 = .ok .hdecomp := by decide
theorem test_decode_hcode : decode 0b00000000000000001000000100000111#32 = .ok (.hcode 0x81#8) := by decide
theorem test_decode_pack : decode 0b00000000000000000000000000010000#32 = .ok .pack := by decide
theorem test_decode_unpack : decode 0b00000000000000000000000000010001#32 = .ok .unpack := by decide
theorem test_decode_pad : decode 0b00000000000000000000000000010010#32 = .ok .pad := by decide
theorem test_decode_unpad : decode 0b00000000000000000000000000010011#32 = .ok .unpad := by decide
theorem test_decode_lcgen : decode 0b00000000000000000000000000100000#32 = .ok .lcgen := by decide
theorem test_decode_lcloadh : decode 0b00000000000000000000000000100001#32 = .ok .lcloadh := by decide
theorem test_decode_lcstoreh : decode 0b00000000000000000000000000100010#32 = .ok .lcstoreh := by decide
theorem test_decode_lcstoreg : decode 0b00000000000000000000000000100011#32 = .ok .lcstoreg := by decide
theorem test_decode_lcenc : decode 0b00000000000000000000000000100100#32 = .ok .lcenc := by decide
theorem test_decode_lcdec : decode 0b00000000000000000000000000100101#32 = .ok .lcdec := by decide
theorem test_decode_lcencs : decode 0b00000000000000000000000000100110#32 = .ok .lcencs := by decide
theorem test_decode_lcdecs : decode 0b00000000000000000000000000100111#32 = .ok .lcdecs := by decide
theorem test_decode_lcsyn : decode 0b00000000000000000000000000101000#32 = .ok .lcsyn := by decide
theorem test_decode_illegal :
    decode 0x00010007#32 = .error .reservedBits ∧ decode 0x00000008#32 = .error .unmappedOpcode
      ∧ decode 0x00000103#32 = .error .immediateNotZero := by decide
theorem test_decode_table_word :
    decodeTableWord 32 0x4107 = some (.hcode 0x41#8) ∧ decodeTableWord 32 0x108 = none ∧ decodeTableWord 8 0x28 = some .lcsyn := by
  decide
theorem test_encode_hcode : encode (.hcode 0x41#8) = 0x00004107#32 := by decide

/-! ### Commands (95_test_vectors.md) -/

theorem test_nop : results (after (running 0x00 9 9 9 9 9 [])) = (0, 0, 0) := by decide +kernel

/-- H1. -/
theorem test_hfreq_counts :
    let t := after (running 0x01 0 7 0x100 0 0 (bytesAt 0 [0x41, 0x42, 0x41, 0x42, 0x41, 0x42, 0x41]))
    results t = (2, 0, 0) ∧ dump t 0x200 16 = [0, 0, 0, 0, 0, 0, 0, 4, 0, 0, 0, 3, 0, 0, 0, 0] := by decide +kernel
/-- H4: the table would end one byte past DMEM. -/
theorem test_hfreq_range : results (after (running 0x01 0 7 0xFC01 0 0 (bytesAt 0 [1, 1, 1, 1, 1, 1, 1]))) = (0, 0, 6) := by
  decide +kernel

/-- H6. -/
theorem test_hbuild_tree :
    let t := after (running 0x02 0 0 0 0x400 0 (bytesAt 0x400 (tableOf [(0x41, 5), (0x42, 5), (0x43, 2)])))
    results t = (3, 2, 0) ∧ t.treeValid = true ∧ t.tree.codeword 0x41#8 = some [true, true]
      ∧ t.tree.codeword 0x42#8 = some [false] ∧ t.tree.codeword 0x43#8 = some [true, false] := by decide +kernel
/-- H8: one symbol. -/
theorem test_hbuild_single :
    results (after (running 0x02 0 0 0 0x400 0 (bytesAt 0x400 (tableOf [(0x41, 9)])))) = (1, 1, 0) := by decide +kernel

/-- H10. -/
theorem test_henc_bits :
    let t := after (withTree treeAB (running 0x03 0x10 2 0x800 0 0 (bytesAt 0x10 [0x42, 0x41])))
    results t = (2, 0, 0) ∧ dump t 0x800 1 = [0x40] := by decide +kernel
/-- H11: a byte with no codeword. -/
theorem test_henc_invalid_code :
    results (after (withTree treeAB (running 0x03 0x10 2 0x800 0 0 (bytesAt 0x10 [0x42, 0x43])))) = (0, 0, 5) := by
  decide +kernel

/-- H13: four symbols of equal count, one dangling bit. -/
theorem test_hdec_dangling :
    let t := after (withTree treeABCD (running 0x04 0x20 5 0x30 0 0 (bytesAt 0x20 [0x18])))
    results t = (2, 1, 0) ∧ dump t 0x30 2 = [0x41, 0x42] := by decide +kernel
/-- H15: the single-symbol tree has no right child. -/
theorem test_hdec_absent_child :
    results (after (withTree treeA (running 0x04 0x20 1 0x30 0 0 (bytesAt 0x20 [0x80])))) = (0, 0, 5) := by decide +kernel

/-- H26: abracadabra. -/
theorem test_hcomp_abracadabra :
    let t := after (running 0x05 0 11 0x100 0x400 0
      (bytesAt 0 [0x61, 0x62, 0x72, 0x61, 0x63, 0x61, 0x64, 0x61, 0x62, 0x72, 0x61]))
    results t = (23, 5, 0) ∧ dump t 0x100 3 = [0x6E, 0x8A, 0xDC] ∧ dump t 0x584 8 = [0, 0, 0, 5, 0, 0, 0, 2] := by
  decide +kernel
/-- H20: no bytes. -/
theorem test_hcomp_empty :
    let t := after (running 0x05 0 0 0x100 0x400 0 [])
    results t = (0, 0, 0) ∧ t.treeValid = true ∧ t.tree = .empty := by decide +kernel

/-- H25, back. -/
theorem test_hdecomp_abcc :
    let t := after (running 0x06 0x100 6 0x200 0x400 0
      (bytesAt 0x100 [0xB0] ++ bytesAt 0x400 (tableOf [(0x41, 1), (0x42, 1), (0x43, 2)])))
    results t = (4, 0, 0) ∧ dump t 0x200 4 = [0x41, 0x42, 0x43, 0x43] := by decide +kernel
/-- A failed HDECOMP keeps the previous tree (R415). -/
theorem test_hdecomp_keeps_tree :
    let s := withTree treeAB
      (running 0x06 0x100 1 0x200 0x400 0 (bytesAt 0x100 [0x80] ++ bytesAt 0x400 (tableOf [(0x41, 1)])))
    results (after s) = (0, 0, 5) ∧ (after s).tree = s.tree := by decide +kernel

/-- H18. -/
theorem test_hcode_codeword :
    let t := after (withTree treeABC (running 0x4107 0 0 0x900 0 0 []))
    results t = (2, 0, 0) ∧ dump t 0x900 1 = [0xC0] := by decide +kernel
/-- H19: an absent symbol, with a destination outside DMEM. -/
theorem test_hcode_absent :
    results (after (withTree treeABC (running 0x5A07 0 0 0x10000 0 0 []))) = (0, 0, 0) := by decide +kernel

/-- B1. -/
theorem test_pack_cells :
    let t := after (running 0x10 0x20 10 0x30 0 0 (bytesAt 0x20 [1, 0, 1, 1, 0, 0, 1, 0, 1, 1]))
    results t = (2, 0, 0) ∧ dump t 0x30 2 = [0xB2, 0xC0] := by decide +kernel
/-- B3: a byte that is no cell. -/
theorem test_pack_bad_cell : results (after (running 0x10 0x20 3 0x30 0 0 (bytesAt 0x20 [1, 0, 2]))) = (0, 0, 1) := by
  decide +kernel

/-- B5. -/
theorem test_unpack_bits :
    let t := after (running 0x11 0x40 10 0x50 0 0 (bytesAt 0x40 [0xA5, 0xC0]))
    results t = (10, 0, 0) ∧ dump t 0x50 10 = [1, 0, 1, 0, 0, 1, 0, 1, 1, 1] := by decide +kernel
/-- The destination would end one byte past DMEM (R511). -/
theorem test_unpack_range : results (after (running 0x11 0x40 10 0xFFF7 0 0 (bytesAt 0x40 [0xA5, 0xC0]))) = (0, 0, 6) := by
  decide +kernel

/-- B24. -/
theorem test_pad_block :
    let t := after (running 0x12 0x60 4 0x70 32 0 (bytesAt 0x60 [0xF0]))
    results t = (32, 3, 0) ∧ dump t 0x70 4 = [0xF0, 3, 3, 3] := by decide +kernel
/-- B26: block sizes that fail R500. -/
theorem test_pad_block_size :
    [0, 12, 2048].map (fun aux => results (after (running 0x12 0x60 8 0x1000 aux 0 []))) = List.replicate 3 (0, 0, 1) := by
  decide +kernel

/-- B47. -/
theorem test_unpad_bits :
    let t := after (running 0x13 0x70 16 0x80 16 3 (bytesAt 0x70 [0xAA, 0x01]))
    results t = (3, 1, 0) ∧ dump t 0x80 1 = [0xA0] := by decide +kernel
/-- B42, B45, B49: a pad byte above the block size; too few bits left; a partial last byte whose low bits are zeroed. -/
theorem test_unpad_errors :
    results (after (running 0x13 0x70 16 0x80 16 0 (bytesAt 0x70 [0xAA, 0x03]))) = (0, 0, 2)
      ∧ results (after (running 0x13 0x70 16 0x80 16 9 (bytesAt 0x70 [0xAA, 0x01]))) = (0, 0, 3)
      ∧ results (after (running 0x13 0x70 12 0x80 16 3 (bytesAt 0x70 [0xAA, 0x01]))) = (0, 0, 2) := by decide +kernel

/-- L1 and the matrices of (7, 4). -/
theorem test_lcgen_seven_four :
    let t := after (running 0x20 0 0 0 7 4 [])
    results t = (3, 7, 0) ∧ t.statusWord = 0x602#32
      ∧ bitsNumber (matrixBits t.code.H) = 0b011110010110101101001 ∧ t.code.P.length = 3 := by decide +kernel
/-- Sizes that fail R600: k too large for p, k = 0, p above P_MAX. -/
theorem test_lcgen_errors :
    results (after (running 0x20 0 0 0 7 5 [])) = (0, 0, 1) ∧ results (after (running 0x20 0 0 0 7 0 [])) = (0, 0, 1)
      ∧ results (after (running 0x20 0 0 0 20 5 [])) = (0, 0, 6) := by decide +kernel

/-- L31. -/
theorem test_lcloadh_import :
    let t := after (withCode 6 3 (running 0x21 0x40 0 0 7 4 (bytesAt 0x40 [0x79, 0x6B, 0x48])))
    results t = (3, 7, 0) ∧ t.codeNWord = 7#32 ∧ t.codeKWord = 4#32 ∧ t.gValid = false
      ∧ t.code.H = (generateCode 7 4).H := by decide +kernel
/-- L47: a zero matrix gives an empty syndrome table. -/
theorem test_lcloadh_zero : results (after (running 0x21 0x400 0 0 7 4 (bytesAt 0x400 [0, 0, 0]))) = (3, 0, 0) := by decide +kernel

/-- L30. -/
theorem test_lcstoreh_export :
    let t := after (withCode 7 4 (running 0x22 0 0 0x40 0 0 []))
    results t = (21, 0, 0) ∧ dump t 0x40 3 = [0x79, 0x6B, 0x48] := by decide +kernel
/-- L49: no code. -/
theorem test_lcstoreh_not_configured : results (after (running 0x22 0 0 0x40 0 0 [])) = (0, 0, 4) := by decide +kernel

/-- L32. -/
theorem test_lcstoreg_export :
    let t := after (withCode 7 4 (running 0x23 0 0 0x50 0 0 []))
    results t = (28, 0, 0) ∧ dump t 0x50 4 = [0x86, 0x94, 0xB0, 0xF0] := by decide +kernel
/-- L33. -/
theorem test_lcstoreg_range : results (after (withCode 7 4 (running 0x23 0 0 0xFFFD 0 0 []))) = (0, 0, 6) := by decide +kernel

/-- L20: the message 1011. -/
theorem test_lcenc_codeword :
    let t := after (withCode 7 4 (running 0x24 0 4 1 0 0 (bytesAt 0 [0xB0])))
    results t = (7, 0, 0) ∧ dump t 1 1 = [0xB4] := by decide +kernel
/-- L29. -/
theorem test_lcenc_length : results (after (withCode 7 4 (running 0x24 0 5 0 0 0 []))) = (0, 0, 1) := by decide +kernel

/-- L21: the second bit inverted. -/
theorem test_lcdec_corrects :
    let t := after (withCode 7 4 (running 0x25 0 7 2 0 0 (bytesAt 0 [0xF4])))
    results t = (1, 1, 0) ∧ t.synd = 5#32 ∧ t.unc = false ∧ dump t 2 1 = [0xB0] := by decide +kernel
/-- L25: a syndrome of (6, 3) that no column has. -/
theorem test_lcdec_uncorrectable :
    let t := after (withCode 6 3 (running 0x25 0 6 2 0 0 (bytesAt 0 [0x90])))
    results t = (0, 0xFFFFFFFF, 0) ∧ t.synd = 7#32 ∧ t.unc = true ∧ dump t 2 1 = [0x80] := by decide +kernel

/-- L36. -/
theorem test_lcencs_stream :
    let t := after (withCode 7 4 (running 0x26 0x200 8 0x210 0 0 (bytesAt 0x200 [0xB1])))
    results t = (14, 2, 0) ∧ dump t 0x210 2 = [0xB4, 0x3C] := by decide +kernel
/-- L37. -/
theorem test_lcencs_length : results (after (withCode 7 4 (running 0x26 0x200 6 0x210 0 0 []))) = (0, 0, 1) := by decide +kernel

/-- L39. -/
theorem test_lcdecs_stream :
    let t := after (withCode 7 4 (running 0x27 0x220 14 0x230 0 0 (bytesAt 0x220 [0xF4, 0x1C])))
    results t = (2, 0, 0) ∧ t.unc = false ∧ dump t 0x230 1 = [0xB1] := by decide +kernel
/-- L43: one uncorrectable word, then a clean one. -/
theorem test_lcdecs_uncorrectable :
    let t := after (withCode 6 3 (running 0x27 0x300 12 0x310 0 0 (bytesAt 0x300 [0x90, 0x00])))
    results t = (0, 1, 0) ∧ t.synd = 0#32 ∧ t.unc = true ∧ dump t 0x310 1 = [0x80] := by decide +kernel

/-- L27. -/
theorem test_lcsyn_position : results (after (withCode 7 4 (running 0x28 0 7 0 0 0 (bytesAt 0 [0x02])))) = (1, 6, 0) := by
  decide +kernel
/-- L28. -/
theorem test_lcsyn_clean : results (after (withCode 7 4 (running 0x28 0 7 0 0 0 (bytesAt 0 [0xB4])))) = (0, 0xFFFFFFFF, 0) := by
  decide +kernel

/-! ### Steps of the host and the block -/

/-- `withFetchWord` places a word that the very next step runs. -/
theorem test_fetch_word_runs :
    results (after (State.reset.withFetchWord 32 0x4107)) = (0, 0, 4) ∧ results (after (State.reset.withFetchWord 32 0x08)) = (0, 0, 7)
      ∧ (after (State.reset.withFetchWord 32 0x00)).done = true := by decide +kernel
/-- P6: a second CMD write while the first command runs (R910). -/
theorem test_cmd_write_while_busy :
    let t := after (accessing 0x0C 4 (.write 0x24) { running 0x24 0 4 0x10 0 0 [] with delay := 2 })
    t.statusWord = 0x9#32 ∧ t.latch.raw = 0x24#32 ∧ t.response = some .done := by decide +kernel
/-- R113: DONE and CMD_OVR written with 1, ERR kept. -/
theorem test_status_write :
    (after (accessing 8 4 (.write 0xA) { State.reset with done := true, err := true, errCode := 6, cmdOvr := true })).statusWord
      = 0x64#32 := by decide +kernel
/-- R111: a CTRL write with SRST and IE clears IE. -/
theorem test_soft_reset_discards_ie :
    let t := after (accessing 4 4 (.write 3) (withCode 7 4 { State.reset with ie := true, done := true, synd := 5, mem := [(3, 0x77#8)] }))
    t.ctrlWord = 0#32 ∧ t.statusWord = 0#32 ∧ t.synd = 0#32 ∧ t.codeNWord = 0#32 ∧ dump t 3 1 = [0x77] := by decide +kernel
/-- R202: big-endian byte order of a host write. -/
theorem test_dmem_write_big_endian :
    dump (after (accessing 0x10008 4 (.write 0x11223344) State.reset)) 8 4 = [0x11, 0x22, 0x33, 0x44] := by decide +kernel
/-- R807: a misaligned DMEM read, a read that reaches past DMEM, a byte access to a register and the hole after the registers. -/
theorem test_bus_errors :
    [ (0x10002, 4), (0x1FFFE, 4), (0x08, 1), (0x40, 4) ].map (fun e => (after (accessing e.1 e.2 .read State.reset)).response)
      = List.replicate 4 (some .busError) := by decide +kernel
/-- R119: PARAM0 and PARAM1 of the default parameters. -/
theorem test_params_read :
    (after (accessing 0x38 4 .read State.reset)).response = some (.data 0x000C0100#32)
      ∧ (after (accessing 0x3C 4 .read State.reset)).response = some (.data 0x00010000#32) := by decide +kernel
/-- R810, R842: IRQ drives the line it is routed to, and not its neighbours. -/
theorem test_irq_routing :
    [4, 5, 6].map { State.reset with params := { Params.default with irqLine := 5 }, ie := true, done := true }.irqOnLine
      = [false, true, false] := by decide
/-- R308: the example of HCODE. -/
theorem test_expand_hcode :
    HostStatement.expand Params.default (.command 0x07#8 0x41#8 none none (some 0x900#32) none none)
      = [ .access { address := 0x18, bytes := 4, kind := .write 0x900#32 },
          .access { address := 0x0C, bytes := 4, kind := .write 0x00004107#32 }, .wait ] := by decide +kernel

/-! ### Witnesses: a concrete state and operands for the hypotheses of every clause of every obligation that has hypotheses -/

/-- The (7, 4) code meets `codeOk`. -/
theorem codeOk_seven_four (s : State) (h : s.synd = 0#32) (hp : s.params = Params.default) : (withCode 7 4 s).codeOk := by
  unfold State.codeOk LinearCode.shapeOk
  simp only [withCode, h, hp]
  decide

/-- The reset state meets `codeOk`. -/
theorem codeOk_reset : State.reset.codeOk := by
  unfold State.codeOk LinearCode.shapeOk
  decide

theorem witness_DecodeRefusesExactlyTheIllegalWords :
    (∃ w : Word, w.extractLsb' 16 16 ≠ 0#16)
      ∧ (∃ w : Word, w.extractLsb' 0 8 ∉ [0x00#8, 0x01#8, 0x02#8, 0x03#8, 0x04#8, 0x05#8, 0x06#8, 0x07#8, 0x10#8, 0x11#8,
          0x12#8, 0x13#8, 0x20#8, 0x21#8, 0x22#8, 0x23#8, 0x24#8, 0x25#8, 0x26#8, 0x27#8, 0x28#8])
      ∧ (∃ w : Word, w.extractLsb' 0 8 ≠ 0x07#8 ∧ w.extractLsb' 8 8 ≠ 0#8)
      ∧ (∃ w : Word, ¬ (w.extractLsb' 16 16 ≠ 0#16
          ∨ w.extractLsb' 0 8 ∉ [0x00#8, 0x01#8, 0x02#8, 0x03#8, 0x04#8, 0x05#8, 0x06#8, 0x07#8, 0x10#8, 0x11#8, 0x12#8,
              0x13#8, 0x20#8, 0x21#8, 0x22#8, 0x23#8, 0x24#8, 0x25#8, 0x26#8, 0x27#8, 0x28#8]
          ∨ (w.extractLsb' 0 8 ≠ 0x07#8 ∧ w.extractLsb' 8 8 ≠ 0#8))) :=
  ⟨⟨0x00010000#32, by decide⟩, ⟨0x00000029#32, by decide⟩, ⟨0x00000128#32, by decide⟩, ⟨0x0000FF07#32, by decide⟩⟩

/-- Both ways of being ready: the delay has run out with an input left, and no input is left with a delay left. -/
theorem witness_StepExecutesTheDecodedCommand :
    (∃ s : State, s.pending ≠ [] ∧ s.engineReady ∧ decode s.latch.raw = .ok (.hcode 0x41#8))
      ∧ (∃ s : State, s.delay ≠ 0 ∧ s.engineReady ∧ decode s.latch.raw = .ok .lcsyn) := by
  unfold State.engineReady
  exact ⟨⟨{ running 0x4107 0 0 0 0 0 [] with pending := [.wait] }, by decide⟩,
    ⟨{ running 0x28 0 0 0 0 0 [] with delay := 2 }, by decide⟩⟩

theorem witness_IllegalWordCompletesWithIllegalCommand :
    ∃ s : State, s.engineReady ∧ decode s.latch.raw = .error .immediateNotZero := by
  unfold State.engineReady
  exact ⟨running 0x0100 0 0 0 0 0 [], by decide⟩

theorem witness_CmdWriteWhileIdleIssues :
    ∃ s : State, s.inReset = false ∧ s.engine = .idle ∧
      s.pending = [.access { address := s.params.base + 0x0C, bytes := 4, kind := .write 0x4107#32 }] :=
  ⟨accessing 0x0C 4 (.write 0x4107) State.reset, by decide⟩

theorem witness_CmdWriteWhileBusyIsDropped :
    ∃ s : State, s.inReset = false ∧ s.engine = .busy ∧ s.delay ≠ 0 ∧
      s.pending = [.access { address := s.params.base + 0x0C, bytes := 4, kind := .write 0x20#32 }] :=
  ⟨accessing 0x0C 4 (.write 0x20) { running 0 0 0 0 0 0 [] with delay := 1 }, by decide⟩

/-- A CTRL write, the first DMEM byte, and an access at the last one. -/
theorem witness_HeldAccessesWaitForCompletion :
    (∃ (s : State) (a : BusAccess), s.inReset = false ∧ s.engine = .busy ∧ s.pending = [.access a] ∧
      a = { address := s.params.base + 0x04, bytes := 4, kind := .write 2#32 }) ∧
    (∃ (s : State) (a : BusAccess), s.inReset = false ∧ s.engine = .busy ∧ s.pending = [.access a] ∧
      s.params.base + 0x10000 ≤ a.address ∧ a.address < s.params.base + 0x10000 + s.params.dmemSize) ∧
    (∃ (s : State) (a : BusAccess), s.inReset = false ∧ s.engine = .busy ∧ s.pending = [.access a] ∧
      s.params.base + 0x10000 ≤ a.address ∧ a.address < s.params.base + 0x10000 + s.params.dmemSize) :=
  ⟨⟨accessing 4 4 (.write 2) { running 0 0 0 0 0 0 [] with delay := 3 }, ⟨4, 4, .write 2⟩, by decide⟩,
    ⟨accessing 0x10000 4 .read { running 0 0 0 0 0 0 [] with delay := 3 }, ⟨0x10000, 4, .read⟩, by decide⟩,
    ⟨accessing 0x1FFFF 1 (.write 7) { running 0 0 0 0 0 0 [] with delay := 3 }, ⟨0x1FFFF, 1, .write 7⟩, by decide⟩⟩

theorem witness_ArgWritesTakeEffectAtOnce :
    [0x10, 0x14, 0x18, 0x1C, 0x20].all (fun offset =>
      let s := accessing offset 4 (.write 9) { running 0 0 0 0 0 0 [] with delay := 1 }
      !s.inReset && decide (s.delay ≠ 0)
        && decide (s.pending = [.access { address := s.params.base + offset, bytes := 4, kind := .write 9#32 }])) = true := by
  decide

theorem witness_HostStatementsActAsWritten :
    (∃ s : State, s.inReset = false ∧ s.pending = [.wait] ∧ s.engine = .busy ∧ s.delay ≠ 0)
      ∧ (∃ s : State, s.inReset = false ∧ s.pending = [.wait] ∧ s.engine = .idle) :=
  ⟨⟨{ running 0 0 0 0 0 0 [] with delay := 1, pending := [.wait] }, by decide⟩,
    ⟨{ State.reset with pending := [.wait] }, by decide⟩⟩

/-- The read of each register waits at the head of the inputs of a running and of an IDLE block. -/
theorem witness_RegisterReadsReturnTheirValues :
    (∃ s : State, s.inReset = false ∧ s.params.legal = true) ∧
    (List.range 16).all (fun r =>
      [{ running 0 0 0 0 0 0 [] with delay := 1 }, withCode 7 4 State.reset].all (fun s =>
        let u := accessing (4 * r) 4 .read s
        !u.inReset && decide (u.engine = .idle ∨ u.delay ≠ 0)
          && decide (u.pending = [.access { address := u.params.base + 4 * r, bytes := 4, kind := .read }]))) = true :=
  ⟨⟨withCode 7 4 State.reset, by decide⟩, by decide +kernel⟩

theorem witness_ResetStateHasTheSpecsValues : ∃ p : Params, p.legal = true := ⟨Params.default, by decide⟩

theorem witness_StatusWriteClearsWhereOne :
    (∃ s : State, s.inputTurn ∧ s.engine = .idle ∧
      s.pending = [.access { address := s.params.base + 0x08, bytes := 4, kind := .write 0xE#32 }])
      ∧ (∃ s : State, s.inputTurn ∧ s.engine = .busy ∧
        s.pending = [.access { address := s.params.base + 0x08, bytes := 4, kind := .write 0xE#32 }]) := by
  unfold State.inputTurn
  exact ⟨⟨accessing 8 4 (.write 0xE) State.reset, by decide⟩,
    ⟨accessing 8 4 (.write 0xE) { running 0 0 0 0 0 0 [] with delay := 1 }, by decide⟩⟩

/-- The hole after the registers, a narrow register access, a misaligned DMEM access, and one that reaches past DMEM_SIZE into the
reserved rest of a window. -/
theorem witness_IgnoredAndErroneousAccessesChangeNothing :
    State.reset.inReset = false ∧
    [ (State.reset, 0x40, 4), (State.reset, 0x3C, 2), (State.reset, 0x10001, 2), (State.reset, 0x1FFFF, 2),
      (State.resetWith { Params.default with dmemSize := 1028 }, 0x10404, 4) ].all (fun e =>
        let s := e.1; let offset := e.2.1; let bytes := e.2.2
        decide (offset < s.params.windowSize) && !decide (offset < 0x40 ∧ bytes = 4 ∧ offset % 4 = 0)
          && !decide (0x10000 ≤ offset ∧ bytes ∈ [1, 2, 4] ∧ (offset - 0x10000) % bytes = 0
              ∧ offset - 0x10000 + bytes ≤ s.params.dmemSize)) = true := by decide

/-- The same with a step: a write to a read-only register and to the hole while BUSY = 1, an access past DMEM while BUSY = 1, and
a misaligned DMEM access to an IDLE block. -/
theorem witness_IgnoredAndErroneousAccesses_step :
    (∃ s : State, s.inputTurn ∧ s.engine = .busy ∧
      s.pending = [.access { address := s.params.base + 0x3C, bytes := 4, kind := .write 1#32 }]) ∧
    (∃ s : State, s.inputTurn ∧ s.engine = .busy ∧ 0x40 < 0x10000 ∧
      s.pending = [.access { address := s.params.base + 0x40, bytes := 4, kind := .read }]) ∧
    (∃ s : State, s.inputTurn ∧ s.engine = .busy ∧ 0x10000 + s.params.dmemSize ≤ 0x10404 ∧ 0x10404 < s.params.windowSize ∧
      s.pending = [.access { address := s.params.base + 0x10404, bytes := 4, kind := .read }]) ∧
    (∃ s : State, s.inputTurn ∧ s.engine = .idle ∧
      s.pending = [.access { address := s.params.base + 0x10001, bytes := 2, kind := .read }]) := by
  unfold State.inputTurn
  exact ⟨⟨accessing 0x3C 4 (.write 1) { running 0 0 0 0 0 0 [] with delay := 1 }, by decide⟩,
    ⟨accessing 0x40 4 .read { running 0 0 0 0 0 0 [] with delay := 1 }, by decide⟩,
    ⟨accessing 0x10404 4 .read
      { State.resetWith { Params.default with dmemSize := 1028 } with engine := .busy, delay := 1 }, by decide⟩,
    ⟨accessing 0x10001 2 .read State.reset, by decide⟩⟩

/-- The three widths, at the top of DMEM. -/
theorem witness_HostDmemAccessIsBigEndian :
    State.reset.inReset = false ∧
    [(1, 65535), (2, 65534), (4, 65532)].all (fun e =>
      decide (e.1 ∈ [1, 2, 4]) && decide (e.2 % e.1 = 0) && decide (e.2 + e.1 ≤ State.reset.params.dmemSize)) = true ∧
    (∃ s : State, s.engine = .idle ∧
      s.pending = [ .access { address := s.params.base + 0x10000 + 65532, bytes := 4, kind := .write 0x11223344#32 },
                    .access { address := s.params.base + 0x10000 + 65532, bytes := 4, kind := .read } ]) :=
  ⟨by decide, by decide, { State.reset with pending := [dmemWrite Params.default 4 65532 0x11223344, dmemRead Params.default 4 65532] },
    by decide⟩

theorem witness_SoftResetRestoresRegistersAndKeepsDmem :
    ∃ (s : State) (v : Word), s.inReset = false ∧ s.engine = .idle ∧ v.getLsbD 0 = true ∧ s.codeValid = true ∧
      s.pending = [.access { address := s.params.base + 0x04, bytes := 4, kind := .write v }] :=
  ⟨withCode 7 4 (accessing 4 4 (.write 3) State.reset), 3#32, by decide⟩

/-- Asserted while a command runs, and deasserted after. -/
theorem witness_HardwareResetRestoresResetState :
    (∃ s : State, s.engine = .busy ∧ s.engineMoves = false ∧ s.pending = [.resetLine true])
      ∧ (∃ s : State, s.inReset = true ∧ s.engineMoves = false ∧ s.pending = [.resetLine false]) :=
  ⟨⟨{ running 0 0 0 0 0 0 [] with delay := 1, pending := [.resetLine true] }, by decide⟩,
    ⟨{ State.reset with inReset := true, pending := [.resetLine false] }, by decide⟩⟩

theorem witness_InterruptLineFollowsEnableAndDone :
    (∃ (s : State) (v : Word), s.inReset = false ∧ s.engine = .idle ∧ v.getLsbD 0 = false ∧ v.getLsbD 1 = true ∧ s.done = true ∧
      s.pending = [.access { address := s.params.base + 0x04, bytes := 4, kind := .write v }]) ∧
    (∃ (s : State) (v : Word), s.inputTurn ∧ v.getLsbD 1 = true ∧ s.irq = true ∧
      s.pending = [.access { address := s.params.base + 0x08, bytes := 4, kind := .write v }]) ∧
    (∃ s : State, s.engineReady ∧ s.ie = true) ∧
    (∃ (s : State) (line : Nat), s.irqOnLine line = true) ∧ (∃ s t : State, step s = .next t ∧ t.params.irqLine = 7) := by
  unfold State.inputTurn State.engineReady
  exact ⟨⟨accessing 4 4 (.write 2) { State.reset with done := true }, 2#32, by decide⟩,
    ⟨accessing 8 4 (.write 2) { State.reset with done := true, ie := true }, 2#32, by decide⟩,
    ⟨{ running 0 0 0 0 0 0 [] with ie := true }, by decide⟩,
    ⟨{ State.reset with done := true, ie := true }, State.reset.params.irqLine, by decide⟩,
    ⟨{ State.reset with params := { Params.default with irqLine := 7 } }, _, rfl, rfl⟩⟩

/-- A command that fails. -/
theorem witness_CommandErrorsArePrecise : ∃ s t : State, s.err = false ∧ exec .henc s = .next t ∧ t.err = true :=
  ⟨running 3 0 0 0 0 0 [], _, rfl, rfl, rfl⟩

theorem witness_CommandsRaiseOnlyTheirListedCodes :
    (∃ s : State, s.err = false ∧ s.errCode = 0#4)
      ∧ (∃ s : State, s.engineReady ∧ decode s.latch.raw = .error .unmappedOpcode) := by
  unfold State.engineReady
  exact ⟨⟨running 3 0 0 0 0 0 [], by decide⟩, ⟨running 0x14 0 0 0 0 0 [], by decide⟩⟩

theorem witness_NotConfiguredIsCheckedFirst :
    (∃ s : State, s.treeValid = false) ∧ (∃ s : State, s.codeValid = false) ∧ (∃ s : State, s.codeValid = true ∧ s.gValid = false)
      ∧ (∃ s t : State, s.err = false ∧ s.errCode = 0#4 ∧ exec .lcgen s = .next t)
      ∧ (∃ s t : State, s.err = false ∧ s.errCode = 0#4 ∧ exec .pack s = .next t) :=
  ⟨⟨State.reset, rfl⟩, ⟨State.reset, rfl⟩, ⟨{ withCode 7 4 State.reset with gValid := false }, by decide⟩,
    ⟨running 0x20 0 0 0 7 4 [], _, rfl, rfl, rfl⟩, ⟨running 0x10 0 0 0 0 0 [], _, rfl, rfl, rfl⟩⟩

/-- A builder that succeeds. -/
theorem witness_ValidityFlagsFollowSuccessfulBuilders :
    ∃ s t : State, s.err = false ∧ exec .lcgen s = .next t ∧ t.err = false ∧ t.gValid = true :=
  ⟨running 0x20 0 0 0 7 4 [], _, rfl, rfl, by decide +kernel⟩

theorem witness_CommandsChangeOnlyTheirOwnState : ∃ s t : State, exec .lcsyn s = .next t ∧ t.err = false :=
  ⟨withCode 7 4 (running 0x28 0 7 0 0 0 (bytesAt 0 [2])), _, rfl, by decide +kernel⟩

/-- A command that stores: the bytes right below and right after its output region are outside it. -/
theorem witness_CommandsChangeOnlyTheirOwnState_memory :
    ∃ s t : State, s.params.legal = true ∧ s.codeOk ∧ s.err = false ∧ exec .lcenc s = .next t ∧ t.err = false ∧
      0x0F < s.opDst ∧ s.opDst + s.outputBytes .lcenc t ≤ 0x11 :=
  ⟨withCode 7 4 (running 0x24 0 4 0x10 0 0 (bytesAt 0 [0xB0])), _, by decide, codeOk_seven_four _ rfl rfl, rfl, rfl,
    by decide +kernel⟩

theorem witness_HfreqStoresTheCounts :
    (∃ s : State, s.params.legal = true ∧ s.params.dmemSize < s.opSrc + s.opLen)
      ∧ (∃ s : State, s.params.legal = true ∧ s.params.dmemSize < s.opDst + 1024)
      ∧ (∃ s : State, s.params.legal = true ∧ s.opSrc + s.opLen ≤ s.params.dmemSize ∧ s.opDst + 1024 ≤ s.params.dmemSize) :=
  ⟨⟨running 1 0xFFFF 2 0 0 0 [], by decide⟩, ⟨running 1 0 7 0xFC01 0 0 [], by decide⟩, ⟨running 1 0 7 0xFC00 0 0 [], by decide⟩⟩

theorem witness_HbuildBuildsTheTree :
    ((List.range 256).filter (fun symbol => decide (0 < FreqTable.count [] symbol)) = []
      ∧ (List.range 256).filter (fun symbol => decide (0 < FreqTable.count [4] symbol)) = [0]
      ∧ 2 ≤ ((List.range 256).filter (fun symbol => decide (0 < FreqTable.count [4, 3] symbol))).length) ∧
    (∃ s : State, Memory.wf s.mem = true ∧ s.params.dmemSize < s.opAux + 1024)
      ∧ (∃ (s : State) (f : FreqTable), Memory.wf s.mem = true ∧ s.opAux + 1024 ≤ s.params.dmemSize ∧ s.tableAt s.opAux f) :=
  ⟨by decide +kernel, ⟨running 2 0 0 0 0xFC01 0 [], by decide⟩,
    ⟨running 2 0 0 0 0xFC00 0 [(0xFD07, 5#8)], _, by decide, by decide, tableAt_readTable (by decide) _⟩⟩

/-- The hypotheses of HENC's clauses, with the tree of A:4 and B:3. -/
theorem witness_HencStoresTheCodewords :
    (∃ s : State, s.treeValid = false)
      ∧ (∃ s : State, s.treeValid = true ∧ s.params.dmemSize < s.opSrc + s.opLen)
      ∧ (∃ s : State, s.treeValid = true ∧ s.opSrc + s.opLen ≤ s.params.dmemSize ∧
          ∃ x ∈ s.bytesRead s.opSrc s.opLen, s.tree.codeword x = none)
      ∧ (∃ s : State, s.treeValid = true ∧ s.opSrc + s.opLen ≤ s.params.dmemSize ∧
          (∀ x ∈ s.bytesRead s.opSrc s.opLen, s.tree.codeword x ≠ none) ∧ s.params.dmemSize < s.opDst + (1 + 7) / 8)
      ∧ (∃ s : State, s.treeValid = true ∧ s.opSrc + s.opLen ≤ s.params.dmemSize ∧
          (∀ x ∈ s.bytesRead s.opSrc s.opLen, s.tree.codeword x ≠ none) ∧ s.opDst + (1 + 7) / 8 ≤ s.params.dmemSize) :=
  ⟨⟨State.reset, rfl⟩,
    ⟨withTree treeAB (running 3 0xFFFF 2 0 0 0 []), by decide +kernel⟩,
    ⟨withTree treeAB (running 3 0 1 0 0 0 (bytesAt 0 [0x43])), by decide +kernel, by decide +kernel, 0x43#8,
      by decide +kernel, by decide +kernel⟩,
    ⟨withTree treeAB (running 3 0 1 0x10000 0 0 (bytesAt 0 [0x42])), by decide +kernel⟩,
    ⟨withTree treeAB (running 3 0 1 0xFFFF 0 0 (bytesAt 0 [0x42])), by decide +kernel⟩⟩

theorem witness_HdecStoresTheDecodedBytes :
    (∃ s : State, s.treeValid = true ∧ s.params.dmemSize < s.opSrc + (s.opLen + 7) / 8)
      ∧ (∃ s : State, s.treeValid = true ∧ s.opSrc + (s.opLen + 7) / 8 ≤ s.params.dmemSize ∧
          huffDecode s.tree (s.bitsRead s.opSrc s.opLen) = none)
      ∧ (∃ (s : State) (out : List Byte) (d : Nat), s.treeValid = true ∧ s.opSrc + (s.opLen + 7) / 8 ≤ s.params.dmemSize ∧
          huffDecode s.tree (s.bitsRead s.opSrc s.opLen) = some (out, d) ∧ s.params.dmemSize < s.opDst + out.length)
      ∧ (∃ (s : State) (out : List Byte) (d : Nat), s.treeValid = true ∧ s.opSrc + (s.opLen + 7) / 8 ≤ s.params.dmemSize ∧
          huffDecode s.tree (s.bitsRead s.opSrc s.opLen) = some (out, d) ∧ s.opDst + out.length ≤ s.params.dmemSize) :=
  ⟨⟨withTree .empty (running 4 0xFFFF 9 0 0 0 []), by decide +kernel⟩,
    ⟨withTree treeA (running 4 0x20 1 0x30 0 0 (bytesAt 0x20 [0x80])), by decide +kernel⟩,
    ⟨withTree treeA (running 4 0x20 2 0xFFFF 0 0 (bytesAt 0x20 [0x00])), [0x41#8, 0x41#8], 0, by decide +kernel⟩,
    ⟨withTree treeA (running 4 0x20 2 0xFFFE 0 0 (bytesAt 0x20 [0x00])), [0x41#8, 0x41#8], 0, by decide +kernel⟩⟩

/-- `AAAA` compresses to four bits; the destination ends one byte past DMEM, and at its end. -/
theorem witness_HcompCompresses :
    (∃ s : State, s.params.legal = true ∧ s.params.dmemSize < s.opSrc + s.opLen)
      ∧ (∃ s : State, s.params.legal = true ∧ s.params.dmemSize < s.opAux + 1024)
      ∧ (∃ (s : State) (codewords : List Bits), s.params.legal = true ∧ s.opSrc + s.opLen ≤ s.params.dmemSize ∧
          s.opAux + 1024 ≤ s.params.dmemSize ∧
          (s.bytesRead s.opSrc s.opLen).map (buildTree (freqOf (s.bytesRead s.opSrc s.opLen))).codeword = codewords.map some ∧
          s.params.dmemSize < s.opDst + (codewords.flatten.length + 7) / 8)
      ∧ (∃ (s : State) (codewords : List Bits), s.params.legal = true ∧ s.opSrc + s.opLen ≤ s.params.dmemSize ∧
          s.opAux + 1024 ≤ s.params.dmemSize ∧
          (s.bytesRead s.opSrc s.opLen).map (buildTree (freqOf (s.bytesRead s.opSrc s.opLen))).codeword = codewords.map some ∧
          s.opDst + (codewords.flatten.length + 7) / 8 ≤ s.params.dmemSize) :=
  ⟨⟨running 5 0xFFFF 2 0 0 0 [], by decide⟩, ⟨running 5 0 4 0 0xFC01 0 [], by decide⟩,
    ⟨running 5 0 2 0x10000 0x400 0 (bytesAt 0 [0x41, 0x41]), [[false], [false]], by decide +kernel⟩,
    ⟨running 5 0 2 0xFFFF 0xFBFF 0 (bytesAt 0 [0x41, 0x41]), [[false], [false]], by decide +kernel⟩⟩

/-- The table of A:1 and B:1 at 0x400; the decode clauses differ in the destination and the source bits. -/
theorem witness_HdecompDecompresses :
    (∃ s : State, Memory.wf s.mem = true ∧ s.params.dmemSize < s.opSrc + (s.opLen + 7) / 8)
      ∧ (∃ s : State, Memory.wf s.mem = true ∧ s.params.dmemSize < s.opAux + 1024)
      ∧ (∃ (s : State) (f : FreqTable), Memory.wf s.mem = true ∧ s.opSrc + (s.opLen + 7) / 8 ≤ s.params.dmemSize ∧
          s.opAux + 1024 ≤ s.params.dmemSize ∧ s.tableAt s.opAux f ∧
          huffDecode (buildTree f) (s.bitsRead s.opSrc s.opLen) = none)
      ∧ (∃ (s : State) (f : FreqTable), Memory.wf s.mem = true ∧ s.opSrc + (s.opLen + 7) / 8 ≤ s.params.dmemSize ∧
          s.opAux + 1024 ≤ s.params.dmemSize ∧ s.tableAt s.opAux f ∧
          huffDecode (buildTree f) (s.bitsRead s.opSrc s.opLen) = some ([0x41#8], 0) ∧ s.params.dmemSize < s.opDst + 1)
      ∧ (∃ (s : State) (f : FreqTable), Memory.wf s.mem = true ∧ s.opSrc + (s.opLen + 7) / 8 ≤ s.params.dmemSize ∧
          s.opAux + 1024 ≤ s.params.dmemSize ∧ s.tableAt s.opAux f ∧
          huffDecode (buildTree f) (s.bitsRead s.opSrc s.opLen) = some ([0x41#8], 0) ∧ s.opDst + 1 ≤ s.params.dmemSize) :=
  ⟨⟨running 6 0xFFFF 9 0 0 0 [], by decide⟩, ⟨running 6 0 0 0 0xFC01 0 [], by decide⟩,
    ⟨running 6 0 1 0 0x400 0 (bytesAt 0 [0x80] ++ bytesAt 0x400 (tableOf [(0x41, 1)])), _, by decide +kernel, by decide, by decide,
      tableAt_readTable (by decide +kernel) _, by decide +kernel⟩,
    ⟨running 6 0 1 0x10000 0x400 0 (bytesAt 0 [0x00] ++ bytesAt 0x400 (tableOf [(0x41, 1)])), _, by decide +kernel, by decide,
      by decide, tableAt_readTable (by decide +kernel) _, by decide +kernel, by decide⟩,
    ⟨running 6 0 1 0xFFFF 0x400 0 (bytesAt 0 [0x00] ++ bytesAt 0x400 (tableOf [(0x41, 1)])), _, by decide +kernel, by decide,
      by decide, tableAt_readTable (by decide +kernel) _, by decide +kernel, by decide⟩⟩

theorem witness_HcodeReadsOneCodeword :
    (∃ s : State, s.treeValid = false) ∧ (∃ s : State, s.treeValid = true ∧ s.tree.codeword 0x43#8 = none)
      ∧ (∃ s : State, s.treeValid = true ∧ s.tree.codeword 0x41#8 = some [true] ∧ s.params.dmemSize < s.opDst + (1 + 7) / 8)
      ∧ (∃ s : State, s.treeValid = true ∧ s.tree.codeword 0x41#8 = some [true] ∧ s.opDst + (1 + 7) / 8 ≤ s.params.dmemSize) :=
  ⟨⟨State.reset, rfl⟩, ⟨withTree treeAB State.reset, by decide +kernel⟩,
    ⟨withTree treeAB (running 0x4107 0 0 0x10000 0 0 []), by decide +kernel⟩,
    ⟨withTree treeAB (running 0x4107 0 0 0xFFFF 0 0 []), by decide +kernel⟩⟩

theorem witness_CodeMapCoversTheAlphabetPrefixFree :
    ∃ f : FreqTable, (buildTree f).codeword 0x41#8 = some [false] ∧ (buildTree f).codeword 0x42#8 = some [true]
      ∧ ([false] : Bits) <+: [false] :=
  ⟨freqOf [0x41#8, 0x42#8], by decide +kernel⟩

theorem witness_HuffmanDecodeInvertsEncode :
    ∃ f : FreqTable, huffEncode (buildTree f) [0x42#8, 0x41#8] = some [true, false]
      ∧ huffDecode (buildTree f) [true, false] = some ([0x42#8, 0x41#8], 0) :=
  ⟨freqOf [0x41#8, 0x42#8], by decide +kernel⟩

/-- Tables of two, one and no symbols. -/
theorem witness_HuffmanDecodeInvertsEncode_fails :
    2 ≤ FreqTable.distinct [4, 3] ∧ FreqTable.distinct [4] = 1 ∧ FreqTable.distinct [] = 0 := by decide +kernel

/-- The bits below the table. -/
theorem witness_DecompressRestoresCompressedBytes :
    ∃ s t : State, s.params.legal = true ∧ Memory.wf s.mem = true ∧ s.err = false ∧ exec .hcomp s = .next t ∧ t.err = false ∧
      s.opDst + (t.res0.toNat + 7) / 8 ≤ s.opAux ∧ (0xFFFD#32).toNat + s.opLen ≤ s.params.dmemSize :=
  ⟨running 5 0 3 0x100 0x400 0 (bytesAt 0 [0x41, 0x42, 0x41]), _, by decide, by decide, rfl, rfl, by decide +kernel⟩

/-- The bits right above the table. -/
theorem witness_DecompressRestoresCompressedBytes_above :
    ∃ s t : State, s.params.legal = true ∧ Memory.wf s.mem = true ∧ s.err = false ∧ exec .hcomp s = .next t ∧ t.err = false ∧
      s.opAux + 1024 ≤ s.opDst ∧ (0xFFFD#32).toNat + s.opLen ≤ s.params.dmemSize :=
  ⟨running 5 0 3 0x800 0x400 0 (bytesAt 0 [0x41, 0x42, 0x41]), _, by decide, by decide, rfl, rfl, by decide +kernel⟩

theorem witness_BitSequencesArePackedFirstBitHighest :
    (∃ s : State, Memory.wf s.mem = true ∧ s.mem ≠ [] ∧ 8 < 9)
      ∧ (∃ b : Bits, 1 < (pack b).length ∧ 7 < 8)
      ∧ (∃ (bs : List Byte) (L i : Nat), L ≤ 8 * bs.length ∧ i < L) :=
  ⟨⟨running 0 0 0 0 0 0 (bytesAt 0 [0xAA, 0x80]), by decide⟩, ⟨List.replicate 9 true, by decide⟩, ⟨[0x80#8], 8, 7, by decide⟩⟩

theorem witness_PackStoresTheCellsAsBits :
    (∃ s : State, s.params.dmemSize < s.opSrc + s.opLen)
      ∧ (∃ s : State, s.opSrc + s.opLen ≤ s.params.dmemSize ∧ ∃ c ∈ s.bytesRead s.opSrc s.opLen, c ≠ 0x00#8 ∧ c ≠ 0x01#8)
      ∧ (∃ s : State, s.opSrc + s.opLen ≤ s.params.dmemSize ∧ (∀ c ∈ s.bytesRead s.opSrc s.opLen, c = 0x00#8 ∨ c = 0x01#8) ∧
          s.params.dmemSize < s.opDst + (s.opLen + 7) / 8)
      ∧ (∃ s : State, s.opSrc + s.opLen ≤ s.params.dmemSize ∧ (∀ c ∈ s.bytesRead s.opSrc s.opLen, c = 0x00#8 ∨ c = 0x01#8) ∧
          s.opDst + (s.opLen + 7) / 8 ≤ s.params.dmemSize) :=
  ⟨⟨running 0x10 0xFFFF 2 0 0 0 [], by decide⟩, ⟨running 0x10 0 2 0 0 0 (bytesAt 0 [1, 2]), by decide, 2#8, by decide, by decide⟩,
    ⟨running 0x10 0 2 0x10000 0 0 (bytesAt 0 [1, 0]), by decide +kernel⟩,
    ⟨running 0x10 0 2 0xFFFF 0 0 (bytesAt 0 [1, 0]), by decide +kernel⟩⟩

theorem witness_UnpackStoresTheBitsAsCells :
    (∃ s : State, s.params.dmemSize < s.opSrc + (s.opLen + 7) / 8) ∧ (∃ s : State, s.params.dmemSize < s.opDst + s.opLen)
      ∧ (∃ s : State, s.opSrc + (s.opLen + 7) / 8 ≤ s.params.dmemSize ∧ s.opDst + s.opLen ≤ s.params.dmemSize) :=
  ⟨⟨running 0x11 0xFFFF 9 0 0 0 [], by decide⟩, ⟨running 0x11 0 9 0xFFF8 0 0 [], by decide⟩,
    ⟨running 0x11 0xFFFE 9 0xFFF7 0 0 [], by decide⟩⟩

/-- Block sizes at the ends of R500's range, and a destination that ends one byte past DMEM and at its end. -/
theorem witness_PadAppendsThePadBytes :
    (∃ s : State, ¬ (8 ≤ s.opAux ∧ s.opAux % 8 = 0 ∧ s.opAux ≤ 2040))
      ∧ (∃ s : State, (8 ≤ s.opAux ∧ s.opAux % 8 = 0 ∧ s.opAux ≤ 2040) ∧ s.params.dmemSize < s.opSrc + (s.opLen + 7) / 8)
      ∧ (∃ s : State, (8 ≤ s.opAux ∧ s.opAux % 8 = 0 ∧ s.opAux ≤ 2040) ∧ s.opSrc + (s.opLen + 7) / 8 ≤ s.params.dmemSize ∧
          s.params.dmemSize < s.opDst + ((s.opLen + 7) / 8 + (s.opAux / 8 - (s.opLen + 7) / 8 % (s.opAux / 8))))
      ∧ (∃ s : State, (8 ≤ s.opAux ∧ s.opAux % 8 = 0 ∧ s.opAux ≤ 2040) ∧ s.opSrc + (s.opLen + 7) / 8 ≤ s.params.dmemSize ∧
          s.opDst + ((s.opLen + 7) / 8 + (s.opAux / 8 - (s.opLen + 7) / 8 % (s.opAux / 8))) ≤ s.params.dmemSize) :=
  ⟨⟨running 0x12 0 0 0 2048 0 [], by decide⟩, ⟨running 0x12 0xFFFF 9 0 8 0 [], by decide⟩,
    ⟨running 0x12 0 8 0xFF02 2040 0 [], by decide⟩, ⟨running 0x12 0 8 0xFF01 2040 0 [], by decide⟩⟩

/-- One state per clause: block size, source range, each padding error, the length error, and the two destinations. -/
theorem witness_UnpadStripsThePadBytes :
    let m (s : State) : Nat := (s.opLen + 7) / 8
    let padn (s : State) : Nat := ((pack (s.bitsRead s.opSrc s.opLen)).getD (m s - 1) 0#8).toNat
    let sourceOk (s : State) : Prop := (8 ≤ s.opAux ∧ s.opAux % 8 = 0 ∧ s.opAux ≤ 2040) ∧ s.opSrc + m s ≤ s.params.dmemSize
    let paddingOk (s : State) : Prop := sourceOk s ∧ m s ≠ 0 ∧ padn s ≠ 0 ∧ padn s ≤ s.opAux / 8 ∧ padn s ≤ m s
    (∃ s : State, ¬ (8 ≤ s.opAux ∧ s.opAux % 8 = 0 ∧ s.opAux ≤ 2040))
      ∧ (∃ s : State, (8 ≤ s.opAux ∧ s.opAux % 8 = 0 ∧ s.opAux ≤ 2040) ∧ s.params.dmemSize < s.opSrc + m s)
      ∧ (∃ s : State, sourceOk s ∧ m s = 0) ∧ (∃ s : State, sourceOk s ∧ m s ≠ 0 ∧ padn s = 0)
      ∧ (∃ s : State, sourceOk s ∧ s.opAux / 8 < padn s) ∧ (∃ s : State, sourceOk s ∧ padn s ≤ s.opAux / 8 ∧ m s < padn s)
      ∧ (∃ s : State, paddingOk s ∧ 8 * (m s - padn s) < s.opAux2)
      ∧ (∃ s : State, paddingOk s ∧ s.opAux2 ≤ 8 * (m s - padn s) ∧ s.params.dmemSize < s.opDst + (s.opAux2 + 7) / 8)
      ∧ (∃ s : State, paddingOk s ∧ s.opAux2 ≤ 8 * (m s - padn s) ∧ s.opDst + (s.opAux2 + 7) / 8 ≤ s.params.dmemSize) :=
  ⟨⟨running 0x13 0 0 0 12 0 [], by decide⟩, ⟨running 0x13 0xFFFF 9 0 8 0 [], by decide⟩,
    ⟨running 0x13 0 0 0 8 0 [], by decide⟩, ⟨running 0x13 0 8 0 8 0 (bytesAt 0 [0]), by decide +kernel⟩,
    ⟨running 0x13 0 8 0 8 0 (bytesAt 0 [2]), by decide +kernel⟩, ⟨running 0x13 0 8 0 16 0 (bytesAt 0 [2]), by decide +kernel⟩,
    ⟨running 0x13 0 16 0 16 9 (bytesAt 0 [0xAA, 1]), by decide +kernel⟩,
    ⟨running 0x13 0 16 0x10000 16 8 (bytesAt 0 [0xAA, 1]), by decide +kernel⟩,
    ⟨running 0x13 0 16 0xFFFF 16 8 (bytesAt 0 [0xAA, 1]), by decide +kernel⟩⟩

theorem witness_UnpadInvertsPad : (∃ B : Nat, B = 1 ∧ 1 ≤ B ∧ B ≤ 255) ∧ (∃ B : Nat, B = 255 ∧ 1 ≤ B ∧ B ≤ 255) :=
  ⟨⟨1, by decide⟩, ⟨255, by decide⟩⟩

/-- Sizes at the bounds: k = 0, n = k, n above N_MAX, p above P_MAX, k one too large for p, and the largest k for p. -/
theorem witness_LcgenBuildsTheCode :
    let sizesOk (s : State) : Prop := ¬ (s.opAux2 = 0 ∨ s.opAux ≤ s.opAux2) ∧ s.opAux ≤ s.params.nMax
      ∧ s.opAux - s.opAux2 ≤ s.params.pMax
    (∃ s : State, s.params.legal = true ∧ s.opAux2 = 0) ∧ (∃ s : State, s.params.legal = true ∧ s.opAux ≤ s.opAux2)
      ∧ (∃ s : State, s.params.legal = true ∧ ¬ (s.opAux2 = 0 ∨ s.opAux ≤ s.opAux2) ∧ s.params.nMax < s.opAux)
      ∧ (∃ s : State, s.params.legal = true ∧ ¬ (s.opAux2 = 0 ∨ s.opAux ≤ s.opAux2) ∧ s.params.pMax < s.opAux - s.opAux2)
      ∧ (∃ s : State, s.params.legal = true ∧ sizesOk s ∧
          2 ^ (s.opAux - s.opAux2) - 1 - (s.opAux - s.opAux2) < s.opAux2)
      ∧ (∃ s : State, s.params.legal = true ∧ sizesOk s ∧
          s.opAux2 ≤ 2 ^ (s.opAux - s.opAux2) - 1 - (s.opAux - s.opAux2)) :=
  ⟨⟨running 0x20 0 0 0 7 0 [], by decide⟩, ⟨running 0x20 0 0 0 4 4 [], by decide⟩, ⟨running 0x20 0 0 0 257 250 [], by decide⟩,
    ⟨running 0x20 0 0 0 20 7 [], by decide⟩, ⟨running 0x20 0 0 0 8 5 [], by decide⟩, ⟨running 0x20 0 0 0 7 4 [], by decide⟩⟩

theorem witness_LcloadhImportsTheParityCheck :
    let sizesOk (s : State) : Prop := ¬ (s.opAux2 = 0 ∨ s.opAux ≤ s.opAux2) ∧ s.opAux ≤ s.params.nMax
      ∧ s.opAux - s.opAux2 ≤ s.params.pMax
    (∃ s : State, s.opAux2 = 0) ∧ (∃ s : State, ¬ (s.opAux2 = 0 ∨ s.opAux ≤ s.opAux2) ∧ s.params.pMax < s.opAux - s.opAux2)
      ∧ (∃ s : State, sizesOk s ∧ s.params.dmemSize < s.opSrc + ((s.opAux - s.opAux2) * s.opAux + 7) / 8)
      ∧ (∃ s : State, sizesOk s ∧ s.opSrc + ((s.opAux - s.opAux2) * s.opAux + 7) / 8 ≤ s.params.dmemSize) :=
  ⟨⟨running 0x21 0 0 0 7 0 [], by decide⟩, ⟨running 0x21 0 0 0 20 5 [], by decide⟩,
    ⟨running 0x21 0xFFFE 0 0 7 4 [], by decide⟩, ⟨running 0x21 0xFFFD 0 0 7 4 [], by decide⟩⟩

theorem witness_LcstorehExportsTheParityCheck :
    (∃ s : State, s.codeOk ∧ s.codeValid = false)
      ∧ (∃ s : State, s.codeOk ∧ s.codeValid = true ∧
          s.params.dmemSize < s.opDst + ((s.code.n - s.code.k) * s.code.n + 7) / 8)
      ∧ (∃ s : State, s.codeOk ∧ s.codeValid = true ∧
          s.opDst + ((s.code.n - s.code.k) * s.code.n + 7) / 8 ≤ s.params.dmemSize) :=
  ⟨⟨State.reset, codeOk_reset, rfl⟩,
    ⟨withCode 7 4 (running 0x22 0 0 0xFFFE 0 0 []), codeOk_seven_four _ rfl rfl, by decide⟩,
    ⟨withCode 7 4 (running 0x22 0 0 0xFFFD 0 0 []), codeOk_seven_four _ rfl rfl, by decide⟩⟩

theorem witness_LcstoregExportsTheGenerator :
    (∃ s : State, s.codeOk ∧ s.gValid = false)
      ∧ (∃ s : State, s.codeOk ∧ s.gValid = true ∧ s.params.dmemSize < s.opDst + (s.code.k * s.code.n + 7) / 8)
      ∧ (∃ s : State, s.codeOk ∧ s.gValid = true ∧ s.opDst + (s.code.k * s.code.n + 7) / 8 ≤ s.params.dmemSize) :=
  ⟨⟨State.reset, codeOk_reset, rfl⟩,
    ⟨withCode 7 4 (running 0x23 0 0 0xFFFD 0 0 []), codeOk_seven_four _ rfl rfl, by decide⟩,
    ⟨withCode 7 4 (running 0x23 0 0 0xFFFC 0 0 []), codeOk_seven_four _ rfl rfl, by decide⟩⟩

theorem witness_LcencEncodesOneMessage :
    (∃ s : State, s.codeOk ∧ s.gValid = false) ∧ (∃ s : State, s.codeOk ∧ s.gValid = true ∧ s.opLen ≠ s.code.k)
      ∧ (∃ s : State, s.codeOk ∧ s.gValid = true ∧ s.opLen = s.code.k ∧ s.params.dmemSize < s.opSrc + (s.code.k + 7) / 8)
      ∧ (∃ s : State, s.codeOk ∧ s.gValid = true ∧ s.opLen = s.code.k ∧ s.params.dmemSize < s.opDst + (s.code.n + 7) / 8)
      ∧ (∃ s : State, s.codeOk ∧ s.gValid = true ∧ s.opLen = s.code.k ∧ s.opSrc + (s.code.k + 7) / 8 ≤ s.params.dmemSize ∧
          s.opDst + (s.code.n + 7) / 8 ≤ s.params.dmemSize) :=
  ⟨⟨State.reset, codeOk_reset, rfl⟩,
    ⟨withCode 7 4 (running 0x24 0 5 0 0 0 []), codeOk_seven_four _ rfl rfl, by decide⟩,
    ⟨withCode 7 4 (running 0x24 0x10000 4 0 0 0 []), codeOk_seven_four _ rfl rfl, by decide⟩,
    ⟨withCode 7 4 (running 0x24 0 4 0x10000 0 0 []), codeOk_seven_four _ rfl rfl, by decide⟩,
    ⟨withCode 7 4 (running 0x24 0xFFFF 4 0xFFFF 0 0 []), codeOk_seven_four _ rfl rfl, by decide⟩⟩

/-- The syndrome number of a word and the number of a column, as LCDEC's and LCSYN's statements write them. -/
def wordSyndrome (s : State) : Nat :=
  bitsNumber (s.code.H.map (fun row =>
    (List.zipWith (fun x y => x && y) row (s.bitsRead s.opSrc s.code.n)).foldl (fun acc x => xor acc x) false))

/-- Clauses of LCDEC: lengths, ranges, a clean word, an error in position 1, and a (6, 3) word no column explains. -/
theorem witness_LcdecDecodesOneWord :
    let sizesOk (s : State) : Prop := s.codeValid = true ∧ s.opLen = s.code.n
      ∧ s.opSrc + (s.code.n + 7) / 8 ≤ s.params.dmemSize ∧ s.opDst + (s.code.k + 7) / 8 ≤ s.params.dmemSize
    let column (s : State) (c : Nat) : Nat := bitsNumber (matrixColumn s.code.H c)
    (∃ s : State, s.codeValid = false) ∧ (∃ s : State, s.codeValid = true ∧ s.opLen ≠ s.code.n)
      ∧ (∃ s : State, s.codeValid = true ∧ s.opLen = s.code.n ∧ s.params.dmemSize < s.opSrc + (s.code.n + 7) / 8)
      ∧ (∃ s : State, s.codeValid = true ∧ s.opLen = s.code.n ∧ s.params.dmemSize < s.opDst + (s.code.k + 7) / 8)
      ∧ (∃ s : State, sizesOk s ∧ wordSyndrome s = 0)
      ∧ (∃ s : State, sizesOk s ∧ wordSyndrome s ≠ 0 ∧ 1 < s.code.n ∧ column s 1 = wordSyndrome s
          ∧ ∀ c < 1, column s c ≠ wordSyndrome s)
      ∧ (∃ s : State, sizesOk s ∧ wordSyndrome s ≠ 0 ∧ ∀ c < s.code.n, column s c ≠ wordSyndrome s) :=
  ⟨⟨State.reset, rfl⟩, ⟨withCode 7 4 (running 0x25 0 8 0 0 0 []), by decide⟩,
    ⟨withCode 7 4 (running 0x25 0x10000 7 0 0 0 []), by decide⟩, ⟨withCode 7 4 (running 0x25 0 7 0x10000 0 0 []), by decide⟩,
    ⟨withCode 7 4 (running 0x25 0xFFFF 7 0xFFFF 0 0 (bytesAt 0xFFFF [0xB4])), by decide +kernel⟩,
    ⟨withCode 7 4 (running 0x25 0 7 0 0 0 (bytesAt 0 [0xF4])), by decide +kernel⟩,
    ⟨withCode 6 3 (running 0x25 0 6 0 0 0 (bytesAt 0 [0x90])), by decide +kernel⟩⟩

theorem witness_LcencsEncodesAStream :
    (∃ s : State, s.codeOk ∧ s.gValid = false) ∧ (∃ s : State, s.codeOk ∧ s.gValid = true ∧ s.opLen % s.code.k ≠ 0)
      ∧ (∃ s : State, s.codeOk ∧ s.gValid = true ∧ s.opLen % s.code.k = 0 ∧ s.params.dmemSize < s.opSrc + (s.opLen + 7) / 8)
      ∧ (∃ s : State, s.codeOk ∧ s.gValid = true ∧ s.opLen % s.code.k = 0 ∧
          s.params.dmemSize < s.opDst + (s.opLen / s.code.k * s.code.n + 7) / 8)
      ∧ (∃ s : State, s.codeOk ∧ s.gValid = true ∧ s.opLen % s.code.k = 0 ∧ 0 < s.opLen / s.code.k ∧
          s.opSrc + (s.opLen + 7) / 8 ≤ s.params.dmemSize ∧
          s.opDst + (s.opLen / s.code.k * s.code.n + 7) / 8 ≤ s.params.dmemSize) :=
  ⟨⟨State.reset, codeOk_reset, rfl⟩,
    ⟨withCode 7 4 (running 0x26 0 6 0 0 0 []), codeOk_seven_four _ rfl rfl, by decide⟩,
    ⟨withCode 7 4 (running 0x26 0x10000 8 0 0 0 []), codeOk_seven_four _ rfl rfl, by decide⟩,
    ⟨withCode 7 4 (running 0x26 0 8 0xFFFF 0 0 []), codeOk_seven_four _ rfl rfl, by decide⟩,
    ⟨withCode 7 4 (running 0x26 0xFFFF 8 0xFFFE 0 0 []), codeOk_seven_four _ rfl rfl, by decide⟩⟩

theorem witness_LcdecsDecodesAStream :
    (∃ s : State, s.codeValid = false) ∧ (∃ s : State, s.codeValid = true ∧ s.opLen % s.code.n ≠ 0)
      ∧ (∃ s : State, s.codeValid = true ∧ s.opLen % s.code.n = 0 ∧ s.params.dmemSize < s.opSrc + (s.opLen + 7) / 8)
      ∧ (∃ s : State, s.codeValid = true ∧ s.opLen % s.code.n = 0 ∧
          s.params.dmemSize < s.opDst + (s.opLen / s.code.n * s.code.k + 7) / 8)
      ∧ (∃ s : State, s.codeValid = true ∧ s.opLen % s.code.n = 0 ∧ 0 < s.opLen / s.code.n ∧
          s.opSrc + (s.opLen + 7) / 8 ≤ s.params.dmemSize ∧
          s.opDst + (s.opLen / s.code.n * s.code.k + 7) / 8 ≤ s.params.dmemSize) :=
  ⟨⟨State.reset, rfl⟩, ⟨withCode 7 4 (running 0x27 0 13 0 0 0 []), by decide⟩,
    ⟨withCode 7 4 (running 0x27 0xFFFF 14 0 0 0 []), by decide⟩, ⟨withCode 7 4 (running 0x27 0 14 0x10000 0 0 []), by decide⟩,
    ⟨withCode 7 4 (running 0x27 0xFFFE 14 0xFFFF 0 0 []), by decide⟩⟩

theorem witness_LcsynReportsTheSyndrome :
    let sizesOk (s : State) : Prop := s.codeValid = true ∧ s.opLen = s.code.n ∧ s.opSrc + (s.code.n + 7) / 8 ≤ s.params.dmemSize
    let column (s : State) (c : Nat) : Nat := bitsNumber (matrixColumn s.code.H c)
    (∃ s : State, s.codeValid = false) ∧ (∃ s : State, s.codeValid = true ∧ s.opLen ≠ s.code.n)
      ∧ (∃ s : State, s.codeValid = true ∧ s.opLen = s.code.n ∧ s.params.dmemSize < s.opSrc + (s.code.n + 7) / 8)
      ∧ (∃ s : State, sizesOk s ∧ wordSyndrome s = 0)
      ∧ (∃ s : State, sizesOk s ∧ wordSyndrome s ≠ 0 ∧ 6 < s.code.n ∧ column s 6 = wordSyndrome s
          ∧ ∀ c < 6, column s c ≠ wordSyndrome s)
      ∧ (∃ s : State, sizesOk s ∧ wordSyndrome s ≠ 0 ∧ ∀ c < s.code.n, column s c ≠ wordSyndrome s) :=
  ⟨⟨State.reset, rfl⟩, ⟨withCode 7 4 (running 0x28 0 8 0 0 0 []), by decide⟩,
    ⟨withCode 7 4 (running 0x28 0x10000 7 0 0 0 []), by decide⟩,
    ⟨withCode 7 4 (running 0x28 0xFFFF 7 0 0 0 (bytesAt 0xFFFF [0xB4])), by decide +kernel⟩,
    ⟨withCode 7 4 (running 0x28 0 7 0 0 0 (bytesAt 0 [0x02])), by decide +kernel⟩,
    ⟨withCode 6 3 (running 0x28 0 6 0 0 0 (bytesAt 0 [0x90])), by decide +kernel⟩⟩

/-- Sizes of a code LCGEN builds, the largest k for p = 3 and the smallest code; used by the four statements about such codes. -/
theorem witness_GeneratedMatricesAreSystematic :
    (1 ≤ 4 ∧ 4 < 7 ∧ 4 ≤ 2 ^ (7 - 4) - 1 - (7 - 4)) ∧ (1 ≤ 1 ∧ 1 < 3 ∧ 1 ≤ 2 ^ (3 - 1) - 1 - (3 - 1)) := by decide

theorem witness_ParityCheckAnnihilatesGenerator :
    (1 ≤ 4 ∧ 4 < 7 ∧ 4 ≤ 2 ^ (7 - 4) - 1 - (7 - 4)) ∧ (generateCode 7 4).H ≠ [] ∧ (generateCode 7 4).G ≠ [] := by decide

theorem witness_GeneratedCodeCorrectsEverySingleError :
    (1 ≤ 4 ∧ 4 < 7 ∧ 4 ≤ 2 ^ (7 - 4) - 1 - (7 - 4)) ∧ ([true, false, true, true] : Bits).length = 4 ∧ 6 < 7 := by decide

theorem witness_SyndromeTableKeepsTheFirstWriter :
    SyndromeTable.position (syndromeTable 7 (generateCode 7 4).H) 1 = some 6
      ∧ (1 ≤ 4 ∧ 4 < 7 ∧ 4 ≤ 2 ^ (7 - 4) - 1 - (7 - 4)) := by decide +kernel

/-- The (7, 4) state meets the whole invariant. -/
theorem inv_seven_four : (withCode 7 4 (running 0x22 0 0 0x40 0 0 [])).Inv := by
  refine ⟨by decide, ?_, ?_, ?_, codeOk_seven_four _ rfl rfl⟩
  · unfold State.memoryOk; decide
  · unfold State.statusOk; decide
  · unfold State.treeOk; decide

theorem witness_ReimportedParityCheckDecodesAlike :
    ∃ s t : State, s.Inv ∧ s.codeValid = true ∧ s.err = false ∧ exec .lcstoreh s = .next t ∧ t.err = false :=
  ⟨withCode 7 4 (running 0x22 0 0 0x40 0 0 []), _, inv_seven_four, rfl, rfl, rfl, by decide +kernel⟩

theorem witness_EveryStepKeepsTheInvariant : ∃ s t : State, s.Inv ∧ step s = .next t ∧ t.done = true :=
  ⟨withCode 7 4 (running 0x22 0 0 0x40 0 0 []), _, inv_seven_four, rfl, by decide +kernel⟩

theorem witness_BusyAlwaysFalls : ∃ s : State, s.inReset = false ∧ s.engine = .busy ∧ s.delay ≠ 0 ∧ s.pending ≠ [] :=
  ⟨{ running 0 0 0 0 0 0 [] with delay := 3, pending := [.wait] }, by decide⟩

/-- A host program that issues a command, waits and reads its result. -/
theorem witness_CompletionTimesAreUnobservableToWaitingHosts :
    ∃ s : State, (s.inReset = true → s.engine = .idle) ∧ obeysWaitingDuty s.params (decide (s.engine = .busy)) s.pending = true
      ∧ s.pending ≠ [] :=
  ⟨{ State.reset with
      pending := hostProgram Params.default [.command 0x20#8 0#8 none none none (some 7#32) (some 4#32), .rd .res0] },
    by decide +kernel⟩

theorem witness_UnspecifiedTablesAreNeverRead :
    ∃ s t : State, step s = .next t ∧ s.treeValid = false ∧ s.codeValid = false ∧ s.gValid = false ∧ s.engine = .idle :=
  ⟨accessing 0x0C 4 (.write 0x05) State.reset, _, rfl, by decide⟩

end Sys2Proof.Tests
end

section
/-! SUPPORT. The shape of a linear code (43_linear_code.md R601 to R603), and how long the sequences are that the commands
store: what keeps every write of a command inside its range-checked region. -/

namespace Sys2Proof.Machine

/-! ### The columns and matrices of a generated code -/

/-- Few numbers are unit vectors: a list without repetition holds at most `p` of them (R601). -/
theorem countP_isUnitVector_le (p : Nat) {l : List Nat} (hl : l.Nodup) : l.countP (isUnitVector p) ≤ p := by
  have hsub : l.filter (isUnitVector p) ⊆ (List.range p).map (fun i => 2 ^ i) := by
    intro v hv
    simpa [isUnitVector] using (List.mem_filter.1 hv).2
  have := ((hl.filter _).subperm hsub).length_le
  rwa [List.length_map, List.length_range, ← List.countP_eq_length_filter] at this

/-- `PCols(p, k)` has k entries, where LCGEN finds enough columns (R601, R610). -/
theorem pColumns_length {p k : Nat} (h : k ≤ 2 ^ p - 1 - p) : (pColumns p k).length = k := by
  have hunits : (List.range' 1 (2 ^ p - 1)).countP (isUnitVector p) ≤ p := countP_isUnitVector_le p List.nodup_range'
  have hsplit := List.length_eq_countP_add_countP (isUnitVector p) (l := List.range' 1 (2 ^ p - 1))
  have hothers : ((List.range' 1 (2 ^ p - 1)).filter (fun v => !isUnitVector p v)).length
      = (List.range' 1 (2 ^ p - 1)).countP (fun v => decide ¬isUnitVector p v = true) := by
    rw [← List.countP_eq_length_filter]
    congr 1
    funext v
    simp
  rw [List.length_range'] at hsplit
  rw [pColumns, List.length_take]
  omega

@[simp] theorem matrixP_length (p : Nat) (cols : List Nat) : (matrixP p cols).length = p := by simp [matrixP]

theorem matrixP_row_length {p : Nat} {cols : List Nat} : ∀ row ∈ matrixP p cols, row.length = cols.length := by
  simp [matrixP]

@[simp] theorem identityMatrix_length (r : Nat) : (identityMatrix r).length = r := by simp [identityMatrix]

theorem identityMatrix_row_length {r : Nat} : ∀ row ∈ identityMatrix r, row.length = r := by simp [identityMatrix]

@[simp] theorem transpose_length (c : Nat) (M : BitMatrix) : (transpose c M).length = c := by simp [transpose]

theorem transpose_row_length {c : Nat} {M : BitMatrix} : ∀ row ∈ transpose c M, row.length = M.length := by
  simp [transpose, matrixColumn]

/-- A block matrix [A | B] has as many rows as the shorter of its parts. -/
@[simp] theorem besides_length (A B : BitMatrix) : (besides A B).length = min A.length B.length := by simp [besides]

/-- A row of a block matrix is a row of each part, side by side. -/
theorem besides_row_length {A B : BitMatrix} {a b : Nat} (hA : ∀ row ∈ A, row.length = a) (hB : ∀ row ∈ B, row.length = b) :
    ∀ row ∈ besides A B, row.length = a + b := by
  intro row hrow
  obtain ⟨i, hi, rfl⟩ := List.mem_iff_getElem.1 hrow
  simp only [besides, List.getElem_zipWith, List.length_append]
  rw [hA _ (List.getElem_mem _), hB _ (List.getElem_mem _)]

/-- H of a generated code is a (n − k)×n matrix (R603). -/
theorem generateCode_H_shape {n k : Nat} (hk : k ≤ n) (h : k ≤ 2 ^ (n - k) - 1 - (n - k)) :
    (generateCode n k).H.length = n - k ∧ ∀ row ∈ (generateCode n k).H, row.length = n := by
  refine ⟨by simp [generateCode], fun row hrow => ?_⟩
  have := besides_row_length matrixP_row_length identityMatrix_row_length row hrow
  rw [pColumns_length h] at this
  omega

/-- G of a generated code is a k×n matrix (R603). -/
theorem generateCode_G_shape {n k : Nat} (hk : k ≤ n) :
    (generateCode n k).G.length = k ∧ ∀ row ∈ (generateCode n k).G, row.length = n := by
  refine ⟨by simp [generateCode], fun row hrow => ?_⟩
  have := besides_row_length identityMatrix_row_length transpose_row_length row hrow
  rw [matrixP_length] at this
  omega

/-- The row-major form of a matrix with rows of `c` bits has one bit per entry (R210). -/
theorem matrixBits_length {M : BitMatrix} {c : Nat} (h : ∀ row ∈ M, row.length = c) : (matrixBits M).length = M.length * c := by
  rw [matrixBits, List.length_flatten, List.map_eq_replicate_iff.2 h, List.sum_replicate, smul_eq_mul]

/-! ### Blocks -/

@[simp] theorem blocks_length (count size : Nat) (b : Bits) : (blocks count size b).length = count := by
  induction count generalizing b with
  | zero => rfl
  | succ count ih => simp [blocks, ih]

/-- A codeword has no more than n bits (R606). -/
theorem encodeBlock_length_le (n : Nat) (G : BitMatrix) (m : Bits) : (encodeBlock n G m).length ≤ n := by
  refine List.foldlRecOn (motive := fun acc : Bits => acc.length ≤ n) _ _ (by simp) fun acc hacc e _ => ?_
  split
  · simp [addBits, hacc]
  · exact hacc

/-- A decoded message has no more than k bits (R607). -/
theorem decodeBlock_message_length_le (H : BitMatrix) (T : SyndromeTable) (k : Nat) (r : Bits) :
    (decodeBlock H T k r).message.length ≤ k := by
  unfold decodeBlock
  dsimp only
  split
  · exact List.length_take_le _ _
  · split <;> exact List.length_take_le _ _

/-- The syndrome a decode reports is that of the word (R607). -/
@[simp] theorem decodeBlock_syndrome (H : BitMatrix) (T : SyndromeTable) (k : Nat) (r : Bits) :
    (decodeBlock H T k r).syndrome = syndromeNumber H r := by
  unfold decodeBlock
  dsimp only
  split
  · rfl
  · split <;> rfl

/-- A syndrome has one bit per row of H (R604). -/
theorem syndromeNumber_lt (H : BitMatrix) (r : Bits) : syndromeNumber H r < 2 ^ H.length := by
  simpa [syndromeNumber, syndromeBits] using bitsNumber_lt (syndromeBits H r)

/-- The pieces of at most `c` bits that a list gives are no longer than `c` bits each, together. -/
theorem length_flatMap_le {α : Type} {l : List α} {f : α → Bits} {c : Nat} (h : ∀ x ∈ l, (f x).length ≤ c) :
    (l.flatMap f).length ≤ l.length * c := by
  rw [List.length_flatMap, ← smul_eq_mul, ← List.length_map (f := fun x => (f x).length)]
  exact List.sum_le_card_nsmul _ _ (by simpa using h)

/-- An encoded stream has no more than n bits per block (R616). -/
theorem State.encodeStream_length_le (s : State) (b : Bits) :
    (s.encodeStream b).length ≤ b.length / s.code.k * s.code.n := by
  simpa [State.encodeStream] using
    length_flatMap_le (l := blocks (b.length / s.code.k) s.code.k b) fun m _ => encodeBlock_length_le s.code.n s.code.G m

@[simp] theorem State.decodeStream_length (s : State) (b : Bits) : (s.decodeStream b).length = b.length / s.code.n := by
  simp [State.decodeStream]

/-- Every result of a stream's decode is the decode of some word with the current code (R617). -/
theorem State.mem_decodeStream {s : State} {b : Bits} {d : DecodeResult} (h : d ∈ s.decodeStream b) :
    ∃ r, d = s.decodeWord r := by
  obtain ⟨r, -, rfl⟩ := List.mem_map.1 h
  exact ⟨r, rfl⟩

theorem State.decodeWord_message_length_le (s : State) (r : Bits) : (s.decodeWord r).message.length ≤ s.code.k :=
  decodeBlock_message_length_le _ _ _ _

@[simp] theorem State.decodeWord_syndrome (s : State) (r : Bits) :
    (s.decodeWord r).syndrome = syndromeNumber s.code.H r := decodeBlock_syndrome _ _ _ _

/-- The decoded messages of a stream have no more than k bits per word (R617). -/
theorem State.decodeStream_messages_length_le (s : State) (b : Bits) :
    ((s.decodeStream b).flatMap (fun d => d.message)).length ≤ b.length / s.code.n * s.code.k := by
  rw [← s.decodeStream_length b]
  refine length_flatMap_le fun d hd => ?_
  obtain ⟨r, rfl⟩ := State.mem_decodeStream hd
  exact s.decodeWord_message_length_le r

/-! ### Cells and padding -/

/-- Cells hold one bit each (R501). -/
theorem bitsOfCells_length {l : List Byte} {b : Bits} (h : bitsOfCells l = some b) : b.length = l.length := by
  induction l generalizing b with
  | nil =>
    obtain rfl : [] = b := by simpa [bitsOfCells] using h
    rfl
  | cons c rest ih =>
    have split_first : ∃ bit b', bitsOfCells rest = some b' ∧ b = bit :: b' := by
      unfold bitsOfCells at h
      split at h
      · obtain ⟨b', hb', rfl⟩ := Option.map_eq_some_iff.1 h
        exact ⟨_, b', hb', rfl⟩
      · split at h
        · obtain ⟨b', hb', rfl⟩ := Option.map_eq_some_iff.1 h
          exact ⟨_, b', hb', rfl⟩
        · cases h
    obtain ⟨bit, b', hb', rfl⟩ := split_first
    simp [ih hb']

/-- Depadding gives no more than `orig` bits (R503). -/
theorem unpadBytes_length_le {data : List Byte} {B orig padn : Nat} {out : Bits}
    (h : unpadBytes data B orig = .ok (out, padn)) : out.length ≤ orig := by
  unfold unpadBytes at h
  dsimp only at h
  split at h
  · cases h
  · split at h
    · cases h
    · split at h
      · cases h
      · cases h
        exact List.length_take_le _ _

end Sys2Proof.Machine
end

section
/-! SUPPORT. What Exec's result (30_encoding.md R311) may do to the tables, SYND and DMEM, said once for all commands: the part
of the invariant that a successful completion needs. -/

namespace Sys2Proof.Machine

/-! ### Sound effects -/

/-- A code a command may set: it has its shape, and with g_valid it is the one LCGEN builds (10_state.md R132, R133). -/
def LinearCode.soundFor (c : LinearCode) (gValid : Bool) (p : Params) : Prop :=
  c.shapeOk p ∧ (gValid = true → c = generateCode c.n c.k ∧ c.k ≤ 2 ^ (c.n - c.k) - 1 - (c.n - c.k))

/-- Effects that keep the invariant: every write inside DMEM, a tree the builder makes, a sound code, SYND below 2^P_MAX. -/
structure Effects.Sound (p : Params) (e : Effects) : Prop where
  writes_inside : ∀ w ∈ e.writes, w.1 + w.2.length ≤ p.dmemSize
  tree_proper : ∀ t ∈ e.tree, t.proper = true
  code_sound : ∀ c ∈ e.code, c.1.soundFor c.2 p
  syndrome_small : ∀ c ∈ e.syndrome, c.1.toNat < 2 ^ p.pMax

/-- A result that keeps the invariant: an error, or sound effects. -/
def SoundResult (p : Params) (r : CommandResult) : Prop := ∀ e, r = .ok e → e.Sound p

theorem soundResult_error (p : Params) (c : ErrorCode) : SoundResult p (.error c) := by
  intro e he
  cases he

theorem soundResult_ok {p : Params} {e : Effects} (h : e.Sound p) : SoundResult p (.ok e) := by
  rintro _ ⟨⟩
  exact h

/-- A check that raises an error: what follows may assume that it passed. -/
theorem soundResult_check {p : Params} {c : ErrorCode} {r : CommandResult} {cond : Prop} [Decidable cond]
    (h : ¬cond → SoundResult p r) : SoundResult p (if cond then .error c else r) := by
  split
  · exact soundResult_error p c
  · exact h ‹_›

section
variable {p : Params} {ws : List (Nat × List Byte)} {r0 r1 : Word} (hw : ∀ w ∈ ws, w.1 + w.2.length ≤ p.dmemSize)
include hw

/-- A result that writes DMEM only. -/
theorem soundResult_writes : SoundResult p (.ok { writes := ws, res0 := r0, res1 := r1 }) :=
  soundResult_ok ⟨hw, by simp, by simp, by simp⟩

/-- A result that writes DMEM and sets the tree. -/
theorem soundResult_tree {t : CodeTree} (ht : t.proper = true) :
    SoundResult p (.ok { writes := ws, res0 := r0, res1 := r1, tree := some t }) :=
  soundResult_ok ⟨hw, by simpa using ht, by simp, by simp⟩

/-- A result that writes DMEM and sets SYND and UNC. -/
theorem soundResult_syndrome {v : Word} {unc : Bool} (hv : v.toNat < 2 ^ p.pMax) :
    SoundResult p (.ok { writes := ws, res0 := r0, res1 := r1, syndrome := some (v, unc) }) :=
  soundResult_ok ⟨hw, by simp, by simp, by simpa using hv⟩

end

/-- A write of no more bytes than the range check covered lies inside DMEM (20_memory.md R207). -/
theorem write_inside {s : State} {a len : Nat} {bs : List Byte} (h : ¬s.outOfRange a len) (hl : bs.length ≤ len) :
    ∀ w ∈ [(a, bs)], w.1 + w.2.length ≤ s.params.dmemSize := by
  simp only [List.mem_singleton, forall_eq]
  omega

/-- A write of no more bits than the range check covered lies inside DMEM (20_memory.md R205, R207). -/
theorem bitsWrite_inside {s : State} {a bits : Nat} {b : Bits} (h : ¬s.outOfRange a (ceil8 bits)) (hb : b.length ≤ bits) :
    ∀ w ∈ [bitsWrite a b], w.1 + w.2.length ≤ s.params.dmemSize :=
  write_inside h (by rw [pack_length]; exact Nat.div_le_div_right (by omega))

/-- A stored table fills exactly the region its range check covered (20_memory.md R209). -/
theorem tableWrite_inside {s : State} {a : Nat} (h : ¬s.outOfRange a tableBytes) (f : FreqTable) :
    ∀ w ∈ [tableWrite a f], w.1 + w.2.length ≤ s.params.dmemSize :=
  write_inside h (tableWrite_length a f).le

/-! ### The Huffman commands -/

/-- A root with two subtrees, the right one full, is no single-symbol wrapper (10_state.md R130). -/
theorem CodeTree.proper_internal {left right : Node} (h : right.full = true) :
    (CodeTree.root (.internal left right)).proper
      = (left.full && right.full && decide (left.symbols ++ right.symbols).Nodup) := by
  cases right with
  | absent => cases h
  | leaf symbol => cases left <;> rfl
  | internal l r => cases left <;> rfl

/-- The builder makes proper trees (10_state.md R130, 41_huffman.md R402). -/
theorem buildTree_proper (f : FreqTable) : (buildTree f).proper = true := by
  rcases buildTree_cases f with ⟨-, h⟩ | ⟨symbol, -, h⟩ | ⟨left, right, h, hl, hr, hperm⟩
  · rw [h]; rfl
  · rw [h]; rfl
  · have hnodup : (left.symbols ++ right.symbols).Nodup := hperm.nodup_iff.2 (alphabetBytes_nodup f)
    rw [h, CodeTree.proper_internal hr, hl, hr, decide_eq_true hnodup]
    rfl

theorem hfreqResult_sound (s : State) : SoundResult s.params (hfreqResult s) :=
  soundResult_check fun _ => soundResult_check fun hdst =>
    soundResult_writes (tableWrite_inside hdst _)

theorem hbuildResult_sound (s : State) : SoundResult s.params (hbuildResult s) :=
  soundResult_check fun _ => soundResult_tree (by simp) (buildTree_proper _)

theorem hencResult_sound (s : State) : SoundResult s.params (hencResult s) := by
  refine soundResult_check fun _ => soundResult_check fun _ => ?_
  cases huffEncode s.tree (s.bytesRead s.opSrc s.opLen) with
  | none => exact soundResult_error _ _
  | some out => exact soundResult_check fun hdst => soundResult_writes (bitsWrite_inside hdst le_rfl)

theorem hdecResult_sound (s : State) : SoundResult s.params (hdecResult s) := by
  refine soundResult_check fun _ => soundResult_check fun _ => ?_
  cases huffDecode s.tree (s.bitsRead s.opSrc s.opLen) with
  | none => exact soundResult_error _ _
  | some out => exact soundResult_check fun hdst => soundResult_writes (write_inside hdst le_rfl)

theorem hcompResult_sound (s : State) : SoundResult s.params (hcompResult s) := by
  refine soundResult_check fun _ => soundResult_check fun haux => ?_
  dsimp only
  cases huffEncode (buildTree (freqOf (s.bytesRead s.opSrc s.opLen))) (s.bytesRead s.opSrc s.opLen) with
  | none => exact soundResult_error _ _
  | some out =>
    refine soundResult_check fun hdst => soundResult_tree ?_ (buildTree_proper _)
    exact List.forall_mem_append (l₁ := [_]).2 ⟨tableWrite_inside haux _, bitsWrite_inside hdst le_rfl⟩

theorem hdecompResult_sound (s : State) : SoundResult s.params (hdecompResult s) := by
  refine soundResult_check fun _ => soundResult_check fun _ => ?_
  dsimp only
  cases huffDecode (buildTree (s.readTable s.opAux)) (s.bitsRead s.opSrc s.opLen) with
  | none => exact soundResult_error _ _
  | some out =>
    exact soundResult_check fun hdst => soundResult_tree (write_inside hdst le_rfl) (buildTree_proper _)

theorem hcodeResult_sound (symbol : Byte) (s : State) : SoundResult s.params (hcodeResult symbol s) := by
  refine soundResult_check fun _ => ?_
  cases s.tree.codeword symbol with
  | none => exact soundResult_writes (by simp)
  | some c => exact soundResult_check fun hdst => soundResult_writes (bitsWrite_inside hdst le_rfl)

/-! ### The bit-pack and padding commands -/

theorem packResult_sound (s : State) : SoundResult s.params (packResult s) := by
  refine soundResult_check fun _ => ?_
  cases hb : bitsOfCells (s.bytesRead s.opSrc s.opLen) with
  | none => exact soundResult_error _ _
  | some b =>
    have hlen : b.length ≤ s.opLen := by simp [bitsOfCells_length hb]
    exact soundResult_check fun hdst => soundResult_writes (bitsWrite_inside hdst hlen)

theorem unpackResult_sound (s : State) : SoundResult s.params (unpackResult s) :=
  soundResult_check fun _ => soundResult_check fun hdst => soundResult_writes (write_inside hdst (by simp))

theorem padResult_sound (s : State) : SoundResult s.params (padResult s) :=
  soundResult_check fun _ => soundResult_check fun _ => soundResult_check fun hdst =>
    soundResult_writes (write_inside hdst le_rfl)

theorem unpadResult_sound (s : State) : SoundResult s.params (unpadResult s) := by
  refine soundResult_check fun _ => soundResult_check fun _ => ?_
  cases hu : unpadBytes (pack (s.bitsRead s.opSrc s.opLen)) (s.opAux / 8) s.opAux2 with
  | error c => exact soundResult_error _ _
  | ok r =>
    exact soundResult_check fun hdst => soundResult_writes (bitsWrite_inside hdst (unpadBytes_length_le hu))

/-! ### The linear code commands -/

/-- The sizes that pass steps 1 and 2 of R600. -/
theorem codeSizeError_eq_none {p : Params} {n k : Nat} (h : codeSizeError p n k = none) :
    1 ≤ k ∧ k < n ∧ n ≤ p.nMax ∧ n - k ≤ p.pMax := by
  unfold codeSizeError at h
  split at h
  · cases h
  · split at h
    · cases h
    · omega

theorem soundResult_setCode {p : Params} {c : LinearCode} {gValid : Bool} (h : c.soundFor gValid p) :
    SoundResult p (.ok (setCode c gValid)) :=
  soundResult_ok ⟨by simp [setCode], by simp [setCode], by simpa [setCode] using h, by simp [setCode]⟩

theorem lcgenResult_sound (s : State) : SoundResult s.params (lcgenResult s) := by
  unfold lcgenResult
  cases hsize : codeSizeError s.params s.opAux s.opAux2 with
  | some c => exact soundResult_error _ _
  | none =>
    refine soundResult_check fun hcols => ?_
    obtain ⟨hk, hkn, hn, hp⟩ := codeSizeError_eq_none hsize
    have hcols : s.opAux2 ≤ 2 ^ (s.opAux - s.opAux2) - 1 - (s.opAux - s.opAux2) := by omega
    exact soundResult_setCode
      ⟨⟨hk, hkn, hn, hp, generateCode_H_shape hkn.le hcols⟩, fun _ => ⟨rfl, hcols⟩⟩

theorem lcloadhResult_sound (s : State) : SoundResult s.params (lcloadhResult s) := by
  unfold lcloadhResult
  cases hsize : codeSizeError s.params s.opAux s.opAux2 with
  | some c => exact soundResult_error _ _
  | none =>
    refine soundResult_check fun _ => ?_
    obtain ⟨hk, hkn, hn, hp⟩ := codeSizeError_eq_none hsize
    have hrows := matrixOfBits_row_length (r := s.opAux - s.opAux2) (c := s.opAux)
      (b := s.bitsRead s.opSrc ((s.opAux - s.opAux2) * s.opAux)) (by simp)
    exact soundResult_setCode ⟨⟨hk, hkn, hn, hp, matrixOfBits_length _ _ _, hrows⟩, by simp⟩

/-- A syndrome of the current code, as SYND holds it, is below 2^P_MAX (10_state.md R118). -/
theorem syndrome_lt {s : State} (hc : s.code.shapeOk s.params) (r : Bits) :
    (result (syndromeNumber s.code.H r)).toNat < 2 ^ s.params.pMax := by
  obtain ⟨-, -, -, hp, hrows, -⟩ := hc
  calc (result (syndromeNumber s.code.H r)).toNat
      ≤ syndromeNumber s.code.H r := by simpa using Nat.mod_le _ _
    _ < 2 ^ s.code.H.length := syndromeNumber_lt _ _
    _ ≤ 2 ^ s.params.pMax := Nat.pow_le_pow_right (by omega) (by omega)

section
variable {s : State} (hc : s.codeOk)
include hc

theorem State.codeOk.shapeOk (hv : s.codeValid = true) : s.code.shapeOk s.params := by
  obtain ⟨hshape, -, -⟩ := hc
  exact hshape hv

/-- G of the current code has k·n bits, where it is valid (10_state.md R132, R133). -/
theorem State.codeOk.matrixBits_G_length (hg : s.gValid = true) : (matrixBits s.code.G).length = s.code.k * s.code.n := by
  have ⟨_, hgen, _⟩ := hc
  obtain ⟨hv, hcode, -⟩ := hgen hg
  obtain ⟨-, hkn, -⟩ := hc.shapeOk hv
  obtain ⟨hlen, hrows⟩ := generateCode_G_shape hkn.le
  rw [← hcode] at hlen hrows
  rw [matrixBits_length hrows, hlen]

/-- H of the current code has (n − k)·n bits, where it is valid (10_state.md R132). -/
theorem State.codeOk.matrixBits_H_length (hv : s.codeValid = true) :
    (matrixBits s.code.H).length = (s.code.n - s.code.k) * s.code.n := by
  obtain ⟨-, -, -, -, hlen, hrows⟩ := hc.shapeOk hv
  rw [matrixBits_length hrows, hlen]

theorem lcstorehResult_sound : SoundResult s.params (lcstorehResult s) :=
  soundResult_check fun hv => soundResult_check fun hdst =>
    soundResult_writes (bitsWrite_inside hdst (hc.matrixBits_H_length (eq_true_of_ne_false hv)).le)

theorem lcstoregResult_sound : SoundResult s.params (lcstoregResult s) :=
  soundResult_check fun hg => soundResult_check fun hdst =>
    soundResult_writes (bitsWrite_inside hdst (hc.matrixBits_G_length (eq_true_of_ne_false hg)).le)

theorem lcdecResult_sound : SoundResult s.params (lcdecResult s) :=
  soundResult_check fun hv => soundResult_check fun _ => soundResult_check fun _ => soundResult_check fun hdst =>
    soundResult_syndrome (bitsWrite_inside hdst (s.decodeWord_message_length_le _))
      (by simpa using syndrome_lt (hc.shapeOk (eq_true_of_ne_false hv)) _)

theorem lcsynResult_sound : SoundResult s.params (lcsynResult s) :=
  soundResult_check fun hv => soundResult_check fun _ => soundResult_check fun _ =>
    soundResult_syndrome (by simp) (by simpa using syndrome_lt (hc.shapeOk (eq_true_of_ne_false hv)) _)

/-- SYND after a stream is the syndrome of its last word, or 0 for an empty stream (43_linear_code.md R617). -/
theorem lastSyndrome_lt (hv : s.codeValid = true) (b : Bits) :
    (result (((s.decodeStream b).getLast?.map (fun d => d.syndrome)).getD 0)).toNat < 2 ^ s.params.pMax := by
  cases hlast : (s.decodeStream b).getLast? with
  | none => simp
  | some d =>
    obtain ⟨r, rfl⟩ := State.mem_decodeStream (List.mem_of_getLast? hlast)
    simpa using syndrome_lt (hc.shapeOk hv) r

theorem lcdecsResult_sound : SoundResult s.params (lcdecsResult s) :=
  soundResult_check fun hv => soundResult_check fun _ => soundResult_check fun _ => soundResult_check fun hdst =>
    soundResult_syndrome
      (bitsWrite_inside hdst (by simpa using s.decodeStream_messages_length_le (s.bitsRead s.opSrc s.opLen)))
      (by simpa using lastSyndrome_lt hc (eq_true_of_ne_false hv) _)

end

theorem lcencResult_sound (s : State) : SoundResult s.params (lcencResult s) :=
  soundResult_check fun _ => soundResult_check fun _ => soundResult_check fun _ => soundResult_check fun hdst =>
    soundResult_writes (bitsWrite_inside hdst (encodeBlock_length_le _ _ _))

theorem lcencsResult_sound (s : State) : SoundResult s.params (lcencsResult s) :=
  soundResult_check fun _ => soundResult_check fun _ => soundResult_check fun _ => soundResult_check fun hdst =>
    soundResult_writes (bitsWrite_inside hdst (by simpa using s.encodeStream_length_le (s.bitsRead s.opSrc s.opLen)))

/-- Every command's result is sound, where the current code is: the one fact about Exec that the invariant needs. -/
theorem resultOf_sound {s : State} (hc : s.codeOk) (i : Instr) : SoundResult s.params (resultOf i s) := by
  cases i with
  | nop => exact soundResult_writes (by simp)
  | hfreq => exact hfreqResult_sound s
  | hbuild => exact hbuildResult_sound s
  | henc => exact hencResult_sound s
  | hdec => exact hdecResult_sound s
  | hcomp => exact hcompResult_sound s
  | hdecomp => exact hdecompResult_sound s
  | hcode symbol => exact hcodeResult_sound symbol s
  | pack => exact packResult_sound s
  | unpack => exact unpackResult_sound s
  | pad => exact padResult_sound s
  | unpad => exact unpadResult_sound s
  | lcgen => exact lcgenResult_sound s
  | lcloadh => exact lcloadhResult_sound s
  | lcstoreh => exact lcstorehResult_sound hc
  | lcstoreg => exact lcstoregResult_sound hc
  | lcenc => exact lcencResult_sound s
  | lcdec => exact lcdecResult_sound hc
  | lcencs => exact lcencsResult_sound s
  | lcdecs => exact lcdecsResult_sound hc
  | lcsyn => exact lcsynResult_sound hc

end Sys2Proof.Machine
end

section
/-! SUPPORT. The invariant of the machine (Safety.lean) through every operation of a step: completion, the writes of the host,
and the two resets. -/

namespace Sys2Proof.Machine

/-! ### DMEM -/

/-- A list of writes below `size` keeps every listed offset below `size`. -/
theorem Memory.writeAll_below {m : List Host.Cell} {size : Nat} {ws : List (Nat × List Byte)} (h : ∀ c ∈ m, c.1 < size)
    (hw : ∀ w ∈ ws, w.1 + w.2.length ≤ size) : ∀ c ∈ Memory.writeAll m ws, c.1 < size := by
  induction ws generalizing m with
  | nil => exact h
  | cons w ws ih =>
    obtain ⟨hfirst, hrest⟩ := List.forall_mem_cons.1 hw
    exact ih (Memory.write_below h hfirst) hrest

/-! ### Completion -/

theorem State.statusOk_takeError (s : State) (c : ErrorCode) : (s.takeError c).statusOk :=
  ⟨by simp [ErrorCode.number_ne_zero], c.number_le, by simp, by simp⟩

theorem State.Inv.takeError {s : State} (h : s.Inv) (c : ErrorCode) : (s.takeError c).Inv := by
  obtain ⟨hp, hmem, -, htree, hcode⟩ := h
  exact ⟨hp, hmem, s.statusOk_takeError c, htree, hcode⟩

theorem State.treeOk.commit {s : State} {e : Effects} (h : s.treeOk) (he : e.Sound s.params) : (s.commit e).treeOk := by
  unfold State.treeOk at h ⊢
  cases ht : e.tree with
  | none => simpa [ht] using h
  | some t => simpa [ht] using he.tree_proper t ht

theorem State.codeOk.commit {s : State} {e : Effects} (h : s.codeOk) (he : e.Sound s.params) : (s.commit e).codeOk := by
  obtain ⟨hshape, hgen, hsynd⟩ := h
  have hsynd' : (s.commit e).synd.toNat < 2 ^ s.params.pMax := by
    cases hs : e.syndrome with
    | none => simpa [hs] using hsynd
    | some c => simpa [hs] using he.syndrome_small c hs
  cases hcode : e.code with
  | none => exact ⟨by simpa [hcode] using hshape, by simpa [hcode] using hgen, hsynd'⟩
  | some c =>
    obtain ⟨hshape', hgen'⟩ := he.code_sound c hcode
    exact ⟨by simpa [hcode] using hshape', by simpa [hcode] using hgen', hsynd'⟩

/-- A successful completion: ERR and ERRCODE are clear while the command runs (70_reset_and_hazards.md R914). -/
theorem State.Inv.complete_ok {s : State} {e : Effects} (h : s.Inv) (he : e.Sound s.params) : (s.commit e).finish.Inv := by
  obtain ⟨hp, ⟨hwf, hbelow⟩, ⟨herr, hle, -, -⟩, htree, hcode⟩ := h
  refine ⟨hp, ⟨Memory.writeAll_wf hwf _, Memory.writeAll_below hbelow he.writes_inside⟩, ⟨herr, hle, ?_, ?_⟩,
    htree.commit he, hcode.commit he⟩
  · simp
  · simp

theorem State.Inv.complete {s : State} {r : CommandResult} (h : s.Inv) (hr : SoundResult s.params r) : (s.complete r).Inv := by
  cases r with
  | ok e => exact h.complete_ok (hr e rfl)
  | error c => exact h.takeError c

/-! ### Resets -/

theorem State.Inv.softReset {s : State} (h : s.Inv) : s.softReset.Inv := by
  obtain ⟨hp, hmem, -, -, -⟩ := h
  refine ⟨hp, hmem, ?_⟩
  simp [State.statusOk, State.treeOk, State.codeOk]

theorem State.Inv.hardReset {s : State} (h : s.Inv) (asserted : Bool) : (s.hardReset asserted).Inv := by
  obtain ⟨hp, -, -, -, -⟩ := h
  refine ⟨hp, ⟨rfl, by simp⟩, ?_⟩
  simp [State.statusOk, State.treeOk, State.codeOk]

theorem State.Inv.driveResetLine {s : State} (h : s.Inv) (asserted : Bool) : (s.driveResetLine asserted).Inv := by
  unfold State.driveResetLine
  split
  · exact h.hardReset asserted
  · exact h

/-! ### The host's writes -/

theorem State.statusOk.writeStatus {s : State} (h : s.statusOk) (v : Word) : (s.writeStatus v).statusOk := by
  obtain ⟨herr, hle, hbusy, hreset⟩ := h
  simp only [State.statusOk, State.writeStatus_err, State.writeStatus_errCode, State.writeStatus_engine,
    State.writeStatus_done, State.writeStatus_unc, State.writeStatus_inReset]
  cases v.getLsbD 2 with
  | true => exact ⟨by simp, by simp, fun hb => by simp [hbusy hb], hreset⟩
  | false => exact ⟨by simpa using herr, by simpa using hle, fun hb => by simp [hbusy hb], hreset⟩

/-- An issue clears DONE, ERR, ERRCODE and UNC; it comes outside reset only (30_encoding.md R310, R900). -/
theorem State.statusOk_issue {s : State} (h : s.inReset = false) (w : Word) : (s.issue w).statusOk :=
  ⟨by simp, by simp, by simp, by simp [h]⟩

theorem State.Inv.writeCmd {s : State} (h : s.Inv) (hreset : s.inReset = false) (w : Word) : (s.writeCmd w).Inv := by
  unfold State.writeCmd
  obtain ⟨hp, hmem, hstatus, htree, hcode⟩ := h
  split
  · exact ⟨hp, hmem, State.statusOk_issue hreset w, htree, hcode⟩
  · exact ⟨hp, hmem, hstatus, htree, hcode⟩

theorem State.Inv.writeRegister {s : State} (h : s.Inv) (hreset : s.inReset = false) (r : Reg) (v : Word) :
    (s.writeRegister r v).Inv := by
  cases r with
  | ctrl =>
    show (s.writeCtrl v).Inv
    unfold State.writeCtrl
    split
    · exact h.softReset
    · exact h
  | status =>
    obtain ⟨hp, hmem, hstatus, htree, hcode⟩ := h
    exact ⟨hp, hmem, hstatus.writeStatus v, htree, hcode⟩
  | cmd => exact h.writeCmd hreset v
  | arg0 | arg1 | arg2 | arg3 | arg4 => exact h
  | id | res0 | res1 | codeN | codeK | synd | param0 | param1 => exact h

theorem State.Inv.write {s : State} {a : Nat} {bs : List Byte} (h : s.Inv) (hw : a + bs.length ≤ s.params.dmemSize) :
    State.Inv { s with mem := Memory.write s.mem a bs } := by
  obtain ⟨hp, ⟨hwf, hbelow⟩, hstatus, htree, hcode⟩ := h
  exact ⟨hp, ⟨Memory.write_wf hwf a bs, Memory.write_below hbelow hw⟩, hstatus, htree, hcode⟩

/-- The invariant does not speak of the response. -/
theorem State.Inv.respond {s : State} (h : s.Inv) (r : BusResponse) : (s.respond r).Inv := h

/-- The invariant does not speak of the inputs or the delay. -/
theorem State.Inv.takeInput {s : State} (h : s.Inv) (rest : List Input) : (s.takeInput rest).Inv := h

theorem State.Inv.performAccess {s : State} (h : s.Inv) (a : BusAccess) : (s.performAccess a).Inv := by
  rcases performAccess_cases s a with ⟨r, hr⟩ | ⟨r, v, hreset, -, -, hr⟩ | ⟨d, v, -, htarget, -, hr⟩
  · rw [hr]
    exact h.respond r
  · rw [hr]
    exact (h.writeRegister hreset r v).respond .done
  · rw [hr]
    exact (h.write (by simpa using target_dmem_bound htarget)).respond .done

/-! ### The step -/

/-- What performing the next input can do: nothing, an access, or the reset line. -/
theorem inputStep_cases (s : State) :
    s.inputStep = s ∨ (∃ rest a, s.inputStep = (s.takeInput rest).performAccess a) ∨
      (∃ rest asserted, s.inputStep = (s.takeInput rest).driveResetLine asserted) := by
  unfold State.inputStep
  split
  · exact .inl rfl
  · exact .inr (.inl ⟨_, _, rfl⟩)
  · split
    · exact .inr (.inl ⟨_, _, rfl⟩)
    · exact .inr (.inl ⟨_, _, rfl⟩)
  · exact .inr (.inr ⟨_, _, rfl⟩)

theorem State.Inv.inputStep {s : State} (h : s.Inv) : s.inputStep.Inv := by
  rcases inputStep_cases s with hi | ⟨rest, a, hi⟩ | ⟨rest, asserted, hi⟩
  · rwa [hi]
  · rw [hi]
    exact (h.takeInput rest).performAccess a
  · rw [hi]
    exact (h.takeInput rest).driveResetLine asserted

/-- A step keeps the invariant: the engine completes with a sound result, or the next input is performed. -/
theorem State.Inv.step {s t : State} (h : s.Inv) (ht : step s = .next t) : t.Inv := by
  have ⟨_, _, _, _, hcode⟩ := h
  rcases step_cases ht with ⟨-, r, rfl, ⟨i, -, rfl⟩ | ⟨e, -, rfl⟩⟩ | ⟨-, rfl⟩
  · exact h.complete (resultOf_sound hcode i)
  · exact h.complete (soundResult_error _ _)
  · exact h.inputStep

/-- Settles O57: a step completes with a sound result or performs an input, and both keep the invariant; no step changes a
parameter. -/
theorem everyStepKeepsTheInvariant : Obligations.EveryStepKeepsTheInvariant :=
  fun _ _ hs ht => ⟨hs.step ht, step_params ht⟩

end Sys2Proof.Machine
end

section
/-! SUPPORT. No step reads what the spec leaves unspecified (10_state.md R130, R132, R134; 93 U3 to U5): an update of a table
whose flag is 0, or of the latch while the engine is IDLE, commutes with every operation of a step, or is overwritten by it. -/

namespace Sys2Proof.Machine

/-- The engine moves only while a command runs (10_state.md R135). -/
theorem engine_of_engineMoves {s : State} (h : s.engineMoves = true) : s.engine = .busy := by
  cases hb : s.engine with
  | busy => rfl
  | idle => simp [engineMoves_idle hb] at h

/-- An update of a part of the state that the spec leaves unspecified at times. -/
inductive HiddenUpdate where
  /-- Another Huffman tree (R130). -/
  | tree (t : CodeTree)
  /-- Another linear code (R132). -/
  | code (c : LinearCode)
  /-- Other matrices P and G of the linear code (R132, R133). -/
  | generator (P G : BitMatrix)
  /-- Another operand latch (R134). -/
  | latch (l : Latch)

namespace HiddenUpdate

/-- The state with the update made. -/
def apply : HiddenUpdate → State → State
  | .tree t, s => { s with tree := t }
  | .code c, s => { s with code := c }
  | .generator P G, s => { s with code := { s.code with P := P, G := G } }
  | .latch l, s => { s with latch := l }

/-- The updated part holds a specified value: its flag is 1, or for the latch a command runs. -/
def live : HiddenUpdate → State → Bool
  | .tree .., s => s.treeValid
  | .code .., s => s.codeValid || s.gValid
  | .generator .., s => s.gValid
  | .latch .., s => s.busy

/-- `t'` is `t` but for the updated part, where that part is not live in `t`. -/
def AgreesUnlessLive (u : HiddenUpdate) (t t' : State) : Prop := t' = t ∨ (t' = u.apply t ∧ u.live t = false)

variable (u : HiddenUpdate)

/-! ### What an update leaves unchanged -/

@[simp] theorem apply_params (s : State) : (u.apply s).params = s.params := by cases u <;> rfl
@[simp] theorem apply_pending (s : State) : (u.apply s).pending = s.pending := by cases u <;> rfl
@[simp] theorem apply_inReset (s : State) : (u.apply s).inReset = s.inReset := by cases u <;> rfl
@[simp] theorem apply_engine (s : State) : (u.apply s).engine = s.engine := by cases u <;> rfl
@[simp] theorem apply_busy (s : State) : (u.apply s).busy = s.busy := by cases u <;> rfl
@[simp] theorem apply_memRead (s : State) (a n : Nat) : (u.apply s).memRead a n = s.memRead a n := by cases u <;> rfl
@[simp] theorem apply_engineMoves (s : State) : (u.apply s).engineMoves = s.engineMoves := by cases u <;> rfl
@[simp] theorem apply_statusRead (s : State) : (u.apply s).statusRead = s.statusRead := by cases u <;> rfl

@[simp] theorem live_respond (s : State) (r : BusResponse) : u.live (s.respond r) = u.live s := by cases u <;> rfl
@[simp] theorem live_takeInput (s : State) (rest : List Input) : u.live (s.takeInput rest) = u.live s := by cases u <;> rfl

/-! ### Operations that an update commutes with, or that overwrite it -/

theorem apply_respond (s : State) (r : BusResponse) : u.apply (s.respond r) = (u.apply s).respond r := by cases u <;> rfl

theorem apply_takeInput (s : State) (rest : List Input) : u.apply (s.takeInput rest) = (u.apply s).takeInput rest := by
  cases u <;> rfl

/-- A hardware reset gives every table and the latch their reset values (70_reset_and_hazards.md R900). -/
theorem hardReset_apply (s : State) (asserted : Bool) : (u.apply s).hardReset asserted = s.hardReset asserted := by
  cases u <;> rfl

/-- So does a soft reset (70_reset_and_hazards.md R901). -/
theorem softReset_apply (s : State) : (u.apply s).softReset = s.softReset := by cases u <;> rfl

variable {u}

theorem AgreesUnlessLive.eq_or {t t' : State} (h : u.AgreesUnlessLive t t') : t' = t ∨ t' = u.apply t :=
  h.imp_right And.left

theorem AgreesUnlessLive.eq_of_live {t t' : State} (h : u.AgreesUnlessLive t t') (hl : u.live t = true) : t' = t :=
  h.resolve_right fun ⟨_, hn⟩ => by simp [hl] at hn

theorem AgreesUnlessLive.respond {t t' : State} (h : u.AgreesUnlessLive t t') (r : BusResponse) :
    u.AgreesUnlessLive (t.respond r) (t'.respond r) := by
  rcases h with rfl | ⟨rfl, hl⟩
  · exact .inl rfl
  · exact .inr ⟨(u.apply_respond t r).symm, by simpa using hl⟩

section
variable {s : State} (hl : u.live s = false)
include hl

/-! ### The host's accesses -/

/-- No register shows a part that is not live: CODE_N and CODE_K read 0 without a code (R117). -/
theorem readRegister_apply (r : Reg) : (u.apply s).readRegister r = s.readRegister r := by
  cases u with
  | tree | generator | latch => cases r <;> rfl
  | code c =>
    obtain ⟨hc, -⟩ : s.codeValid = false ∧ s.gValid = false := by simpa [live] using hl
    cases r with
    | codeN => simp [State.readRegister, State.codeNWord, apply, hc]
    | codeK => simp [State.readRegister, State.codeKWord, apply, hc]
    | _ => rfl

/-- An accepted issue loads the whole latch (30_encoding.md R310) and touches no table. -/
theorem agrees_issue (w : Word) : u.AgreesUnlessLive (s.issue w) ((u.apply s).issue w) := by
  cases u with
  | latch => exact .inl rfl
  | tree | code | generator => exact .inr ⟨rfl, hl⟩

theorem agrees_writeRegister (r : Reg) (v : Word) :
    u.AgreesUnlessLive (s.writeRegister r v) ((u.apply s).writeRegister r v) := by
  cases r with
  | ctrl =>
    simp only [State.writeRegister, State.writeCtrl]
    split
    · exact .inl (u.softReset_apply s)
    · cases u <;> exact .inr ⟨rfl, hl⟩
  | cmd =>
    simp only [State.writeRegister, State.writeCmd, apply_engine]
    split
    · exact agrees_issue hl v
    · cases u <;> exact .inr ⟨rfl, hl⟩
  | _ => cases u <;> exact .inr ⟨rfl, hl⟩

theorem agrees_performAccess (a : BusAccess) :
    u.AgreesUnlessLive (s.performAccess a) ((u.apply s).performAccess a) := by
  have unread (r : BusResponse) : u.AgreesUnlessLive (s.respond r) ((u.apply s).respond r) :=
    .respond (.inr ⟨rfl, hl⟩) r
  unfold State.performAccess
  rw [apply_inReset, apply_params]
  split
  · split <;> exact unread _
  · split
    · exact unread _
    · exact unread _
    · exact unread _
    · rw [readRegister_apply hl]
      exact unread _
    · -- a register write
      exact (agrees_writeRegister hl _ _).respond .done
    · rw [apply_memRead]
      exact unread _
    · -- a DMEM write, which reads no part of the state but the memory
      cases u <;> exact .inr ⟨rfl, hl⟩

theorem agrees_driveResetLine (asserted : Bool) :
    u.AgreesUnlessLive (s.driveResetLine asserted) ((u.apply s).driveResetLine asserted) := by
  unfold State.driveResetLine
  rw [apply_inReset]
  split
  · exact .inl (u.hardReset_apply s asserted)
  · exact .inr ⟨rfl, hl⟩

theorem agrees_inputStep : u.AgreesUnlessLive s.inputStep (u.apply s).inputStep := by
  have access (rest : List Input) (a : BusAccess) :
      u.AgreesUnlessLive ((s.takeInput rest).performAccess a) (((u.apply s).takeInput rest).performAccess a) := by
    rw [← apply_takeInput]
    exact agrees_performAccess (by simpa using hl) a
  unfold State.inputStep
  rw [apply_pending]
  split
  · exact .inr ⟨rfl, hl⟩
  · exact access _ _
  · rw [apply_inReset, apply_busy, apply_statusRead]
    split
    · exact access _ _
    · exact access _ _
  · rw [← apply_takeInput]
    exact agrees_driveResetLine (by simpa using hl) _

/-! ### The engine -/

theorem apply_latch (hb : s.engine = .busy) : (u.apply s).latch = s.latch := by
  cases u with
  | latch l => simp [live, State.busy, hb] at hl
  | tree | code | generator => rfl

/-- A running command's result depends on no part that is not live: the commands that use a table check its flag first
(60_exceptions.md R804). -/
theorem resultOf_apply (hb : s.engine = .busy) (i : Instr) : resultOf i (u.apply s) = resultOf i s := by
  cases u with
  | tree t =>
    have ht : s.treeValid = false := hl
    cases i with
    | henc => simp [resultOf, hencResult, apply, ht]
    | hdec => simp [resultOf, hdecResult, apply, ht]
    | hcode symbol => simp [resultOf, hcodeResult, apply, ht]
    | _ => rfl
  | code c =>
    obtain ⟨hc, hg⟩ : s.codeValid = false ∧ s.gValid = false := by simpa [live] using hl
    cases i with
    | lcstoreh => simp [resultOf, lcstorehResult, apply, hc]
    | lcstoreg => simp [resultOf, lcstoregResult, apply, hg]
    | lcenc => simp [resultOf, lcencResult, apply, hg]
    | lcdec => simp [resultOf, lcdecResult, apply, hc]
    | lcencs => simp [resultOf, lcencsResult, apply, hg]
    | lcdecs => simp [resultOf, lcdecsResult, apply, hc]
    | lcsyn => simp [resultOf, lcsynResult, apply, hc]
    | _ => rfl
  | generator P G =>
    have hg : s.gValid = false := hl
    cases i with
    | lcstoreg => simp [resultOf, lcstoregResult, apply, hg]
    | lcenc => simp [resultOf, lcencResult, apply, hg]
    | lcencs => simp [resultOf, lcencsResult, apply, hg]
    | _ => rfl
  | latch l => simp [live, State.busy, hb] at hl

/-- The engine completes with the same result with and without the update. -/
theorem engineStep_apply (hb : s.engine = .busy) :
    ∃ r, s.engineStep = .next (s.complete r) ∧ (u.apply s).engineStep = .next ((u.apply s).complete r) := by
  unfold State.engineStep
  rw [apply_latch hl hb]
  cases decode s.latch.raw with
  | ok i => exact ⟨resultOf i s, exec_eq i s, by rw [← resultOf_apply hl hb i]; exact exec_eq i _⟩
  | error e => exact ⟨.error .illegalCommand, rfl, rfl⟩

/-- A completion sets a table as a whole and its flag with it, or leaves both alone (30_encoding.md R312). -/
theorem agrees_complete (r : CommandResult) : u.AgreesUnlessLive (s.complete r) ((u.apply s).complete r) := by
  cases r with
  | error c =>
    cases u with
    | latch l => exact .inr ⟨rfl, rfl⟩
    | tree | code | generator => exact .inr ⟨rfl, hl⟩
  | ok e =>
    obtain ⟨writes, res0, res1, newTree, newCode, newSyndrome⟩ := e
    cases u with
    | tree t =>
      cases newTree with
      | none => exact .inr ⟨rfl, by simpa [live] using hl⟩
      | some _ => exact .inl rfl
    | code | generator =>
      cases newCode with
      | none => exact .inr ⟨rfl, by simpa [live] using hl⟩
      | some _ => exact .inl rfl
    | latch l => exact .inr ⟨rfl, rfl⟩

/-- A step gives the same state with and without the update, or states that differ in the updated part alone, still not live. -/
theorem agrees_step {t : State} (ht : step s = .next t) :
    ∃ t', step (u.apply s) = .next t' ∧ u.AgreesUnlessLive t t' := by
  unfold step at ht ⊢
  rw [apply_engineMoves]
  split at ht
  · rename_i hm
    obtain ⟨r, hr, hr'⟩ := engineStep_apply hl (engine_of_engineMoves hm)
    obtain rfl : s.complete r = t := by simpa [hr] using ht
    exact ⟨_, by rw [if_pos hm, hr'], agrees_complete hl r⟩
  · rename_i hm
    obtain rfl : s.inputStep = t := by simpa using ht
    exact ⟨_, by rw [if_neg hm], agrees_inputStep hl⟩

end

end HiddenUpdate

/-- Settles O60: each of the four clauses is a step from a hidden update of the state. -/
theorem unspecifiedTablesAreNeverRead : Obligations.UnspecifiedTablesAreNeverRead := by
  intro s t ht
  refine ⟨fun tree htree => ?_, fun code hcode hg => ?_, fun P G hg => ?_, fun latch hidle => ?_⟩
  · obtain ⟨t', ht', ha⟩ := HiddenUpdate.agrees_step (u := .tree tree) htree ht
    exact ⟨t', ht', by rcases ha.eq_or with rfl | rfl <;> rfl, ha.eq_of_live⟩
  · obtain ⟨t', ht', ha⟩ := HiddenUpdate.agrees_step (u := .code code) (by simp [HiddenUpdate.live, hcode, hg]) ht
    exact ⟨t', ht', by rcases ha.eq_or with rfl | rfl <;> rfl, fun hv => ha.eq_of_live (by simp [HiddenUpdate.live, hv])⟩
  · obtain ⟨t', ht', ha⟩ := HiddenUpdate.agrees_step (u := .generator P G) hg ht
    exact ⟨t', ht', by rcases ha.eq_or with rfl | rfl <;> rfl, ha.eq_of_live⟩
  · obtain ⟨t', ht', ha⟩ := HiddenUpdate.agrees_step (u := .latch latch) (by simp [HiddenUpdate.live, State.busy, hidle]) ht
    exact ⟨t', ht', by rcases ha.eq_or with rfl | rfl <;> rfl,
      fun hb => ha.eq_of_live (by simp [HiddenUpdate.live, State.busy, hb])⟩

end Sys2Proof.Machine
end

section
/-! SUPPORT. Which accesses of the window are ignored and which are erroneous (10_state.md R102; 20_memory.md R201, R202), and
what the answer to one is. -/

namespace Sys2Proof.Machine

/-- A register a host write is ignored at (10_state.md R101, R102). -/
def Reg.readOnly : Reg → Bool
  | .id | .res0 | .res1 | .codeN | .codeK | .synd | .param0 | .param1 => true
  | .ctrl | .status | .cmd | .arg0 | .arg1 | .arg2 | .arg3 | .arg4 => false

theorem State.writeRegister_readOnly {r : Reg} (h : r.readOnly = true) (s : State) (v : Word) : s.writeRegister r v = s := by
  cases r with
  | id | res0 | res1 | codeN | codeK | synd | param0 | param1 => rfl
  | ctrl | status | cmd | arg0 | arg1 | arg2 | arg3 | arg4 => cases h

/-- The offsets of the read-only registers (10_state.md R101). -/
theorem atOffset_readOnly {offset : Nat} (h : offset ∈ [0x00, 0x24, 0x28, 0x2C, 0x30, 0x34, 0x38, 0x3C]) :
    ∃ r, Reg.atOffset offset = some r ∧ r.readOnly = true := by
  have hall : ∀ offset ∈ [0x00, 0x24, 0x28, 0x2C, 0x30, 0x34, 0x38, 0x3C], (Reg.atOffset offset).any Reg.readOnly = true := by
    decide
  exact (Option.any_eq_true _ _).1 (hall offset h)

/-- Registers stand at the multiples of 4 below 0x40 only (10_state.md R101). -/
theorem atOffset_eq_none {offset : Nat} (h : ¬ (offset < 0x40 ∧ offset % 4 = 0)) : Reg.atOffset offset = none := by
  unfold Reg.atOffset
  split
  · exact List.getElem?_eq_none (by simp only [registerMap, List.length_cons, List.length_nil]; omega)
  · rfl

/-- An offset that is neither a register's nor an accepted DMEM access's is reserved or an erroneous DMEM access; the latter
starts inside DMEM (log 9). -/
theorem targetAt_erroneous {p : Params} {bytes offset : Nat} (hreg : ¬ (offset < 0x40 ∧ bytes = 4 ∧ offset % 4 = 0))
    (hmem : ¬ (0x10000 ≤ offset ∧ bytes ∈ [1, 2, 4] ∧ (offset - 0x10000) % bytes = 0
      ∧ offset - 0x10000 + bytes ≤ p.dmemSize)) :
    Params.targetAt p bytes offset = .reserved ∨
      (Params.targetAt p bytes offset = .badDmem ∧ 0x10000 ≤ offset ∧ offset < 0x10000 + p.dmemSize) := by
  unfold Params.targetAt
  split
  · left
    split
    · rw [atOffset_eq_none (by omega)]
      rfl
    · rfl
  · rename_i hoff
    have hbad : ¬ Params.dmemAccessOk p bytes (offset - dmemOffset) = true := by
      intro hok
      refine hmem ⟨by simpa using hoff, ?_⟩
      simpa [Params.dmemAccessOk, or_assoc, and_assoc] using hok
    rw [if_neg hbad]
    simp only [dmemOffset] at hoff ⊢
    split
    · exact .inr ⟨rfl, by omega, by omega⟩
    · exact .inl rfl

/-- An access of a reserved part, or an erroneous DMEM access, gets a bus error and nothing else (60_exceptions.md R807). -/
theorem performAccess_busError {s : State} {a : BusAccess} (h : s.inReset = false)
    (ht : Params.target s.params a = .reserved ∨ Params.target s.params a = .badDmem) :
    s.performAccess a = s.respond .busError := by
  unfold State.performAccess
  rw [if_neg (by simp [h])]
  rcases ht with ht | ht
  · rw [ht]
  · rw [ht]

theorem holds_reserved {p : Params} {a : BusAccess} (h : Params.target p a = .reserved) : Params.holds p a = false := by
  unfold Params.holds
  rw [h]

/-- Settles O14: a read-only register ignores the write, and an erroneous access reaches a reserved part or is one that DMEM
refuses. -/
theorem ignoredAndErroneousAccessesChangeNothing : Obligations.IgnoredAndErroneousAccessesChangeNothing := by
  intro s hreset
  refine ⟨fun offset v hoffset => ?_, fun offset bytes kind hwindow hreg hmem => ?_⟩
  · obtain ⟨r, hr, hro⟩ := atOffset_readOnly hoffset
    refine ⟨?_, fun rest ⟨_, hturn⟩ _ hp => ?_⟩
    · rw [performAccess_write hreset (target_register hr _) rfl, State.writeRegister_readOnly hro]
      rfl
    · have hctrl : r ≠ .ctrl := by rintro rfl; cases hro
      rw [step_register_write hreset hr (hturn.imp_right (⟨·, hctrl⟩)) hp, State.writeRegister_readOnly hro]
      rfl
  · have ht := targetAt_erroneous hreg hmem
    rw [← target_inside hwindow bytes kind] at ht
    refine ⟨performAccess_busError hreset (ht.imp_right And.left), fun rest ⟨_, hturn⟩ hfree hp => ?_⟩
    have hm : s.engineMoves = false := by
      rcases ht with ht | ⟨-, hlow, hhigh⟩
      · exact engineMoves_access hp hturn (holds_reserved ht)
      · exact engineMoves_idle (hfree.resolve_right (by omega))
    rw [step_access hp hm, performAccess_busError (s := s.takeInput rest) hreset (ht.imp_right And.left)]
    rfl

end Sys2Proof.Machine
end

section
/-! SUPPORT. Which commands set the tree and the linear code (10_state.md R133), said once for all commands. -/

namespace Sys2Proof.Machine

/-- Where the result is a success, its effects satisfy `P`. (`SoundResult p` is the case of `Effects.Sound p`.) -/
def OkSatisfies (P : Effects → Prop) (r : CommandResult) : Prop := ∀ e, r = .ok e → P e

theorem okSatisfies_error (P : Effects → Prop) (c : ErrorCode) : OkSatisfies P (.error c) := by
  intro e he
  cases he

theorem okSatisfies_ok {P : Effects → Prop} {e : Effects} (h : P e) : OkSatisfies P (.ok e) := by
  rintro _ ⟨⟩
  exact h

theorem okSatisfies_check {P : Effects → Prop} {c : ErrorCode} {r : CommandResult} {cond : Prop} [Decidable cond]
    (h : OkSatisfies P r) : OkSatisfies P (if cond then .error c else r) := by
  split
  · exact okSatisfies_error P c
  · exact h

/-- The effects set the tree exactly when `tree` says so, and set the linear code, with a new g_valid, as `g` says. -/
def Effects.Builds (tree : Bool) (g : Option Bool) (e : Effects) : Prop :=
  e.tree.isSome = tree ∧ e.code.map (fun c => c.2) = g

/-- A successful command builds the tree (10_state.md R133). -/
def buildsTree (i : Instr) : Bool := decide (i ∈ [Instr.hbuild, .hcomp, .hdecomp])

/-- The g_valid that a successful command sets with the linear code, if it sets one (10_state.md R133). -/
def buildsCode (i : Instr) : Option Bool :=
  if i = .lcgen then some true else if i = .lcloadh then some false else none

/-- What a command of the other kind builds: nothing. -/
theorem builds_plain {ws : List (Nat × List Byte)} {r0 r1 : Word} {syndrome : Option (Word × Bool)} :
    OkSatisfies (Effects.Builds false none) (.ok { writes := ws, res0 := r0, res1 := r1, syndrome := syndrome }) :=
  okSatisfies_ok ⟨rfl, rfl⟩

theorem builds_tree {ws : List (Nat × List Byte)} {r0 r1 : Word} {t : CodeTree} :
    OkSatisfies (Effects.Builds true none) (.ok { writes := ws, res0 := r0, res1 := r1, tree := some t }) :=
  okSatisfies_ok ⟨rfl, rfl⟩

theorem builds_code {c : LinearCode} {gValid : Bool} :
    OkSatisfies (Effects.Builds false (some gValid)) (.ok (setCode c gValid)) :=
  okSatisfies_ok ⟨rfl, rfl⟩

theorem resultOf_builds (i : Instr) (s : State) : OkSatisfies (Effects.Builds (buildsTree i) (buildsCode i)) (resultOf i s) := by
  cases i with
  | nop => exact builds_plain
  | hfreq | unpack | lcstoreh | lcstoreg => exact okSatisfies_check (okSatisfies_check builds_plain)
  | pad | lcsyn => exact okSatisfies_check (okSatisfies_check (okSatisfies_check builds_plain))
  | lcenc | lcdec | lcencs | lcdecs =>
    exact okSatisfies_check (okSatisfies_check (okSatisfies_check (okSatisfies_check builds_plain)))
  | hbuild => exact okSatisfies_check builds_tree
  | henc | hdec | unpad =>
    refine okSatisfies_check (okSatisfies_check ?_)
    split
    · exact okSatisfies_error _ _
    · exact okSatisfies_check builds_plain
  | pack =>
    refine okSatisfies_check ?_
    split
    · exact okSatisfies_error _ _
    · exact okSatisfies_check builds_plain
  | hcode symbol =>
    refine okSatisfies_check ?_
    split
    · exact builds_plain
    · exact okSatisfies_check builds_plain
  | hcomp | hdecomp =>
    refine okSatisfies_check (okSatisfies_check ?_)
    dsimp only
    split
    · exact okSatisfies_error _ _
    · exact okSatisfies_check builds_tree
  | lcgen | lcloadh =>
    dsimp only [resultOf, lcgenResult, lcloadhResult]
    split
    · exact okSatisfies_error _ _
    · exact okSatisfies_check builds_code

/-- Settles O23: a success commits what its command builds, and an error leaves the flags alone. -/
theorem validityFlagsFollowSuccessfulBuilders : Obligations.ValidityFlagsFollowSuccessfulBuilders := by
  intro i s t herr h
  rcases exec_cases h with ⟨e, he, rfl⟩ | ⟨c, -, rfl⟩
  · obtain ⟨htree, hcode⟩ := resultOf_builds i s e he
    have hsome : e.code.isSome = (buildsCode i).isSome := by rw [← hcode, Option.isSome_map]
    simp only [State.finish_treeValid, State.commit_treeValid, State.finish_codeValid, State.commit_codeValid,
      State.finish_gValid, State.commit_gValid, State.finish_err, State.commit_err, herr, htree, hcode, hsome]
    refine ⟨rfl, ?_⟩
    by_cases hgen : i = .lcgen
    · simp [buildsCode, hgen]
    · by_cases hload : i = .lcloadh
      · simp [buildsCode, hload]
      · simp [buildsCode, hgen, hload]
  · simp

end Sys2Proof.Machine
end

section
/-! SUPPORT. The register views of STATUS, CTRL and PARAM0 (10_state.md R111, R112, R119), the STATUS write (R113), and the reset
state (R150). -/

namespace Sys2Proof.Machine

/-! ### The layouts of STATUS and CTRL -/

/-- STATUS as the row of its fields (10_state.md R112), with the width written as their sum. -/
theorem State.getLsbD_statusWord (s : State) (i : Nat) :
    s.statusWord.getLsbD i = (0#20 ++ BitVec.ofBool s.unc ++ BitVec.ofBool s.gValid ++ BitVec.ofBool s.codeValid
      ++ BitVec.ofBool s.treeValid ++ s.errCode ++ BitVec.ofBool s.cmdOvr ++ BitVec.ofBool s.err ++ BitVec.ofBool s.done
      ++ BitVec.ofBool s.busy).getLsbD i := rfl

/-- CTRL as the row of its fields (10_state.md R111), with the width written as their sum. -/
theorem State.getLsbD_ctrlWord (s : State) (i : Nat) :
    s.ctrlWord.getLsbD i = (0#30 ++ BitVec.ofBool s.ie ++ 0#1).getLsbD i := rfl

theorem State.extractLsb'_errCode (s : State) : s.statusWord.extractLsb' 4 4 = s.errCode := by
  refine BitVec.eq_of_getLsbD_eq fun j hj => ?_
  rw [BitVec.getLsbD_extractLsb', State.getLsbD_statusWord]
  simp only [BitVec.getLsbD_append]
  simp [hj]

theorem State.statusWord_reserved (s : State) : s.statusWord.extractLsb' 12 20 = 0#20 := by
  refine BitVec.eq_of_getLsbD_eq fun j hj => ?_
  rw [BitVec.getLsbD_extractLsb', State.getLsbD_statusWord]
  simp (disch := omega) only [BitVec.getLsbD_append, if_neg, BitVec.getLsbD_zero, Bool.and_false]

theorem State.ctrlWord_reserved (s : State) : s.ctrlWord.extractLsb' 2 30 = 0#30 := by
  refine BitVec.eq_of_getLsbD_eq fun j hj => ?_
  rw [BitVec.getLsbD_extractLsb', State.getLsbD_ctrlWord]
  simp (disch := omega) only [BitVec.getLsbD_append, if_neg, BitVec.getLsbD_zero, Bool.and_false]

/-- Settles O12: each field is found behind the fields below it. -/
theorem statusAndCtrlLayout : Obligations.StatusAndCtrlLayout := by
  intro s
  refine ⟨?_, ?_, ?_, ?_, s.extractLsb'_errCode, ?_, ?_, ?_, ?_, s.statusWord_reserved, ?_, ?_, s.ctrlWord_reserved⟩
  all_goals -- the single bits
    simp only [State.getLsbD_statusWord, State.getLsbD_ctrlWord, BitVec.getLsbD_append]
    simp [State.busy]

/-! ### The STATUS write -/

/-- Settles O13: the write is performed at once, and only the three bits count. -/
theorem statusWriteClearsWhereOne : Obligations.StatusWriteClearsWhereOne := by
  rintro s v rest ⟨hreset, hturn⟩ hp
  rw [step_register_write (r := .status) hreset rfl (hturn.imp_right (⟨·, by decide⟩)) hp]
  have clears (flag bit : Bool) : (flag && !bit) = if bit then false else flag := by cases bit <;> simp
  simp [State.writeRegister, State.writeStatus, State.takeInput, State.respond, clears]

/-! ### The reset state -/

/-- For legal parameters PARAM0 reads N_MAX + 2^16 · P_MAX: neither field is cut (00_scope.md R7, 10_state.md R119). -/
theorem State.param0Word_eq {s : State} (h : s.params.legal = true) :
    s.param0Word = BitVec.ofNat 32 (s.params.nMax + 65536 * s.params.pMax) := by
  obtain ⟨hn, hp⟩ : s.params.nMax ≤ 65535 ∧ s.params.pMax ≤ 16 := by
    simp only [Params.legal, Bool.and_eq_true, decide_eq_true_eq] at h
    omega
  apply BitVec.eq_of_toNat_eq
  have hword : s.param0Word.toNat = (0#8 ++ BitVec.ofNat 8 s.params.pMax ++ BitVec.ofNat 16 s.params.nMax).toNat := rfl
  rw [hword, BitVec.toNat_append, BitVec.toNat_append, ← Nat.shiftLeft_add_eq_or_of_lt (BitVec.isLt _)]
  simp [Nat.shiftLeft_eq]
  omega

/-- With legal parameters the reset state meets the invariant, whatever they are: every flag is 0 and DMEM lists nothing. -/
theorem State.resetWith_inv {p : Params} (h : p.legal = true) : (State.resetWith p).Inv := by
  refine ⟨h, ⟨rfl, by simp⟩, ?_⟩
  simp [State.statusOk, State.treeOk, State.codeOk]

/-- Settles O18: each value is the one `State.resetWith` writes; only CTRL, STATUS, the IRQ lines and PARAM0 are words or levels put
together from several. -/
theorem resetStateHasTheSpecsValues : Obligations.ResetStateHasTheSpecsValues := by
  refine ⟨rfl, fun p => ?_⟩
  have hctrl : (State.resetWith p).ctrlWord = 0#32 := by simp [State.ctrlWord]
  have hstatus : (State.resetWith p).statusWord = 0#32 := by simp [State.statusWord, State.busy]
  have hlines (line : Nat) : (State.resetWith p).irqOnLine line = false := by simp [State.irqOnLine, State.irq]
  exact ⟨rfl, hctrl, hstatus, rfl, rfl, rfl, hlines, rfl, rfl, rfl, rfl, rfl, rfl, rfl, rfl, rfl, rfl, rfl,
    State.param0Word_eq (s := State.resetWith p), rfl⟩

/-- Settles O56: the default parameters are legal. -/
theorem resetStateMeetsTheInvariant : Obligations.ResetStateMeetsTheInvariant := State.resetWith_inv (by decide)

end Sys2Proof.Machine
end

section
/-! SUPPORT. Bit sequences in memory (20_memory.md R204 to R206): the bits of a read and of a packed form, and pack and unpack
undo each other. -/

namespace Sys2Proof.Machine

/-- The bytes of `ceil8` hold all the bits. -/
theorem le_mul_ceil8 (x : Nat) : x ≤ 8 * ceil8 x := by
  unfold ceil8
  omega

/-- Byte `j` of the bytes a command reads. -/
theorem State.bytesRead_getD {s : State} (h : Memory.wf s.mem = true) (a : Nat) {n j : Nat} (hj : j < n) :
    (s.bytesRead a n).getD j 0#8 = s.readByte (a + j) := by
  rw [State.bytesRead_eq s h, List.getD_eq_getElem _ _ (by simpa using hj)]
  simp

/-- Bit `t` of packed byte `j` is bit `8·j + t` of the sequence, and 0 past its end (R206). -/
theorem pack_getD_getLsbD (b : Bits) {j t : Nat} (hj : j < (pack b).length) (ht : t < 8) :
    ((pack b).getD j 0#8).getLsbD (7 - t) = b.getD (8 * j + t) false := by
  rw [pack_length] at hj
  rw [pack, packBytes_getD b hj, packByte_getLsbD _ ht]
  simp only [List.getD_eq_getElem?_getD, List.getElem?_drop]

theorem unpack_length_of_le {bs : List Byte} {L : Nat} (h : L ≤ 8 * bs.length) : (unpack bs L).length = L := by
  rw [unpack_length, Nat.min_eq_left h]

/-- Bit `i` of an unpacked byte list is bit 7 − i mod 8 of byte i div 8 (R206). -/
theorem unpack_getD {bs : List Byte} {L i : Nat} (h : L ≤ 8 * bs.length) (hi : i < L) :
    (unpack bs L).getD i false = (bs.getD (i / 8) 0#8).getLsbD (7 - i % 8) := by
  have hlt : i < (unpack bs L).length := by rwa [unpack_length_of_le h]
  rw [List.getD_eq_getElem _ _ hlt, unpack_getElem]

/-- Bit `i` of a sequence read from DMEM is bit 7 − i mod 8 of byte i div 8 (R204). -/
theorem State.bitsRead_getD {s : State} (h : Memory.wf s.mem = true) (a : Nat) {L i : Nat} (hi : i < L) :
    (s.bitsRead a L).getD i false = (s.readByte (a + i / 8)).getLsbD (7 - i % 8) := by
  have hfits := le_mul_ceil8 L
  rw [State.bitsRead, unpack_getD (by rwa [State.bytesRead_length]) hi, State.bytesRead_getD h a (by omega)]

theorem unpack_pack (b : Bits) : unpack (pack b) b.length = b := by
  have hfits : b.length ≤ 8 * (pack b).length := by rw [pack_length]; exact le_mul_ceil8 _
  refine List.ext_getElem (unpack_length_of_le hfits) fun i _ hi => ?_
  calc (unpack (pack b) b.length)[i]
      = ((pack b).getD (i / 8) 0#8).getLsbD (7 - i % 8) := unpack_getElem _ _ _ _
    _ = b.getD (8 * (i / 8) + i % 8) false := pack_getD_getLsbD b (by omega) (Nat.mod_lt _ (by decide))
    _ = b[i] := by rw [Nat.div_add_mod, List.getD_eq_getElem _ _ hi]

theorem pack_unpack (bs : List Byte) : pack (unpack bs (8 * bs.length)) = bs := by
  have hlen : (pack (unpack bs (8 * bs.length))).length = bs.length := by
    rw [pack_length, unpack_length_of_le (Nat.le_refl _), ceil8]
    omega
  refine List.ext_getElem hlen fun j hj hj' => byte_ext fun t ht => ?_
  calc (pack (unpack bs (8 * bs.length)))[j].getLsbD (7 - t)
      = (unpack bs (8 * bs.length)).getD (8 * j + t) false := by
        rw [← pack_getD_getLsbD _ hj ht, List.getD_eq_getElem _ _ hj]
    _ = (bs.getD ((8 * j + t) / 8) 0#8).getLsbD (7 - (8 * j + t) % 8) := unpack_getD (Nat.le_refl _) (by omega)
    _ = bs[j].getLsbD (7 - t) := by
        rw [show (8 * j + t) / 8 = j by omega, show (8 * j + t) % 8 = t by omega, List.getD_eq_getElem _ _ hj']

/-- Settles O36: each clause is the law of one operation, bit by bit. -/
theorem bitSequencesArePackedFirstBitHighest : Obligations.BitSequencesArePackedFirstBitHighest :=
  ⟨fun s a L _ h hi => ⟨s.bitsRead_length a L, State.bitsRead_getD h a hi⟩,
    pack_length,
    fun b _ _ => pack_getD_getLsbD b,
    fun _ _ _ h hi => ⟨unpack_length_of_le h, unpack_getD h hi⟩,
    unpack_pack, pack_unpack⟩

end Sys2Proof.Machine
end

section
/-! SUPPORT. Host DMEM accesses (20_memory.md R202): which ones the block accepts, what a write stores, and that a read of the
bytes just written returns their number. -/

namespace Sys2Proof.Machine

/-- An aligned access of 1, 2 or 4 bytes wholly below DMEM_SIZE is accepted. -/
theorem dmemAccessOk_of_aligned {p : Params} {bytes offset : Nat} (hwidth : bytes ∈ [1, 2, 4]) (halign : offset % bytes = 0)
    (hsize : offset + bytes ≤ p.dmemSize) : Params.dmemAccessOk p bytes offset = true := by
  simpa [Params.dmemAccessOk, halign, hsize, or_assoc] using hwidth

/-- An accepted DMEM write stores the big-endian bytes of its data and nothing else. -/
theorem performAccess_dmem_write {s : State} {bytes offset : Nat} (h : s.inReset = false)
    (hok : Params.dmemAccessOk s.params bytes offset = true) (v : Word) :
    s.performAccess { address := s.params.base + dmemOffset + offset, bytes := bytes, kind := .write v }
      = { s with mem := Memory.write s.mem offset (beBytes bytes v.toNat), response := some .done } := by
  unfold State.performAccess
  rw [if_neg (by simp [h]), target_dmem hok]
  rfl

/-- An accepted DMEM read answers the big-endian number of the bytes. -/
theorem performAccess_dmem_read {s : State} {bytes offset : Nat} (h : s.inReset = false)
    (hok : Params.dmemAccessOk s.params bytes offset = true) :
    s.performAccess { address := s.params.base + dmemOffset + offset, bytes := bytes, kind := .read }
      = s.respond (.data (BitVec.ofNat 32 (s.memRead offset bytes))) := by
  unfold State.performAccess
  rw [if_neg (by simp [h]), target_dmem hok]

/-- The number read from a region just written is the number written, cut to the width; the memory need not be canonical. -/
theorem State.memRead_of_write {s : State} {m : List Host.Cell} {a n v : Nat} (h : s.mem = Memory.write m a (beBytes n v)) :
    s.memRead a n = v % 2 ^ (8 * n) := by
  have hread := Memory.readRun_write (Config.unwrittenByte s.memEpoch) m a (beBytes n v)
  rw [beBytes_length] at hread
  rw [State.memRead, State.bytesRead, h, hread, beNumber_beBytes, Nat.pow_mul]

/-- A read of the bytes just written, whatever else the state holds, answers the low bits of the data. -/
theorem performAccess_dmem_read_of_write {s : State} {bytes offset v : Nat} {m : List Host.Cell} (h : s.inReset = false)
    (hok : Params.dmemAccessOk s.params bytes offset = true) (hm : s.mem = Memory.write m offset (beBytes bytes v)) :
    s.performAccess { address := s.params.base + dmemOffset + offset, bytes := bytes, kind := .read }
      = { s with response := some (.data (BitVec.ofNat 32 (v % 2 ^ (8 * bytes)))) } := by
  rw [performAccess_dmem_read h hok, State.memRead_of_write hm]
  rfl

/-- A byte of a number, by division and by its bits. -/
theorem ofNat_div_eq_extractLsb' (v : Word) (k : Nat) : BitVec.ofNat 8 (v.toNat / 256 ^ k) = v.extractLsb' (8 * k) 8 := by
  apply BitVec.eq_of_toNat_eq
  rw [BitVec.toNat_ofNat, BitVec.extractLsb'_toNat, Nat.shiftRight_eq_div_pow, Nat.pow_mul]

/-- Settles O15: the write is `Memory.write` of the big-endian bytes, the bytes read back as their number, and while the engine is
IDLE a step performs the access at the head of the list. -/
theorem hostDmemAccessIsBigEndian : Obligations.HostDmemAccessIsBigEndian := by
  intro s bytes offset v hreset hwidth halign hsize access t value
  have hok : Params.dmemAccessOk s.params bytes offset = true := dmemAccessOk_of_aligned hwidth halign hsize
  have ht : t = { s with mem := Memory.write s.mem offset (beBytes bytes v.toNat), response := some .done } :=
    performAccess_dmem_write hreset hok v
  have hstored : s.storedFrom t offset (beBytes bytes v.toNat) := storedFrom_write (by rw [ht]) (by rw [ht])
  clear_value t
  subst ht
  refine ⟨rfl, fun j hj => ?_, fun x hx => ?_, performAccess_dmem_read_of_write hreset hok rfl, fun rest hidle hp => ⟨?_, ?_⟩⟩
  · rw [hstored, beBytes_length, if_pos (by omega), Nat.add_sub_cancel_left, beBytes_getD _ hj, ofNat_div_eq_extractLsb']
  · rw [hstored, beBytes_length, if_neg (by omega)]
  · rw [step_access hp (engineMoves_idle hidle)]
    exact congrArg _ (performAccess_dmem_write (s := s.takeInput (.access (access .read) :: rest)) hreset hok v)
  · refine Eq.trans (step_access rfl (engineMoves_idle hidle)) ?_
    exact congrArg _ (performAccess_dmem_read_of_write hreset hok rfl)

end Sys2Proof.Machine
end

section
/-! SUPPORT. Decoding and encoding (30_encoding.md R303, R305): the rows of the opcode map against the commands' words, and when a
word decodes to a command. -/

namespace Sys2Proof

/-- A row's command has the row's opcode, and its IMM8 is the operand, which is 0 where the row takes none (R300, R303). -/
theorem opcodeMap_command : ∀ row ∈ opcodeMap, ∀ imm : Byte, (row.takesImm = false → imm = 0#8) →
    (row.command imm).opcode = row.opc ∧ (row.command imm).immediate = imm := by
  simp [opcodeMap, Instr.opcode, Instr.immediate]

/-- A word that decodes to a command meets a row of the opcode map, which gives the command (R305). -/
theorem exists_row_of_decode_ok {w : Word} {i : Instr} (h : decode w = .ok i) :
    (CommandFields.ofWord w).rsvd = 0#16 ∧ ∃ row ∈ opcodeMap, row.opc = (CommandFields.ofWord w).opc ∧
      (row.takesImm = false → (CommandFields.ofWord w).imm8 = 0#8) ∧ i = row.command (CommandFields.ofWord w).imm8 := by
  unfold decode at h
  dsimp only at h
  split at h
  · cases h
  · rename_i hrsvd
    split at h
    · cases h
    · rename_i row hrow
      split at h
      · cases h
      · rename_i himm
        cases h
        refine ⟨by simpa using hrsvd, row, List.mem_of_find?_eq_some hrow, ?_, by simpa using himm, rfl⟩
        simpa using List.find?_some hrow

/-- A word that decodes to a command has the command's fields. -/
theorem ofWord_of_decode_ok {w : Word} {i : Instr} (h : decode w = .ok i) : CommandFields.ofWord w = i.fields := by
  obtain ⟨hrsvd, row, hrow, hopc, himm, rfl⟩ := exists_row_of_decode_ok h
  obtain ⟨hopcode, himmediate⟩ := opcodeMap_command row hrow _ himm
  rw [Instr.fields, hopcode, himmediate, hopc, ← hrsvd]

/-- The word of a command decodes to it: its opcode finds its own row. -/
theorem decode_encode (i : Instr) : decode (encode i) = .ok i := by
  unfold decode encode
  rw [CommandFields.ofWord_toWord]
  cases i <;> rfl

theorem decode_eq_ok_iff (w : Word) (i : Instr) : decode w = .ok i ↔ w = encode i := by
  constructor
  · intro h
    rw [encode, ← ofWord_of_decode_ok h, CommandFields.toWord_ofWord]
  · rintro rfl
    exact decode_encode i

/-- Settles O1: a decoded word has the command's fields, and a command's opcode finds its own row. -/
theorem decodeExactlyInvertsEncode : Obligations.DecodeExactlyInvertsEncode := decode_eq_ok_iff

/-- Settles O3: each word is the word of its command. -/
theorem sampleWordsDecodeToTheirCommands : Obligations.SampleWordsDecodeToTheirCommands := by
  unfold Obligations.SampleWordsDecodeToTheirCommands
  simp only [decode_eq_ok_iff]
  decide

/-- The opcodes of the map (R303). -/
def opcodes : List Byte := opcodeMap.map (fun row => row.opc)

theorem Instr.opcode_mem_opcodes (i : Instr) : i.opcode ∈ opcodes := by
  cases i <;> (dsimp only [Instr.opcode]; decide)

/-- Only HCODE has an immediate (R300). -/
theorem Instr.immediate_eq_zero {i : Instr} (h : i.opcode ≠ 0x07#8) : i.immediate = 0#8 := by
  cases i with
  | hcode => exact absurd rfl h
  | _ => rfl

/-- Every opcode of the map is a command's, with any immediate where it is HCODE's and 0 elsewhere. -/
theorem exists_instr_of_opcode {opc imm : Byte} (hopc : opc ∈ opcodes) (himm : opc ≠ 0x07#8 → imm = 0#8) :
    ∃ i : Instr, i.opcode = opc ∧ i.immediate = imm := by
  obtain ⟨row, hrow, rfl⟩ := List.mem_map.1 hopc
  have hhcode : ∀ row ∈ opcodeMap, row.takesImm = false → row.opc ≠ 0x07#8 := by decide
  exact ⟨row.command imm, opcodeMap_command row hrow imm fun h => himm (hhcode row hrow h)⟩

/-- Settles O2: an illegal word is no command's word, and the word of a legal opcode and immediate is that of a command. -/
theorem decodeRefusesExactlyTheIllegalWords : Obligations.DecodeRefusesExactlyTheIllegalWords := by
  intro w illegal
  constructor
  · intro hillegal
    cases h : decode w with
    | error e => exact ⟨e, rfl⟩
    | ok i =>
      have hf := ofWord_of_decode_ok h
      obtain ⟨hrsvd, himm, hopc⟩ := CommandFields.mk.inj hf
      rcases hillegal with hbad | hbad | ⟨hbad, hbadImm⟩
      · exact absurd hrsvd hbad
      · exact absurd (hopc ▸ i.opcode_mem_opcodes) hbad
      · rw [hopc] at hbad
        exact absurd (himm.trans (Instr.immediate_eq_zero hbad)) hbadImm
  · intro hlegal
    simp only [illegal, not_or, not_not, not_and] at hlegal
    obtain ⟨hrsvd, hopc, himm⟩ := hlegal
    obtain ⟨i, hi, hi'⟩ := exists_instr_of_opcode hopc himm
    refine ⟨i, (decode_eq_ok_iff w i).2 ?_, hi, hi'⟩
    rw [encode, Instr.fields, hi, hi', ← hrsvd]
    exact (CommandFields.toWord_ofWord w).symm

end Sys2Proof
end

section
/-! SUPPORT. Host programs (30_encoding.md R307, R308) and the host's side of a command: its issue (R310), its start (R311), and
WAIT. -/

namespace Sys2Proof.Machine

/-! ### The engine and the issue -/

/-- Settles O4: a ready engine moves, and it decodes the latched word. -/
theorem stepExecutesTheDecodedCommand : Obligations.StepExecutesTheDecodedCommand := by
  rintro s i ⟨hreset, hbusy, hready⟩ hdecode
  unfold step State.engineStep
  rw [if_pos (engineMoves_of_ready hreset hbusy hready), hdecode]

/-- Settles O6: the write reaches CMD, and an IDLE engine accepts it. -/
theorem cmdWriteWhileIdleIssues : Obligations.CmdWriteWhileIdleIssues := by
  intro s w rest hreset hidle hp
  have hcmd : (s.takeInput rest).writeRegister .cmd w = (s.takeInput rest).issue w := by
    simp [State.writeRegister, State.writeCmd, hidle]
  rw [step_register_write (r := .cmd) hreset rfl (.inl hidle) hp, hcmd]
  rfl

/-! ### The expansion of statements -/

/-- The offsets of the registers (10_state.md R101). -/
theorem offset_eq : ∀ e ∈ [(Reg.id, 0x00), (.ctrl, 0x04), (.status, 0x08), (.cmd, 0x0C), (.arg0, 0x10), (.arg1, 0x14),
    (.arg2, 0x18), (.arg3, 0x1C), (.arg4, 0x20), (.res0, 0x24), (.res1, 0x28), (.codeN, 0x2C), (.codeK, 0x30), (.synd, 0x34),
    (.param0, 0x38), (.param1, 0x3C)], e.1.offset = e.2 := by
  decide

theorem operandWrite_eq (p : Params) (r : Reg) (o : Option Word) :
    operandWrite p r o = (o.map (registerWrite p r)).toList := by
  cases o <;> rfl

/-- The command word is OPC | (imm << 8) (R308). -/
theorem commandWord_eq (opc imm : Byte) : commandWord opc imm = opc.setWidth 32 ||| imm.setWidth 32 <<< 8 := by
  refine BitVec.eq_of_getLsbD_eq fun j hj => ?_
  have hword : (commandWord opc imm).getLsbD j = ((0#16 ++ imm) ++ opc).getLsbD j := rfl
  rw [hword, BitVec.getLsbD_append, BitVec.getLsbD_append]
  by_cases hlow : j < 8
  · simp [hlow, hj]
  · have hopc : opc.getLsbD j = false := BitVec.getLsbD_of_ge _ _ (by omega)
    by_cases hmid : j - 8 < 8
    · simp [hlow, hmid, hj, hopc]
    · simp [hlow, hmid, BitVec.getLsbD_of_ge imm (j - 8) (by omega), hopc]

/-- MW8 writes successive bytes (R307). -/
theorem expand_mw8 (p : Params) (offset : Nat) (bs : List Byte) :
    HostStatement.expand p (.mw8 offset bs)
      = (List.range bs.length).map (fun j => dmemWrite p 1 (offset + j) ((bs.getD j 0#8).setWidth 32)) := by
  refine List.ext_getElem (by simp [HostStatement.expand]) fun j hj hj' => ?_
  have hlt : j < bs.length := by simpa using hj'
  simp [HostStatement.expand, hlt]

/-- A command statement writes its named operands in ARG order, then CMD, then waits (R308). -/
theorem expand_command (p : Params) (opc imm : Byte) (src len dst aux aux2 : Option Word) :
    HostStatement.expand p (.command opc imm src len dst aux aux2)
      = [(Reg.arg0, src), (.arg1, len), (.arg2, dst), (.arg3, aux), (.arg4, aux2)].filterMap
          (fun e => e.2.map (registerWrite p e.1))
        ++ [registerWrite p .cmd (commandWord opc imm), .wait] := by
  simp [HostStatement.expand, List.filterMap_eq_flatMap_toList, operandWrite_eq]

/-! ### WAIT -/

/-- WAIT's STATUS read answers STATUS and does nothing else, whatever inputs are left (R307). -/
theorem performAccess_statusRead {s : State} (h : s.inReset = false) (rest : List Input) :
    (s.takeInput rest).performAccess s.statusRead = (s.takeInput rest).respond (.data s.statusWord) :=
  performAccess_read (s := s.takeInput rest) h (target_register (r := .status) rfl .read) rfl

/-- WAIT never lets the engine move before the delay has run out (R307, log 5). -/
theorem engineMoves_wait {s : State} {rest : List Input} (hp : s.pending = .wait :: rest)
    (h : s.engine = .idle ∨ s.delay ≠ 0) : s.engineMoves = false := by
  rcases h with h | h
  · exact engineMoves_idle h
  · simp [State.engineMoves, hp, h]

/-- WAIT is a STATUS read, which stays at the head of the list while BUSY = 1 (R307). -/
theorem step_wait {s : State} {rest : List Input} (h : s.inReset = false) (hp : s.pending = .wait :: rest)
    (hi : s.engine = .idle ∨ s.delay ≠ 0) :
    step s = .next ((s.takeInput (if s.busy then .wait :: rest else rest)).respond (.data s.statusWord)) := by
  unfold step State.inputStep
  rw [if_neg (by simp [engineMoves_wait hp hi]), hp]
  cases hb : s.busy <;> simp [h, performAccess_statusRead h]

/-- Settles O10: each statement expands to its accesses, and WAIT is a STATUS read. -/
theorem hostStatementsActAsWritten : Obligations.HostStatementsActAsWritten := by
  refine ⟨fun p => ⟨fun e he => ?_, expand_mw8 p, fun _ _ => rfl, fun _ _ => rfl⟩, fun p opc imm src len dst aux aux2 => ?_,
    fun s rest hreset hp => ⟨fun hbusy hdelay => ?_, fun hidle => ?_⟩⟩
  · rw [← offset_eq e he]
    exact ⟨fun _ => rfl, rfl⟩
  · refine ⟨?_, rfl, rfl⟩
    rw [← commandWord_eq, expand_command]
    rfl
  · rw [step_wait hreset hp (.inr hdelay), if_pos (by simp [State.busy, hbusy]), ← hp]
    rfl
  · rw [step_wait hreset hp (.inl hidle), if_neg (by simp [State.busy, hidle])]
    rfl

end Sys2Proof.Machine
end

section
/-! SUPPORT. The frame of every command (30_encoding.md R302, R312): where it stores, and which commands set SYND and UNC, said
once for all commands. -/

namespace Sys2Proof.Machine

/-! ### Bytes outside every write -/

theorem Memory.lookup_writeAll_outside {m : List Host.Cell} {ws : List (Nat × List Byte)} {x : Nat}
    (h : ∀ w ∈ ws, x < w.1 ∨ w.1 + w.2.length ≤ x) : Memory.lookup (Memory.writeAll m ws) x = Memory.lookup m x := by
  induction ws generalizing m with
  | nil => rfl
  | cons w ws ih =>
    obtain ⟨hw, hws⟩ := List.forall_mem_cons.1 h
    rw [Memory.writeAll_cons, ih hws, Memory.lookup_write_outside hw]

/-- A byte outside every write of a successful command reads as before (R312). -/
theorem State.readByte_commit_outside {s : State} {e : Effects} {x : Nat}
    (h : ∀ w ∈ e.writes, x < w.1 ∨ w.1 + w.2.length ≤ x) : (s.commit e).finish.readByte x = s.readByte x := by
  simp [State.readByte, Memory.lookup_writeAll_outside h]

/-! ### Counts in RES0 -/

/-- The bits or bytes of a region that lies in DMEM are counted in RES0 without a cut (00_scope.md R7). -/
theorem result_toNat_of_inside {s : State} {a n : Nat} (hlegal : s.params.legal = true) (h : ¬s.outOfRange a (ceil8 n)) :
    (result n).toNat = n := by
  have hsize : s.params.dmemSize ≤ 2 ^ 28 := by
    simp only [Params.legal, Bool.and_eq_true, decide_eq_true_eq] at hlegal
    omega
  rw [BitVec.toNat_ofNat, Nat.mod_eq_of_lt]
  unfold ceil8 at h
  omega

/-! ### The frame -/

/-- The effects of a command stay in its frame: it sets SYND and UNC only where it decodes, stores nothing where it has no output
region, and else stores at dst no more than its output region holds, but for HCOMP's table at aux (R302). -/
structure Effects.Frame (s : State) (i : Instr) (e : Effects) : Prop where
  syndrome_none : i ∉ [Instr.lcdec, .lcdecs, .lcsyn] → e.syndrome = none
  writes_nil : i ∈ [Instr.nop, .hbuild, .lcgen, .lcloadh, .lcsyn] → e.writes = []
  writes_within : s.params.legal = true → s.codeOk → ∀ w ∈ e.writes,
    (w.1 = s.opDst ∧ w.2.length ≤ s.outputBytes i { s with res0 := e.res0 }) ∨
      (i = .hcomp ∧ w.1 = s.opAux ∧ w.2.length = 1024)

/-- The size of the output region rests on RES0 and on the state before. -/
theorem State.outputBytes_congr (s : State) (i : Instr) {t t' : State} (h : t.res0 = t'.res0) :
    s.outputBytes i t = s.outputBytes i t' := by
  unfold State.outputBytes
  rw [h]

/-- A check that raises an error: what follows may assume that it passed. -/
theorem okSatisfies_passed {P : Effects → Prop} {c : ErrorCode} {r : CommandResult} {cond : Prop} [Decidable cond]
    (h : ¬cond → OkSatisfies P r) : OkSatisfies P (if cond then .error c else r) := by
  split
  · exact okSatisfies_error P c
  · exact h ‹_›

/-- No more bits pack into no more bytes (20_memory.md R206). -/
theorem pack_length_mono {b : Bits} {n : Nat} (hb : b.length ≤ n) : (pack b).length ≤ ceil8 n := by
  rw [pack_length]
  exact Nat.div_le_div_right (by omega)

/-- The packed form of no more bits than RES0 counts fits the output region of that many bits (R302). -/
theorem pack_length_le_result {s : State} {a n : Nat} {b : Bits} (hlegal : s.params.legal = true)
    (h : ¬s.outOfRange a (ceil8 n)) (hb : b.length ≤ n) : (pack b).length ≤ ceil8 (result n).toNat := by
  rw [result_toNat_of_inside hlegal h]
  exact pack_length_mono hb

/-- A number of bytes that lie in DMEM is counted in RES0 without a cut. -/
theorem result_toNat_of_bytes {s : State} {a n : Nat} (hlegal : s.params.legal = true) (h : ¬s.outOfRange a n) :
    (result n).toNat = n :=
  result_toNat_of_inside (a := a) hlegal (by unfold ceil8; omega)

section
variable {s : State} {i : Instr} {r0 r1 : Word} {tree : Option CodeTree} {code : Option (LinearCode × Bool)}
  {syndrome : Option (Word × Bool)}

/-- A command that stores nothing. -/
theorem frame_quiet (hsynd : i ∉ [Instr.lcdec, .lcdecs, .lcsyn] → syndrome = none := by simp) :
    OkSatisfies (Effects.Frame s i)
      (.ok { writes := [], res0 := r0, res1 := r1, tree := tree, code := code, syndrome := syndrome }) :=
  okSatisfies_ok ⟨hsynd, fun _ => rfl, by simp⟩

/-- A command that stores bytes at dst. -/
theorem frame_store {bs : List Byte}
    (hlen : s.params.legal = true → s.codeOk → bs.length ≤ s.outputBytes i { s with res0 := r0 })
    (hsynd : i ∉ [Instr.lcdec, .lcdecs, .lcsyn] → syndrome = none := by simp)
    (hstores : i ∉ [Instr.nop, .hbuild, .lcgen, .lcloadh, .lcsyn] := by simp) :
    OkSatisfies (Effects.Frame s i)
      (.ok { writes := [(s.opDst, bs)], res0 := r0, res1 := r1, tree := tree, code := code, syndrome := syndrome }) :=
  okSatisfies_ok ⟨hsynd, fun h => absurd h hstores, fun hlegal hc => by simpa using .inl (hlen hlegal hc)⟩

end

theorem hfreqResult_frame (s : State) : OkSatisfies (Effects.Frame s .hfreq) (hfreqResult s) :=
  okSatisfies_check (okSatisfies_check (frame_store fun _ _ => (tableWrite_length s.opDst _).le))

theorem hencResult_frame (s : State) : OkSatisfies (Effects.Frame s .henc) (hencResult s) := by
  refine okSatisfies_check (okSatisfies_check ?_)
  split
  · exact okSatisfies_error _ _
  · exact okSatisfies_passed fun hdst => frame_store fun hlegal _ => pack_length_le_result hlegal hdst le_rfl

theorem hdecResult_frame (s : State) : OkSatisfies (Effects.Frame s .hdec) (hdecResult s) := by
  refine okSatisfies_check (okSatisfies_check ?_)
  split
  · exact okSatisfies_error _ _
  · exact okSatisfies_passed fun hdst => frame_store fun hlegal _ => (result_toNat_of_bytes hlegal hdst).ge

theorem hcompResult_frame (s : State) : OkSatisfies (Effects.Frame s .hcomp) (hcompResult s) := by
  refine okSatisfies_check (okSatisfies_check ?_)
  dsimp only
  split
  · exact okSatisfies_error _ _
  · refine okSatisfies_passed fun hdst => okSatisfies_ok ⟨fun _ => rfl, by simp, fun hlegal _ => ?_⟩
    refine List.forall_mem_cons.2 ⟨.inr ⟨rfl, rfl, tableWrite_length _ _⟩, ?_⟩
    exact List.forall_mem_singleton.2 (.inl ⟨rfl, pack_length_le_result hlegal hdst le_rfl⟩)

theorem hdecompResult_frame (s : State) : OkSatisfies (Effects.Frame s .hdecomp) (hdecompResult s) := by
  refine okSatisfies_check (okSatisfies_check ?_)
  dsimp only
  split
  · exact okSatisfies_error _ _
  · exact okSatisfies_passed fun hdst => frame_store fun hlegal _ => (result_toNat_of_bytes hlegal hdst).ge

theorem hcodeResult_frame (symbol : Byte) (s : State) :
    OkSatisfies (Effects.Frame s (.hcode symbol)) (hcodeResult symbol s) := by
  refine okSatisfies_check ?_
  split
  · exact frame_quiet
  · exact okSatisfies_passed fun hdst => frame_store fun hlegal _ => pack_length_le_result hlegal hdst le_rfl

theorem packResult_frame (s : State) : OkSatisfies (Effects.Frame s .pack) (packResult s) := by
  refine okSatisfies_check ?_
  split
  · exact okSatisfies_error _ _
  · rename_i b hb
    have hlen : b.length = s.opLen := by simp [bitsOfCells_length hb]
    refine okSatisfies_passed fun hdst => frame_store fun hlegal _ => ?_
    rw [pack_length, hlen]
    exact (result_toNat_of_bytes hlegal hdst).ge

theorem unpackResult_frame (s : State) : OkSatisfies (Effects.Frame s .unpack) (unpackResult s) :=
  okSatisfies_check <| okSatisfies_passed fun hdst => frame_store fun hlegal _ => by
    rw [List.length_map, State.bitsRead_length]
    exact (result_toNat_of_bytes hlegal hdst).ge

theorem padResult_frame (s : State) : OkSatisfies (Effects.Frame s .pad) (padResult s) := by
  refine okSatisfies_check <| okSatisfies_check <| okSatisfies_passed fun hdst => frame_store fun hlegal _ => ?_
  have hbytes (n : Nat) : ceil8 (8 * n) = n := by unfold ceil8; omega
  have hcount := result_toNat_of_inside (s := s) (a := s.opDst) hlegal (by rwa [hbytes])
  exact (hbytes _).ge.trans (congrArg ceil8 hcount).ge

theorem unpadResult_frame (s : State) : OkSatisfies (Effects.Frame s .unpad) (unpadResult s) := by
  refine okSatisfies_check (okSatisfies_check ?_)
  split
  · exact okSatisfies_error _ _
  · rename_i hu
    exact okSatisfies_passed fun hdst => frame_store fun hlegal _ =>
      pack_length_le_result hlegal hdst (unpadBytes_length_le hu)

theorem lcgenResult_frame (s : State) : OkSatisfies (Effects.Frame s .lcgen) (lcgenResult s) := by
  unfold lcgenResult
  split
  · exact okSatisfies_error _ _
  · exact okSatisfies_check frame_quiet

theorem lcloadhResult_frame (s : State) : OkSatisfies (Effects.Frame s .lcloadh) (lcloadhResult s) := by
  unfold lcloadhResult
  split
  · exact okSatisfies_error _ _
  · exact okSatisfies_check frame_quiet

theorem lcstorehResult_frame (s : State) : OkSatisfies (Effects.Frame s .lcstoreh) (lcstorehResult s) :=
  okSatisfies_passed fun hv => okSatisfies_passed fun hdst => frame_store fun hlegal hc =>
    pack_length_le_result hlegal hdst (hc.matrixBits_H_length (eq_true_of_ne_false hv)).le

theorem lcstoregResult_frame (s : State) : OkSatisfies (Effects.Frame s .lcstoreg) (lcstoregResult s) :=
  okSatisfies_passed fun hg => okSatisfies_passed fun hdst => frame_store fun hlegal hc =>
    pack_length_le_result hlegal hdst (hc.matrixBits_G_length (eq_true_of_ne_false hg)).le

theorem lcencResult_frame (s : State) : OkSatisfies (Effects.Frame s .lcenc) (lcencResult s) :=
  okSatisfies_check <| okSatisfies_check <| okSatisfies_check <| okSatisfies_passed fun hdst => frame_store fun hlegal _ =>
    pack_length_le_result hlegal hdst (encodeBlock_length_le _ _ _)

theorem lcdecResult_frame (s : State) : OkSatisfies (Effects.Frame s .lcdec) (lcdecResult s) :=
  okSatisfies_check <| okSatisfies_check <| okSatisfies_check <| okSatisfies_check <| frame_store fun _ _ =>
    pack_length_mono (s.decodeWord_message_length_le _)

theorem lcencsResult_frame (s : State) : OkSatisfies (Effects.Frame s .lcencs) (lcencsResult s) :=
  okSatisfies_check <| okSatisfies_check <| okSatisfies_check <| okSatisfies_passed fun hdst => frame_store fun hlegal _ =>
    pack_length_le_result hlegal hdst (by simpa using s.encodeStream_length_le (s.bitsRead s.opSrc s.opLen))

theorem lcdecsResult_frame (s : State) : OkSatisfies (Effects.Frame s .lcdecs) (lcdecsResult s) :=
  okSatisfies_check <| okSatisfies_check <| okSatisfies_check <| okSatisfies_check <| frame_store fun _ _ =>
    pack_length_mono (by simpa using s.decodeStream_messages_length_le (s.bitsRead s.opSrc s.opLen))

theorem lcsynResult_frame (s : State) : OkSatisfies (Effects.Frame s .lcsyn) (lcsynResult s) :=
  okSatisfies_check <| okSatisfies_check <| okSatisfies_check frame_quiet

/-- Every command's effects stay in its frame. -/
theorem resultOf_frame (i : Instr) (s : State) : OkSatisfies (Effects.Frame s i) (resultOf i s) := by
  cases i with
  | nop => exact frame_quiet
  | hfreq => exact hfreqResult_frame s
  | hbuild => exact okSatisfies_check frame_quiet
  | henc => exact hencResult_frame s
  | hdec => exact hdecResult_frame s
  | hcomp => exact hcompResult_frame s
  | hdecomp => exact hdecompResult_frame s
  | hcode symbol => exact hcodeResult_frame symbol s
  | pack => exact packResult_frame s
  | unpack => exact unpackResult_frame s
  | pad => exact padResult_frame s
  | unpad => exact unpadResult_frame s
  | lcgen => exact lcgenResult_frame s
  | lcloadh => exact lcloadhResult_frame s
  | lcstoreh => exact lcstorehResult_frame s
  | lcstoreg => exact lcstoregResult_frame s
  | lcenc => exact lcencResult_frame s
  | lcdec => exact lcdecResult_frame s
  | lcencs => exact lcencsResult_frame s
  | lcdecs => exact lcdecsResult_frame s
  | lcsyn => exact lcsynResult_frame s

/-- Settles O24: a success commits effects that stay in the command's frame, and an error changes no table and no byte. -/
theorem commandsChangeOnlyTheirOwnState : Obligations.CommandsChangeOnlyTheirOwnState := by
  intro i s t h
  rcases exec_cases h with ⟨e, he, rfl⟩ | ⟨c, -, rfl⟩
  · obtain ⟨htree, hcode⟩ := resultOf_builds i s e he
    obtain ⟨hsynd, hquiet, hwithin⟩ := resultOf_frame i s e he
    refine ⟨rfl, fun hi => ?_, fun hi => ?_, fun hi => ?_, fun hi => ?_, fun hlegal hc herr x hx => ?_⟩
    · have hnone : e.tree = none := by simpa [buildsTree, hi] using htree
      simp [hnone]
    · have hnone : e.code = none := by
        obtain ⟨hgen, hload⟩ : i ≠ .lcgen ∧ i ≠ .lcloadh := by simpa using hi
        simpa [buildsCode, hgen, hload] using hcode
      simp [hnone]
    · simp [hsynd hi]
    · simp [hquiet hi]
    · obtain ⟨hdst, haux⟩ := hx.resolve_left (by simp [herr])
      refine State.readByte_commit_outside fun w hw => ?_
      rcases hwithin hlegal hc w hw with ⟨ha, hlen⟩ | ⟨rfl, ha, hlen⟩
      · have hregion : w.2.length ≤ s.outputBytes i (s.commit e).finish := hlen.trans_eq (s.outputBytes_congr i rfl)
        omega
      · have := haux rfl
        omega
  · exact ⟨rfl, by simp, by simp, by simp, by simp, fun _ _ _ x _ => State.readByte_congr rfl rfl x⟩

end Sys2Proof.Machine
end

section
/-! SUPPORT. Huffman codes of built trees (41_huffman.md R402 to R406): the code map of a built tree, and the decode walk against
the encoder. -/

namespace Sys2Proof.Machine

/-! ### Paths and leaves -/

/-- No path leads on from a leaf. -/
theorem Node.eq_nil_of_follow_leaf {symbol x : Byte} {path : Bits} (h : (Node.leaf symbol).follow path = .leaf x) : path = [] := by
  by_contra hne
  rw [Node.follow_leaf hne] at h
  cases h

/-- A path that passes a leaf ends at no internal node. -/
theorem Node.follow_leaf_ne_internal (symbol : Byte) (path : Bits) (left right : Node) :
    (Node.leaf symbol).follow path ≠ .internal left right := by
  cases path with
  | nil => exact Node.noConfusion
  | cons bit path => rw [Node.follow_leaf (List.cons_ne_nil _ _)]; exact Node.noConfusion

/-- Where the symbols are distinct, the codeword of a symbol is the path to its leaf (R403). -/
theorem Node.codeword_eq_some_iff {node : Node} (hn : node.symbols.Nodup) {x : Byte} {c : Bits} :
    node.codeword x = some c ↔ node.follow c = .leaf x :=
  ⟨Node.follow_codeword, Node.codeword_of_follow hn⟩

/-- Both children of a full internal node are full. -/
theorem Node.full_child {left right : Node} (h : (Node.internal left right).full = true) (bit : Bool) :
    ((Node.internal left right).child bit).full = true := by
  obtain ⟨hl, hr⟩ : left.full = true ∧ right.full = true := by simpa [Node.full] using h
  cases bit
  · exact hl
  · exact hr

/-! ### The code map of a built tree (R403, R406 (a)) -/

/-- A built tree is empty, or its root is an internal node whose leaves are the alphabet (R402). -/
theorem buildTree_empty_or_internal (f : FreqTable) :
    (alphabet f = [] ∧ buildTree f = .empty) ∨
      ∃ left right, buildTree f = .root (.internal left right) ∧ (Node.internal left right).symbols.Perm (alphabetBytes f) := by
  rcases buildTree_cases f with h | ⟨symbol, ha, ht⟩ | ⟨left, right, ht, -, -, hp⟩
  · exact .inl h
  · exact .inr ⟨_, _, ht, by simp [Node.symbols, alphabetBytes, ha]⟩
  · exact .inr ⟨left, right, ht, hp⟩

theorem symbols_nodup_of_perm {node : Node} {f : FreqTable} (h : node.symbols.Perm (alphabetBytes f)) : node.symbols.Nodup :=
  h.nodup_iff.2 (alphabetBytes_nodup f)

/-- The codewords of a built tree are the paths from its root, an internal node, to the leaves. -/
theorem buildTree_codeword_eq_some_iff {f : FreqTable} {x : Byte} {c : Bits} :
    (buildTree f).codeword x = some c ↔
      ∃ left right, buildTree f = .root (.internal left right) ∧ (Node.internal left right).follow c = .leaf x := by
  rcases buildTree_empty_or_internal f with ⟨-, ht⟩ | ⟨left, right, ht, hp⟩
  · simp [ht, CodeTree.codeword]
  · rw [ht, CodeTree.codeword, Node.codeword_eq_some_iff (symbols_nodup_of_perm hp)]
    constructor
    · exact fun h => ⟨left, right, rfl, h⟩
    · rintro ⟨l, r, ⟨⟩, h⟩
      exact h

/-- The symbols with a codeword are those with a nonzero count. -/
theorem buildTree_codeword_isSome_iff (f : FreqTable) (x : Byte) : ((buildTree f).codeword x).isSome ↔ 0 < f.count x.toNat := by
  rw [← mem_alphabetBytes]
  rcases buildTree_empty_or_internal f with ⟨ha, ht⟩ | ⟨left, right, ht, hp⟩
  · simp [ht, CodeTree.codeword, alphabetBytes, ha]
  · rw [ht, CodeTree.codeword, Node.codeword_isSome_iff, hp.mem_iff]

theorem buildTree_codeword_ne_nil {f : FreqTable} {x : Byte} {c : Bits} (h : (buildTree f).codeword x = some c) : c ≠ [] := by
  obtain ⟨left, right, -, hc⟩ := buildTree_codeword_eq_some_iff.1 h
  rintro rfl
  cases hc

/-- A full tree of at most 256 leaves, or the one bit of the single-symbol wrapper. -/
theorem buildTree_codeword_length_le {f : FreqTable} {x : Byte} {c : Bits} (h : (buildTree f).codeword x = some c) :
    c.length ≤ 255 := by
  rcases buildTree_cases f with ⟨-, ht⟩ | ⟨symbol, -, ht⟩ | ⟨left, right, ht, hl, hr, hp⟩
  · simp [ht, CodeTree.codeword] at h
  · have hc : x = BitVec.ofNat 8 symbol ∧ [false] = c := by simpa [ht, CodeTree.codeword, Node.codeword] using h
    simp [← hc.2]
  · rw [ht, CodeTree.codeword] at h
    have hshort := Node.codeword_length_lt (by simp [Node.full, hl, hr]) h
    have hsymbols := symbols_length_le (symbols_nodup_of_perm (node := .internal left right) hp)
    omega

theorem buildTree_codeword_prefixFree {f : FreqTable} {x y : Byte} {c d : Bits} (hx : (buildTree f).codeword x = some c)
    (hy : (buildTree f).codeword y = some d) (h : c <+: d) : x = y := by
  obtain ⟨left, right, ht, hc⟩ := buildTree_codeword_eq_some_iff.1 hx
  obtain ⟨l, r, ht', hd⟩ := buildTree_codeword_eq_some_iff.1 hy
  obtain ⟨⟨⟩⟩ := ht.symm.trans ht'
  obtain ⟨rest, rfl⟩ := h
  rw [Node.follow_append, hc] at hd
  obtain rfl := Node.eq_nil_of_follow_leaf hd
  injection hd

/-- Settles O33: a codeword is a path from the internal root to a leaf, and no path goes on from a leaf. -/
theorem codeMapCoversTheAlphabetPrefixFree : Obligations.CodeMapCoversTheAlphabetPrefixFree := by
  intro f
  refine ⟨fun x => ?_, fun x c h => ⟨List.length_pos_iff.2 (buildTree_codeword_ne_nil h), buildTree_codeword_length_le h⟩,
    fun x y c d => buildTree_codeword_prefixFree, fun x c => ?_⟩
  · rw [← buildTree_codeword_isSome_iff, Option.isSome_iff_ne_none]
  · rw [buildTree_codeword_eq_some_iff]
    simp only [Node.leafAt_iff_follow]
    constructor
    · rintro ⟨left, right, ht, hc⟩
      exact ⟨_, ht, hc⟩
    · rintro ⟨root, ht, hc⟩
      obtain ⟨-, ht'⟩ | ⟨left, right, ht', -⟩ := buildTree_empty_or_internal f
      · rw [ht'] at ht; cases ht
      · obtain ⟨⟨⟩⟩ := ht.symm.trans ht'
        exact ⟨left, right, ht', hc⟩

/-! ### The encoder (R404) -/

theorem huffEncode_cons_eq_some_iff {t : CodeTree} {x : Byte} {rest : List Byte} {out : Bits} :
    huffEncode t (x :: rest) = some out ↔
      ∃ path tail, t.codeword x = some path ∧ huffEncode t rest = some tail ∧ path ++ tail = out := by
  cases hx : t.codeword x <;> simp [huffEncode, hx]

/-- An encoding is the concatenation of the codewords. -/
theorem exists_codewords_of_huffEncode {t : CodeTree} {bs : List Byte} {out : Bits} (h : huffEncode t bs = some out) :
    ∃ codewords : List Bits, bs.map t.codeword = codewords.map some ∧ codewords.flatten = out := by
  induction bs generalizing out with
  | nil => exact ⟨[], rfl, Option.some.inj h⟩
  | cons x rest ih =>
    obtain ⟨path, tail, hx, htail, rfl⟩ := huffEncode_cons_eq_some_iff.1 h
    obtain ⟨codewords, hmap, rfl⟩ := ih htail
    exact ⟨path :: codewords, by simp [hx, hmap], rfl⟩

/-- The encoder fails exactly at an absent symbol. -/
theorem huffEncode_eq_none_iff {t : CodeTree} {bs : List Byte} : huffEncode t bs = none ↔ ∃ x ∈ bs, t.codeword x = none := by
  induction bs with
  | nil => simp [huffEncode]
  | cons x rest ih => cases hx : t.codeword x <;> simp [huffEncode, hx, ih]

/-- The count of a symbol (R400). -/
theorem freqOf_count (bs : List Byte) {x : Nat} (hx : x < 256) : (freqOf bs).count x = bs.count (BitVec.ofNat 8 x) := by
  simp [freqOf, FreqTable.count, List.getD_eq_getElem?_getD, hx]

/-- Bytes encode with the tree of their own counts (R406 (c)). -/
theorem huffEncode_freqOf_ne_none (bs : List Byte) : huffEncode (buildTree (freqOf bs)) bs ≠ none := by
  rw [Ne, huffEncode_eq_none_iff]
  rintro ⟨x, hx, hnone⟩
  have hcount : (freqOf bs).count x.toNat = bs.count x := by rw [freqOf_count bs x.isLt, BitVec.ofNat_toNat, BitVec.setWidth_eq]
  have hsome := (buildTree_codeword_isSome_iff (freqOf bs) x).2 (by rw [hcount]; exact List.count_pos_iff.2 hx)
  rw [hnone] at hsome
  cases hsome

theorem huffEncode_buildTree_eq_nil_iff {f : FreqTable} {bs : List Byte} {out : Bits} (h : huffEncode (buildTree f) bs = some out) :
    out = [] ↔ bs = [] := by
  cases bs with
  | nil => simpa [huffEncode, eq_comm] using h
  | cons x rest =>
    obtain ⟨path, tail, hx, -, rfl⟩ := huffEncode_cons_eq_some_iff.1 h
    simp [buildTree_codeword_ne_nil hx]

/-! ### The decode walk (R405) -/

/-- Along the path to a leaf the walk emits the leaf's symbol and goes on from the root. -/
theorem decodeWalk_path {root : Node} {x : Byte} (path : Bits) (hne : path ≠ []) {node : Node}
    (h : node.follow path = .leaf x) (d : Nat) (rest : Bits) :
    decodeWalk root node d (path ++ rest) = (decodeWalk root root 0 rest).map (fun r => (x :: r.1, r.2)) := by
  induction path generalizing node d with
  | nil => exact absurd rfl hne
  | cons bit path ih =>
    rw [Node.follow_cons] at h
    rw [List.cons_append, decodeWalk]
    cases hchild : node.child bit with
    | absent => rw [hchild, Node.follow_absent] at h; cases h
    | leaf symbol =>
      rw [hchild] at h
      obtain rfl := Node.eq_nil_of_follow_leaf h
      injection h with h
      rw [h]
      rfl
    | internal left right =>
      rw [hchild] at h
      have hpath : path ≠ [] := by rintro rfl; cases h
      exact ih hpath h (d + 1)

/-- Decoding an encoding gives back the bytes (R406 (b)). -/
theorem huffDecode_of_huffEncode {f : FreqTable} {bs : List Byte} {out : Bits} (h : huffEncode (buildTree f) bs = some out) :
    huffDecode (buildTree f) out = some (bs, 0) := by
  induction bs generalizing out with
  | nil =>
    obtain rfl : [] = out := by simpa [huffEncode] using h
    cases buildTree f <;> rfl
  | cons x rest ih =>
    obtain ⟨path, tail, hx, htail, rfl⟩ := huffEncode_cons_eq_some_iff.1 h
    obtain ⟨left, right, ht, hpath⟩ := buildTree_codeword_eq_some_iff.1 hx
    have hrest := ih htail
    rw [ht, huffDecode] at hrest ⊢
    rw [decodeWalk_path path (buildTree_codeword_ne_nil hx) hpath, hrest]
    rfl

/-- What the walk decodes, from the node where the path `p` leads: `p` and the bits are the encoding of the emitted bytes and a
path to an internal node, which counts the dangling bits. -/
theorem decodeWalk_sound {left right l r : Node} (hn : (Node.internal left right).symbols.Nodup) (p b : Bits)
    (hp : (Node.internal left right).follow p = .internal l r) {bs : List Byte} {d : Nat}
    (h : decodeWalk (.internal left right) (.internal l r) p.length b = some (bs, d)) :
    ∃ out dangling, huffEncode (.root (.internal left right)) bs = some out ∧ p ++ b = out ++ dangling ∧ dangling.length = d
      ∧ ∃ l r, (Node.internal left right).follow dangling = .internal l r := by
  induction b generalizing p l r bs with
  | nil =>
    obtain ⟨rfl, rfl⟩ : [] = bs ∧ p.length = d := by simpa [decodeWalk] using h
    exact ⟨[], p, rfl, by simp, rfl, l, r, hp⟩
  | cons bit rest ih =>
    have hstep : (Node.internal left right).follow (p ++ [bit]) = (Node.internal l r).child bit := by
      rw [Node.follow_append, hp, Node.follow_cons, Node.follow_nil]
    rw [decodeWalk] at h
    cases hchild : (Node.internal l r).child bit with
    | absent => simp [hchild] at h
    | leaf symbol =>
      rw [hchild] at h hstep
      obtain ⟨bs', htail, rfl⟩ : ∃ bs', decodeWalk (.internal left right) (.internal left right) 0 rest = some (bs', d) ∧
          symbol :: bs' = bs := by simpa using h
      obtain ⟨out, dangling, henc, hbits, hlen, hinternal⟩ := ih [] rfl htail
      have hcode : (Node.internal left right).codeword symbol = some (p ++ [bit]) := Node.codeword_of_follow hn hstep
      refine ⟨p ++ [bit] ++ out, dangling, by simp [huffEncode, CodeTree.codeword, hcode, henc], ?_, hlen, hinternal⟩
      rw [List.append_assoc _ out, ← hbits]
      simp
    | internal l' r' =>
      rw [hchild] at h
      obtain ⟨out, dangling, henc, hbits, hrest⟩ := ih (p ++ [bit]) (hstep.trans hchild) (by simpa using h)
      exact ⟨out, dangling, henc, by simpa using hbits, hrest⟩

/-- Whatever decodes is an encoding with dangling bits, in which no codeword begins (R406 (d)). -/
theorem exists_huffEncode_of_huffDecode {f : FreqTable} {bs : List Byte} {b : Bits} {d : Nat}
    (h : huffDecode (buildTree f) b = some (bs, d)) :
    ∃ out dangling, huffEncode (buildTree f) bs = some out ∧ b = out ++ dangling ∧ dangling.length = d
      ∧ ∀ (x : Byte) (c : Bits), (buildTree f).codeword x = some c → ¬ c <+: dangling := by
  rcases buildTree_empty_or_internal f with ⟨-, ht⟩ | ⟨left, right, ht, hp⟩
  · obtain ⟨rfl, rfl, rfl⟩ : b = [] ∧ [] = bs ∧ 0 = d := by simpa [ht, huffDecode] using h
    exact ⟨[], [], rfl, rfl, rfl, by simp [ht, CodeTree.codeword]⟩
  · rw [ht, huffDecode] at h
    obtain ⟨out, dangling, henc, hbits, hlen, l, r, hinternal⟩ := decodeWalk_sound (symbols_nodup_of_perm hp) [] b rfl h
    refine ⟨out, dangling, ht ▸ henc, hbits, hlen, fun x c hc => ?_⟩
    rintro ⟨rest, rfl⟩
    rw [ht, CodeTree.codeword] at hc
    rw [Node.follow_append, Node.follow_codeword hc] at hinternal
    exact Node.follow_leaf_ne_internal _ _ _ _ hinternal

/-- In a full tree the walk never fails (R405). -/
theorem decodeWalk_ne_none_of_full {left right l r : Node} (hroot : (Node.internal left right).full = true)
    (hnode : (Node.internal l r).full = true) (d : Nat) (b : Bits) :
    decodeWalk (.internal left right) (.internal l r) d b ≠ none := by
  induction b generalizing l r d with
  | nil => simp [decodeWalk]
  | cons bit rest ih =>
    have hchildFull := Node.full_child hnode bit
    rw [decodeWalk]
    cases hchild : (Node.internal l r).child bit with
    | absent => rw [hchild] at hchildFull; cases hchildFull
    | leaf symbol => simpa using ih hroot 0
    | internal l' r' => exact ih (hchild ▸ hchildFull) (d + 1)

/-- The walk in the single-symbol wrapper fails exactly at a bit 1 (R405). -/
theorem decodeWalk_wrapper_eq_none_iff (symbol : Byte) (b : Bits) (d : Nat) :
    decodeWalk (.internal (.leaf symbol) .absent) (.internal (.leaf symbol) .absent) d b = none ↔ true ∈ b := by
  induction b generalizing d with
  | nil => simp [decodeWalk]
  | cons bit rest ih => cases bit <;> simp [decodeWalk, Node.child, ih]

theorem distinct_eq_length_alphabet (f : FreqTable) : f.distinct = (alphabet f).length := List.countP_eq_length_filter

/-- When decoding fails, by the number of symbols (R405). -/
theorem huffDecode_buildTree_eq_none (f : FreqTable) (b : Bits) :
    (2 ≤ f.distinct → huffDecode (buildTree f) b ≠ none) ∧
    (f.distinct = 1 → (huffDecode (buildTree f) b = none ↔ true ∈ b)) ∧
    (f.distinct = 0 → (huffDecode (buildTree f) b = none ↔ b ≠ [])) := by
  rw [distinct_eq_length_alphabet]
  rcases buildTree_cases f with ⟨ha, ht⟩ | ⟨symbol, ha, ht⟩ | ⟨left, right, ht, hl, hr, hp⟩
  · simp [ha, ht, huffDecode]
  · simp [ha, ht, huffDecode, decodeWalk_wrapper_eq_none_iff]
  · have hfull : (Node.internal left right).full = true := by simp [Node.full, hl, hr]
    have hsize : 2 ≤ (alphabet f).length := by
      have hlen : left.symbols.length + right.symbols.length = (alphabet f).length := by
        simpa [alphabetBytes] using hp.length_eq
      have := List.length_pos_iff.2 (Node.symbols_ne_nil hl)
      have := List.length_pos_iff.2 (Node.symbols_ne_nil hr)
      omega
    refine ⟨fun _ => ?_, by omega, by omega⟩
    rw [ht, huffDecode]
    exact decodeWalk_ne_none_of_full hfull hfull 0 b

/-- Settles O34: the walk along the codewords gives back the bytes, and a walk's bits are codewords and a path to an internal
node. -/
theorem huffmanDecodeInvertsEncode : Obligations.HuffmanDecodeInvertsEncode := by
  refine ⟨fun _ _ _ => huffDecode_of_huffEncode, fun _ _ _ _ => exists_huffEncode_of_huffDecode, fun bs => ?_,
    huffDecode_buildTree_eq_none⟩
  obtain ⟨out, hout⟩ := Option.ne_none_iff_exists'.1 (huffEncode_freqOf_ne_none bs)
  exact ⟨out, hout, huffEncode_buildTree_eq_nil_iff hout⟩

end Sys2Proof.Machine
end

section
/-! SUPPORT. The Huffman commands (41_huffman.md R410 to R416): the states their results complete in, the tables they store, and the
round trip of HCOMP and HDECOMP. -/

namespace Sys2Proof.Machine

/-! ### Results and completions -/

/-- A command that stores one region and sets its results only. -/
theorem exec_ok_store {i : Instr} {s : State} {a : Nat} {bs : List Byte} {r0 r1 : Word}
    (h : resultOf i s = .ok { writes := [(a, bs)], res0 := r0, res1 := r1 }) :
    ∃ t, exec i s = .next t ∧ t = s.succeededWith t.mem r0 r1 ∧ s.storedFrom t a bs :=
  ⟨_, exec_ok_plain h, rfl, storedFrom_write rfl rfl⟩

/-- A command whose last step checks the range at dst and stores there. -/
theorem exec_checked_store {i : Instr} {s : State} {len : Nat} {bs : List Byte} {r0 r1 : Word}
    (h : resultOf i s
      = if s.outOfRange s.opDst len then .error .range else .ok { writes := [(s.opDst, bs)], res0 := r0, res1 := r1 }) :
    (s.params.dmemSize < s.opDst + len → exec i s = .next (s.failedWith 6#4)) ∧
    (s.opDst + len ≤ s.params.dmemSize →
      ∃ t, exec i s = .next t ∧ t = s.succeededWith t.mem r0 r1 ∧ s.storedFrom t s.opDst bs) :=
  ⟨fun hdst => exec_error (c := .range) (h.trans (if_pos hdst)), fun hdst => exec_ok_store (h.trans (if_neg hdst.not_gt))⟩

/-- A command that also builds a tree. -/
theorem exec_ok_tree {i : Instr} {s : State} {ws : List (Nat × List Byte)} {r0 r1 : Word} {tree : CodeTree}
    (h : resultOf i s = .ok { writes := ws, res0 := r0, res1 := r1, tree := some tree }) :
    ∃ t, exec i s = .next t ∧ t = { s.succeededWith t.mem r0 r1 with tree := tree, treeValid := true } ∧
      t.mem = Memory.writeAll s.mem ws ∧ t.memEpoch = s.memEpoch :=
  ⟨_, exec_ok h, by simp [State.commit, State.finish, State.succeededWith], rfl, rfl⟩

/-- Two checks that raise the same error: either one is enough. -/
theorem checks_eq_error {p q : Prop} [Decidable p] [Decidable q] {c : ErrorCode} {r : CommandResult} (h : p ∨ q) :
    (if p then .error c else if q then .error c else r) = .error c := by
  rcases h with h | h <;> simp [h]

/-! ### Stored tables (20_memory.md R209; R400, R401) -/

/-- Byte `j` of a count's four bytes (R209). -/
theorem tableWrite_getD_eq_extractLsb' (a : Nat) (f : FreqTable) {x j : Nat} (hx : x < 256) (hj : j < 4)
    (hfits : f.count x < 2 ^ 32) :
    (tableWrite a f).2.getD (4 * x + j) 0#8 = (BitVec.ofNat 32 (f.count x)).extractLsb' (8 * (3 - j)) 8 := by
  rw [tableWrite_getD a f hx hj, beBytes_getD _ hj, ← ofNat_div_eq_extractLsb', BitVec.toNat_ofNat, Nat.mod_eq_of_lt hfits]

/-- Where the bytes of a stored table stand, its counts read back. -/
theorem State.word32_of_tableWrite {t : State} {a x : Nat} {f : FreqTable} (hx : x < 256) (hfits : f.count x < 2 ^ 32)
    (h : ∀ y, a ≤ y → y < a + 1024 → t.readByte y = (tableWrite a f).2.getD (y - a) 0#8) :
    t.word32 (a + 4 * x) = f.count x := by
  have hbyte : ∀ j < 4, t.readByte (a + 4 * x + j) = (beBytes 4 (f.count x)).getD j 0#8 := fun j hj => by
    rw [h _ (by omega) (by omega), Nat.add_assoc, Nat.add_sub_cancel_left, tableWrite_getD a f hx hj]
  have hbytes : [t.readByte (a + 4 * x), t.readByte (a + 4 * x + 1), t.readByte (a + 4 * x + 2), t.readByte (a + 4 * x + 3)]
      = beBytes 4 (f.count x) := by
    refine List.ext_getElem (by simp) fun j hj hj' => ?_
    rw [beBytes_length] at hj'
    rw [← List.getD_eq_getElem _ 0#8, ← List.getD_eq_getElem _ 0#8, ← hbyte j hj']
    interval_cases j <;> rfl
  rw [State.word32, hbytes, beNumber_beBytes]
  exact Nat.mod_eq_of_lt hfits

/-- The counts of the bytes a command reads fit in 32 bits. -/
theorem State.freqOf_count_lt (s : State) {x : Nat} (hx : x < 256) (a : Nat) :
    (freqOf (s.bytesRead a s.opLen)).count x < 2 ^ 32 := by
  calc (freqOf (s.bytesRead a s.opLen)).count x
      = (s.bytesRead a s.opLen).count (BitVec.ofNat 8 x) := freqOf_count _ hx
    _ ≤ (s.bytesRead a s.opLen).length := List.count_le_length
    _ = s.opLen := s.bytesRead_length a s.opLen
    _ < 2 ^ 32 := s.latch.len.isLt

/-- The bytes after a table and then a bit sequence are stored: the bits win where the two overlap (R214). -/
theorem readByte_table_bits {s t : State} {a b : Nat} {f : FreqTable} {out : Bits}
    (h : t.mem = Memory.writeAll s.mem [tableWrite a f, bitsWrite b out]) (he : t.memEpoch = s.memEpoch) (x : Nat) :
    t.readByte x = if b ≤ x ∧ x < b + ceil8 out.length then (pack out).getD (x - b) 0#8
      else if a ≤ x ∧ x < a + 1024 then (tableWrite a f).2.getD (x - a) 0#8 else s.readByte x := by
  have hread := readByte_two_writes (a := a) (cs := (tableWrite a f).2) (b := b) (bs := pack out) h he x
  rwa [pack_length, tableWrite_length] at hread

/-- Settles O26: the table's bytes are the big-endian counts, of 32 bits each. -/
theorem hfreqStoresTheCounts : Obligations.HfreqStoresTheCounts := by
  intro s _
  refine ⟨fun h => exec_error (c := .range) (checks_eq_error h), fun hsrc hdst => ?_⟩
  obtain ⟨t, hexec, ht, hstored⟩ := exec_ok_store (i := .hfreq)
    (bs := (tableWrite s.opDst (freqOf (s.bytesRead s.opSrc s.opLen))).2) ((if_neg hsrc.not_gt).trans (if_neg hdst.not_gt))
  rw [← distinct_eq_length_alphabet] at ht
  refine ⟨t, hexec, ht, fun x hx => ?_, fun a ha => (hstored a).trans (if_neg ?_)⟩
  · rw [← freqOf_count _ hx]
    refine State.word32_of_tableWrite hx (s.freqOf_count_lt hx _) fun y hy hy' => (hstored y).trans (if_pos ⟨hy, ?_⟩)
    rwa [tableWrite_length]
  · rw [tableWrite_length]
    omega

/-! ### The number of codewords and the longest one (R411) -/

/-- Each symbol with a nonzero count has one codeword. -/
theorem buildTree_codewords_length (f : FreqTable) : (buildTree f).codewords.length = f.distinct := by
  rw [CodeTree.codewords, List.length_filterMap_eq_countP, FreqTable.distinct]
  refine List.countP_congr fun x hx => ?_
  rw [buildTree_codeword_isSome_iff, BitVec.toNat_ofNat, Nat.mod_eq_of_lt (List.mem_range.1 hx), decide_eq_true_iff]

theorem CodeTree.mem_codewords {t : CodeTree} {c : Bits} : c ∈ t.codewords ↔ ∃ x, t.codeword x = some c := by
  rw [CodeTree.codewords, List.mem_filterMap]
  constructor
  · rintro ⟨symbol, -, h⟩
    exact ⟨_, h⟩
  · rintro ⟨x, h⟩
    exact ⟨x.toNat, List.mem_range.2 x.isLt, by simpa using h⟩

/-- A running maximum of lengths bounds its start and every length, and is one of them. -/
theorem foldl_max_length (l : List Bits) (start : Nat) :
    let m := l.foldl (fun acc path => max acc path.length) start
    start ≤ m ∧ (∀ c ∈ l, c.length ≤ m) ∧ (m = start ∨ ∃ c ∈ l, c.length = m) := by
  induction l generalizing start with
  | nil => simp
  | cons c l ih =>
    obtain ⟨hstart, hall, hattained⟩ := ih (max start c.length)
    refine ⟨(le_max_left _ _).trans hstart, List.forall_mem_cons.2 ⟨(le_max_right _ _).trans hstart, hall⟩, ?_⟩
    simp only [List.foldl_cons, List.exists_mem_cons_iff]
    rcases hattained with h | h
    · rcases max_choice start c.length with hmax | hmax
      · exact .inl (h.trans hmax)
      · exact .inr (.inl (h.trans hmax).symm)
    · exact .inr (.inr h)

theorem CodeTree.longestIs_longest (t : CodeTree) : t.longestIs t.longest := by
  obtain ⟨-, hall, hattained⟩ := foldl_max_length t.codewords 0
  refine ⟨fun x c h => hall c (CodeTree.mem_codewords.2 ⟨x, h⟩), hattained.imp_right ?_⟩
  rintro ⟨c, hc, hlen⟩
  obtain ⟨x, hx⟩ := CodeTree.mem_codewords.1 hc
  exact ⟨x, c, hx, hlen⟩

/-- Settles O27: the table at aux is the table read, and the builder makes its tree by the merges of R402. -/
theorem hbuildBuildsTheTree : Obligations.HbuildBuildsTheTree := by
  refine ⟨fun s hwf => ⟨fun h => exec_error (c := .range) (if_pos h), fun haux f hf => ?_⟩,
    fun f => ⟨fun hA => ?_, fun symbol hA => ?_, buildTree_mergesTo f⟩⟩
  · refine ⟨_, (buildTree f).longestIs_longest, ?_⟩
    have hresult : resultOf .hbuild s = _ := if_neg haux.not_gt
    simp only [readTable_of_tableAt hwf hf, buildTree_codewords_length] at hresult
    obtain ⟨t, hexec, ht, hmem, -⟩ := exec_ok_tree hresult
    rw [hexec, ht, hmem]
    rfl
  · simp [buildTree, alphabet, hA]
  · simp [buildTree, alphabet, hA]

/-! ### Encoding and decoding commands (R412, R413, R415, R416) -/

/-- Settles O28: the encoder gives the codewords of the bytes, or fails at an absent symbol. -/
theorem hencStoresTheCodewords : Obligations.HencStoresTheCodewords := by
  intro s
  refine ⟨fun hv => exec_error (c := .notConfigured) (by simp [resultOf, hencResult, hv]),
    fun hv hsrc => exec_error (c := .range) (by simp [resultOf, hencResult, hv, hsrc]),
    fun hv hsrc habsent => exec_error (c := .invalidCode) ?_, fun hv hsrc hpresent => ?_⟩
  · simp [resultOf, hencResult, hv, hsrc.not_gt, huffEncode_eq_none_iff.2 habsent]
  · obtain ⟨out, hout⟩ : ∃ out, huffEncode s.tree (s.bytesRead s.opSrc s.opLen) = some out :=
      Option.ne_none_iff_exists'.1 (by simpa [huffEncode_eq_none_iff] using hpresent)
    obtain ⟨codewords, hmap, hflat⟩ := exists_codewords_of_huffEncode hout
    refine ⟨codewords, hmap, ?_⟩
    rw [hflat]
    exact exec_checked_store (len := ceil8 out.length) (by simp [resultOf, hencResult, hv, hsrc.not_gt, hout, bitsWrite])

/-- Settles O29: each check in its order, then the bytes of the walk. -/
theorem hdecStoresTheDecodedBytes : Obligations.HdecStoresTheDecodedBytes := by
  intro s
  refine ⟨fun hv => exec_error (c := .notConfigured) (by simp [resultOf, hdecResult, hv]),
    fun hv hsrc => exec_error (c := .range) (by simp [resultOf, hdecResult, hv, hsrc]),
    fun hv hsrc hnone => exec_error (c := .invalidCode) (by simp [resultOf, hdecResult, hv, hsrc.not_gt, hnone]),
    fun out d hv hsrc hsome => exec_checked_store (by simp [resultOf, hdecResult, hv, hsrc.not_gt, hsome])⟩

/-- Settles O32: an absent symbol succeeds before the range check. -/
theorem hcodeReadsOneCodeword : Obligations.HcodeReadsOneCodeword := by
  intro s symbol
  refine ⟨fun hv => exec_error (c := .notConfigured) (by simp [resultOf, hcodeResult, hv]),
    fun hv habsent => exec_ok_plain (ws := []) (by simp [resultOf, hcodeResult, hv, habsent]),
    fun c hv hc => exec_checked_store (len := ceil8 c.length) (by simp [resultOf, hcodeResult, hv, hc, bitsWrite])⟩

/-- The result of HDECOMP where its source decodes with the tree of the table `f` (R415). -/
theorem hdecompResult_of_decode {s : State} {f : FreqTable} {out : List Byte} {d : Nat}
    (hsrc : s.opSrc + ceil8 s.opLen ≤ s.params.dmemSize) (haux : s.opAux + tableBytes ≤ s.params.dmemSize)
    (hf : s.readTable s.opAux = f) (hout : huffDecode (buildTree f) (s.bitsRead s.opSrc s.opLen) = some (out, d)) :
    hdecompResult s
      = if s.outOfRange s.opDst out.length then .error .range
        else .ok { writes := [(s.opDst, out)], res0 := result out.length, res1 := result d, tree := some (buildTree f) } := by
  simp [hdecompResult, hsrc.not_gt, haux.not_gt, hf, hout]

/-- Settles O31: the table at aux is the table read, and an error keeps the state's tree. -/
theorem hdecompDecompresses : Obligations.HdecompDecompresses := by
  intro s hwf
  refine ⟨fun h => exec_error (c := .range) (checks_eq_error h), fun f hsrc haux hf => ?_⟩
  have htable := readTable_of_tableAt hwf hf
  refine ⟨fun hnone => exec_error (c := .invalidCode) ?_, fun out d hout => ?_⟩
  · simp [resultOf, hdecompResult, hsrc.not_gt, haux.not_gt, htable, hnone]
  · have hresult := hdecompResult_of_decode hsrc haux htable hout
    refine ⟨fun hdst => exec_error (c := .range) (hresult.trans (if_pos hdst)), fun hdst => ?_⟩
    obtain ⟨t, hexec, ht, hmem, hepoch⟩ := exec_ok_tree (i := .hdecomp) (hresult.trans (if_neg hdst.not_gt))
    exact ⟨t, hexec, ht, storedFrom_write hmem hepoch⟩

/-! ### Compression (R414) -/

/-- The result of HCOMP where the encoding of its source is `out` (R414). -/
theorem hcompResult_of_encode {s : State} {bs : List Byte} {out : Bits} (hbs : s.bytesRead s.opSrc s.opLen = bs)
    (hsrc : s.opSrc + s.opLen ≤ s.params.dmemSize) (haux : s.opAux + tableBytes ≤ s.params.dmemSize)
    (hout : huffEncode (buildTree (freqOf bs)) bs = some out) :
    hcompResult s
      = if s.outOfRange s.opDst (ceil8 out.length) then .error .range
        else .ok { writes := [tableWrite s.opAux (freqOf bs), bitsWrite s.opDst out], res0 := result out.length
                   res1 := result (freqOf bs).distinct, tree := some (buildTree (freqOf bs)) } := by
  simp [hcompResult, hbs, hsrc.not_gt, haux.not_gt, hout, distinct_eq_length_alphabet]

/-- Settles O30: the table is stored before the bits, and the encoder never fails on the bytes it counted. -/
theorem hcompCompresses : Obligations.HcompCompresses := by
  intro s _ bs freq
  refine ⟨fun h => exec_error (c := .range) (checks_eq_error h), fun hsrc haux => ?_⟩
  obtain ⟨out, hout⟩ := Option.ne_none_iff_exists'.1 (huffEncode_freqOf_ne_none bs)
  obtain ⟨codewords, hmap, hflat⟩ := exists_codewords_of_huffEncode hout
  have hresult := hcompResult_of_encode rfl hsrc haux hout
  refine ⟨codewords, hmap, ?_⟩
  rw [hflat]
  refine ⟨fun hdst => exec_error (c := .range) (hresult.trans (if_pos hdst)), fun hdst => ?_⟩
  obtain ⟨t, hexec, ht, hmem, hepoch⟩ := exec_ok_tree (i := .hcomp) (hresult.trans (if_neg hdst.not_gt))
  have hread := readByte_table_bits hmem hepoch
  refine ⟨t, hexec, ht, fun j hj => ?_, fun x hx j hj hbits => ?_, fun a hbits htable => ?_⟩
  · rw [hread, if_pos ⟨by omega, Nat.add_lt_add_left hj _⟩, Nat.add_sub_cancel_left]
  · rw [hread, if_neg (by unfold ceil8; omega), if_pos (by omega), Nat.add_assoc, Nat.add_sub_cancel_left,
      tableWrite_getD_eq_extractLsb' _ _ hx hj (s.freqOf_count_lt hx _), freqOf_count bs hx]
  · rw [hread, if_neg (by unfold ceil8; omega), if_neg (by omega)]

/-! ### The round trip (R406 (b), R414, R415) -/

/-- Bits just stored read back, whatever the memory was before. -/
theorem State.bitsRead_of_bitsWrite {t : State} {m : List Host.Cell} {a : Nat} {out : Bits}
    (h : t.mem = Memory.write m a (pack out)) : t.bitsRead a out.length = out := by
  have hread := Memory.readRun_write (Config.unwrittenByte t.memEpoch) m a (pack out)
  rw [pack_length] at hread
  rw [State.bitsRead, State.bytesRead, h, hread, unpack_pack]

/-- A table stored before bits that do not reach it reads back. -/
theorem readTable_table_bits {s t : State} {a b : Nat} {bs : List Byte} {out : Bits} (hwf : Memory.wf s.mem = true)
    (hmem : t.mem = Memory.writeAll s.mem [tableWrite a (freqOf bs), bitsWrite b out]) (hepoch : t.memEpoch = s.memEpoch)
    (hapart : b + ceil8 out.length ≤ a ∨ a + 1024 ≤ b) (hfits : ∀ x < 256, (freqOf bs).count x < 2 ^ 32) :
    t.readTable a = freqOf bs := by
  refine readTable_of_tableAt (by rw [hmem]; exact Memory.writeAll_wf hwf _) ⟨by simp [freqOf], fun x hx => ?_⟩
  refine (State.word32_of_tableWrite hx (hfits x hx) fun y hy hy' => ?_).symm
  rw [readByte_table_bits hmem hepoch, if_neg (by omega), if_pos ⟨hy, hy'⟩]

/-- What HCOMP did, where it ended with no error (R414). -/
theorem exec_hcomp_ok {s t : State} {bs : List Byte} (hbs : s.bytesRead s.opSrc s.opLen = bs) (h : exec .hcomp s = .next t)
    (herr : t.err = false) :
    s.opAux + tableBytes ≤ s.params.dmemSize ∧
      ∃ out, huffEncode (buildTree (freqOf bs)) bs = some out ∧ s.opDst + ceil8 out.length ≤ s.params.dmemSize ∧
        t.params = s.params ∧ t.latch = s.latch ∧ t.res0 = result out.length ∧
        t.mem = Memory.writeAll s.mem [tableWrite s.opAux (freqOf bs), bitsWrite s.opDst out] ∧ t.memEpoch = s.memEpoch := by
  have hpassed : resultOf .hcomp s ≠ .error .range := fun hr => by
    obtain rfl : s.failedWith 6#4 = t := Host.Outcome.next.inj ((exec_error hr).symm.trans h)
    cases herr
  have hsrc : s.opSrc + s.opLen ≤ s.params.dmemSize := not_lt.1 fun hr => hpassed (checks_eq_error (.inl hr))
  have haux : s.opAux + tableBytes ≤ s.params.dmemSize := not_lt.1 fun hr => hpassed (checks_eq_error (.inr hr))
  obtain ⟨out, hout⟩ := Option.ne_none_iff_exists'.1 (huffEncode_freqOf_ne_none bs)
  have hresult := hcompResult_of_encode hbs hsrc haux hout
  have hdst : s.opDst + ceil8 out.length ≤ s.params.dmemSize := not_lt.1 fun hr => hpassed (hresult.trans (if_pos hr))
  obtain ⟨t', hexec, ht, hmem, hepoch⟩ := exec_ok_tree (i := .hcomp) (hresult.trans (if_neg hdst.not_gt))
  obtain rfl : t' = t := Host.Outcome.next.inj (hexec.symm.trans h)
  exact ⟨haux, out, hout, hdst, by rw [ht]; rfl, by rw [ht]; rfl, by rw [ht]; rfl, hmem, hepoch⟩

/-- HDECOMP in a state whose memory HCOMP left, with the bits as its source and the table at aux: it decodes with the tree HCOMP
encoded with. -/
theorem exec_hdecomp_of_hcomp {s v : State} {bs : List Byte} {out : Bits} (hwf : Memory.wf s.mem = true)
    (hout : huffEncode (buildTree (freqOf bs)) bs = some out) (hfits : ∀ x < 256, (freqOf bs).count x < 2 ^ 32)
    (hmem : v.mem = Memory.writeAll s.mem [tableWrite v.opAux (freqOf bs), bitsWrite v.opSrc out])
    (hepoch : v.memEpoch = s.memEpoch) (hlen : v.opLen = out.length)
    (hsrc : v.opSrc + ceil8 out.length ≤ v.params.dmemSize) (haux : v.opAux + tableBytes ≤ v.params.dmemSize)
    (hdst : v.opDst + bs.length ≤ v.params.dmemSize)
    (hapart : v.opSrc + ceil8 out.length ≤ v.opAux ∨ v.opAux + 1024 ≤ v.opSrc) :
    ∃ u, exec .hdecomp v = .next u ∧ u.err = v.err ∧ u.res0 = result bs.length ∧ u.res1 = 0#32 ∧ v.storedFrom u v.opDst bs := by
  have htable := readTable_table_bits hwf hmem hepoch hapart hfits
  have hbits : v.bitsRead v.opSrc v.opLen = out := by rw [hlen]; exact State.bitsRead_of_bitsWrite hmem
  have hdecode : huffDecode (buildTree (freqOf bs)) (v.bitsRead v.opSrc v.opLen) = some (bs, 0) := by
    rw [hbits]
    exact huffDecode_of_huffEncode hout
  have hresult := hdecompResult_of_decode (by rwa [hlen]) haux htable hdecode
  obtain ⟨u, hexec, hu, humem, huepoch⟩ := exec_ok_tree (i := .hdecomp) (hresult.trans (if_neg hdst.not_gt))
  exact ⟨u, hexec, by rw [hu]; rfl, by rw [hu]; rfl, by rw [hu]; rfl, storedFrom_write humem huepoch⟩

/-- Settles O35: the state HCOMP ends in, with the new operands, is such a state. -/
theorem decompressRestoresCompressedBytes : Obligations.DecompressRestoresCompressedBytes := by
  intro s t dst2 hlegal hwf _ hexec hterr hapart hdst2
  obtain ⟨haux, out, hout, hdst, hparams, hlatch, hres0, hmem, hepoch⟩ := exec_hcomp_ok rfl hexec hterr
  have hlen : t.res0.toNat = out.length := by rw [hres0]; exact result_toNat_of_inside hlegal hdst.not_gt
  rw [hlen] at hapart
  rw [hlatch]
  obtain ⟨u, hu, herr, hu0, hu1, hstored⟩ := exec_hdecomp_of_hcomp
    (v := { t with latch := { s.latch with src := s.latch.dst, len := t.res0, dst := dst2 } })
    hwf hout (fun x hx => s.freqOf_count_lt hx _) hmem hepoch hlen (hparams ▸ hdst) (hparams ▸ haux)
    (by rw [State.bytesRead_length]; exact hparams ▸ hdst2) hapart
  refine ⟨u, hu, herr.trans hterr, hu0.trans ?_, hu1, fun j hj => ?_⟩
  · rw [State.bytesRead_length]
    exact BitVec.ofNat_toNat 32 s.latch.len
  · have hread := hstored (dst2.toNat + j)
    rwa [State.bytesRead_length, if_pos ⟨Nat.le_add_right _ _, Nat.add_lt_add_left hj _⟩, State.opDst,
      Nat.add_sub_cancel_left] at hread

end Sys2Proof.Machine
end

section
/-! SUPPORT. The bit-pack and padding commands (42_bitpack_padding.md R500 to R513): cells against bits, what padding appends, and
that depadding takes it off again. -/

namespace Sys2Proof.Machine

/-! ### Parts of an unpacked byte list (20_memory.md R206) -/

theorem unpack_take_of_le (bs : List Byte) {L M : Nat} (h : L ≤ M) : (unpack bs M).take L = unpack bs L := by
  rw [unpack, unpack, List.take_take, Nat.min_eq_left h]

/-- Only the bytes that hold the first `L` bits matter. -/
theorem unpack_append_of_le {bs : List Byte} {L : Nat} (h : L ≤ 8 * bs.length) (cs : List Byte) :
    unpack (bs ++ cs) L = unpack bs L := by
  rw [unpack, unpack, List.flatMap_append, List.take_append_of_le_length (by rwa [flatMap_byteBits_length])]

theorem unpack_take_bytes (bs : List Byte) {k L : Nat} (hk : k ≤ bs.length) (h : L ≤ 8 * k) :
    unpack (bs.take k) L = unpack bs L := by
  conv_rhs => rw [← List.take_append_drop k bs]
  exact (unpack_append_of_le (by rwa [List.length_take_of_le hk]) _).symm

/-! ### Cells (R501) -/

theorem bitsOfCells_of_cells {l : List Byte} (h : ∀ c ∈ l, c = 0x00#8 ∨ c = 0x01#8) :
    bitsOfCells l = some (l.map (fun c => decide (c = 0x01#8))) := by
  induction l with
  | nil => rfl
  | cons c rest ih =>
    obtain ⟨hc, hrest⟩ := List.forall_mem_cons.1 h
    rcases hc with rfl | rfl <;> simp [bitsOfCells, ih hrest]

/-- One byte that is no cell is enough. -/
theorem bitsOfCells_eq_none {l : List Byte} (h : ∃ c ∈ l, c ≠ 0x00#8 ∧ c ≠ 0x01#8) : bitsOfCells l = none := by
  induction l with
  | nil => simp at h
  | cons c rest ih =>
    rcases (List.exists_mem_cons_iff _ _ _).1 h with ⟨h0, h1⟩ | hrest
    · simp [bitsOfCells, h0, h1]
    · simp [bitsOfCells, ih hrest]

/-! ### Block sizes and padding (R500, R502) -/

theorem blockSizeOk_iff (bits : Nat) : blockSizeOk bits = true ↔ 8 ≤ bits ∧ bits % 8 = 0 ∧ bits ≤ 2040 := by
  simp [blockSizeOk, and_assoc]

theorem blockSizeOk_eq_false_iff (bits : Nat) : blockSizeOk bits = false ↔ ¬(8 ≤ bits ∧ bits % 8 = 0 ∧ bits ≤ 2040) := by
  rw [← blockSizeOk_iff, Bool.not_eq_true]

@[simp] theorem padBytes_length (data : List Byte) (B : Nat) :
    (padBytes data B).length = data.length + padCount data.length B := by
  simp [padBytes]

/-- At least one pad byte is always appended. -/
theorem padCount_pos (m : Nat) {B : Nat} (h : 0 < B) : 0 < padCount m B := Nat.sub_pos_of_lt (Nat.mod_lt m h)

theorem padCount_le (m B : Nat) : padCount m B ≤ B := Nat.sub_le _ _

/-- The padded length is a whole number of blocks. -/
theorem dvd_add_padCount (m : Nat) {B : Nat} (h : 0 < B) : B ∣ m + padCount m B := by
  have hsplit : m + padCount m B = B * (m / B + 1) := by
    have hmod := Nat.mod_lt m h
    have hdiv := Nat.div_add_mod m B
    rw [Nat.mul_add, padCount]
    omega
  exact ⟨_, hsplit⟩

theorem padBytes_getLast? (data : List Byte) {B : Nat} (h : 0 < B) :
    (padBytes data B).getLast? = some (BitVec.ofNat 8 (padCount data.length B)) := by
  simp [padBytes, List.getLast?_replicate, (padCount_pos data.length h).ne']

/-! ### Depadding (R503, R504) -/

/-- The trailing byte by its index. -/
theorem getLast?_eq_some_getD {data : List Byte} (h : data.length ≠ 0) :
    data.getLast? = some (data.getD (data.length - 1) 0#8) := by
  rw [List.getLast?_eq_getElem?, List.getD_eq_getElem _ _ (by omega), List.getElem?_eq_getElem]

/-- A trailing byte that is no pad count. -/
theorem unpadBytes_invalid {data : List Byte} {last : Byte} {B : Nat} (hlast : data.getLast? = some last)
    (h : last.toNat = 0 ∨ B < last.toNat ∨ data.length < last.toNat) (orig : Nat) :
    unpadBytes data B orig = .error .invalidPadding := by
  simp only [unpadBytes, hlast]
  exact if_pos h

/-- Data whose trailing byte is a pad count: the bits asked for are the first of the data, where enough are left. -/
theorem unpadBytes_valid {data : List Byte} {last : Byte} {B : Nat} (hlast : data.getLast? = some last)
    (h0 : last.toNat ≠ 0) (hB : last.toNat ≤ B) (hlen : last.toNat ≤ data.length) (orig : Nat) :
    unpadBytes data B orig
      = if 8 * (data.length - last.toNat) < orig then .error .lengthMismatch else .ok (unpack data orig, last.toNat) := by
  have hvalid : ¬(last.toNat = 0 ∨ B < last.toNat ∨ data.length < last.toNat) := by omega
  simp only [unpadBytes, hlast, if_neg hvalid]
  refine ite_congr rfl (fun _ => rfl) fun horig => ?_
  have hleft : orig ≤ 8 * (data.length - last.toNat) := not_lt.1 horig
  rw [unpack_take_of_le _ hleft, unpack_take_bytes _ (Nat.sub_le _ _) hleft]

/-- Depadding padded bytes gives back any bits of the data (R504 (a)). -/
theorem unpadBytes_padBytes {data : List Byte} {B orig : Nat} (h1 : 1 ≤ B) (h255 : B ≤ 255) (horig : orig ≤ 8 * data.length) :
    unpadBytes (padBytes data B) B orig = .ok (unpack data orig, padCount data.length B) := by
  have hpos := padCount_pos data.length h1
  have hle := padCount_le data.length B
  have hlast : (BitVec.ofNat 8 (padCount data.length B)).toNat = padCount data.length B :=
    (BitVec.toNat_ofNat _ _).trans (Nat.mod_eq_of_lt (by omega))
  have hunpad := unpadBytes_valid (B := B) (padBytes_getLast? data h1) (by omega) (by omega)
    (by rw [padBytes_length]; omega) orig
  rw [hlast, padBytes_length, Nat.add_sub_cancel, if_neg horig.not_gt] at hunpad
  rw [hunpad, padBytes, unpack_append_of_le horig]

/-- Settles O41: the packed form holds every bit of the sequence. -/
theorem unpadInvertsPad : Obligations.UnpadInvertsPad := by
  intro S B h1 h255
  rw [unpadBytes_padBytes h1 h255 (by rw [pack_length]; exact le_mul_ceil8 _), unpack_pack]

/-! ### The commands (R510 to R513) -/

/-- A length operand as a result is the operand. -/
theorem State.result_opLen (s : State) : result s.opLen = s.latch.len := BitVec.ofNat_toNat 32 s.latch.len

theorem State.result_opAux2 (s : State) : result s.opAux2 = s.latch.aux2 := BitVec.ofNat_toNat 32 s.latch.aux2

/-- PACK with its source in range and made of cells (R510). -/
theorem packResult_of_cells {s : State} {b : Bits} (hsrc : s.opSrc + s.opLen ≤ s.params.dmemSize)
    (hb : bitsOfCells (s.bytesRead s.opSrc s.opLen) = some b) :
    packResult s
      = if s.outOfRange s.opDst (ceil8 s.opLen) then .error .range
        else .ok { writes := [(s.opDst, pack b)], res0 := result (ceil8 s.opLen), res1 := 0#32 } := by
  simp [packResult, hsrc.not_gt, hb, bitsWrite]

/-- Settles O37: the cells have one bit each, and a byte that is no cell leaves the list without bits. -/
theorem packStoresTheCellsAsBits : Obligations.PackStoresTheCellsAsBits := by
  intro s cells
  refine ⟨fun hsrc => exec_error (c := .range) (if_pos hsrc), fun hsrc hbad => exec_error (c := .invalidArgument) ?_,
    fun hsrc hcells => (exec_checked_store (i := .pack) (packResult_of_cells hsrc (bitsOfCells_of_cells hcells))).1,
    fun hsrc hcells => (exec_checked_store (i := .pack) (packResult_of_cells hsrc (bitsOfCells_of_cells hcells))).2⟩
  have hnone : bitsOfCells (s.bytesRead s.opSrc s.opLen) = none := bitsOfCells_eq_none hbad
  simp [resultOf, packResult, hsrc.not_gt, hnone]

/-- Settles O38: RES0 is the operand `len` itself. -/
theorem unpackStoresTheBitsAsCells : Obligations.UnpackStoresTheBitsAsCells := by
  intro s
  refine ⟨fun h => exec_error (c := .range) (checks_eq_error h), fun hsrc hdst => ?_⟩
  obtain ⟨t, hexec, ht, hstored⟩ := exec_ok_store (i := .unpack) ((if_neg hsrc.not_gt).trans (if_neg hdst.not_gt))
  rw [State.result_opLen] at ht
  exact ⟨t, hexec, ht, hstored⟩

/-- PAD with a legal block size and its source in range (R512). -/
theorem padResult_of_source {s : State} {m padn : Nat} (hblock : blockSizeOk s.opAux = true) (hm : ceil8 s.opLen = m)
    (hpadn : padCount m (s.opAux / 8) = padn) (hsrc : s.opSrc + m ≤ s.params.dmemSize) :
    padResult s
      = if s.outOfRange s.opDst (m + padn) then .error .range
        else .ok { writes := [(s.opDst, pack (s.bitsRead s.opSrc s.opLen) ++ List.replicate padn (BitVec.ofNat 8 padn))]
                   res0 := result (8 * (m + padn)), res1 := result padn } := by
  simp [padResult, hblock, hm, hpadn, hsrc.not_gt, padBytes]

/-- Settles O39: the padded data is a whole number of blocks. -/
theorem padAppendsThePadBytes : Obligations.PadAppendsThePadBytes := by
  intro s blockOk m padn
  have hresult (hok : blockOk) (hsrc : s.opSrc + m ≤ s.params.dmemSize) :=
    exec_checked_store (i := .pad) (padResult_of_source ((blockSizeOk_iff _).2 hok) rfl rfl hsrc)
  refine ⟨fun hbad => exec_error (c := .invalidArgument) (if_pos ((blockSizeOk_eq_false_iff _).2 hbad)),
    fun hok hsrc => exec_error (c := .range) ((if_neg ((blockSizeOk_eq_false_iff _).not_left.2 hok)).trans (if_pos hsrc)),
    fun hok hsrc => (hresult hok hsrc).1, fun hok hsrc hdst => ⟨?_, (hresult hok hsrc).2 hdst⟩⟩
  obtain ⟨h8, hdvd, -⟩ := hok
  rw [← Nat.mul_div_cancel' (Nat.dvd_of_mod_eq_zero hdvd)]
  exact Nat.mod_eq_zero_of_dvd (Nat.mul_dvd_mul_left 8 (dvd_add_padCount m (by omega)))

/-- UNPAD with a legal block size and its source in range: what depadding answers decides (R513). -/
theorem unpadResult_of_source {s : State} (hblock : blockSizeOk s.opAux = true)
    (hsrc : s.opSrc + ceil8 s.opLen ≤ s.params.dmemSize) :
    (∀ c, unpadBytes (pack (s.bitsRead s.opSrc s.opLen)) (s.opAux / 8) s.opAux2 = .error c → unpadResult s = .error c) ∧
    (∀ out padn, unpadBytes (pack (s.bitsRead s.opSrc s.opLen)) (s.opAux / 8) s.opAux2 = .ok (out, padn) →
      unpadResult s
        = if s.outOfRange s.opDst (ceil8 s.opAux2) then .error .range
          else .ok { writes := [(s.opDst, pack out)], res0 := s.latch.aux2, res1 := result padn }) := by
  constructor
  · intro c hc
    simp [unpadResult, hblock, hsrc.not_gt, hc]
  · intro out padn hout
    simp [unpadResult, hblock, hsrc.not_gt, hout, bitsWrite, State.result_opAux2]

/-- Settles O40: each answer of depadding in the order of R503. -/
theorem unpadStripsThePadBytes : Obligations.UnpadStripsThePadBytes := by
  intro s blockOk m data padn sourceOk paddingOk
  have hm : data.length = m := by rw [pack_length, State.bitsRead_length]
  have hlast (hne : m ≠ 0) : data.getLast? = some (data.getD (m - 1) 0#8) := by
    rw [← hm] at hne ⊢
    exact getLast?_eq_some_getD hne
  have hsource (hok : sourceOk) := unpadResult_of_source ((blockSizeOk_iff _).2 hok.1) hok.2
  have hvalid (hok : paddingOk) : unpadBytes data (s.opAux / 8) s.opAux2
      = if 8 * (m - padn) < s.opAux2 then .error .lengthMismatch else .ok (unpack data s.opAux2, padn) := by
    obtain ⟨-, hne, h0, hB, hlen⟩ := hok
    rw [← hm]
    exact unpadBytes_valid (hlast hne) h0 hB (hlen.trans_eq hm.symm) _
  have hstore (hok : paddingOk) (hleft : s.opAux2 ≤ 8 * (m - padn)) :=
    exec_checked_store (i := .unpad) ((hsource hok.1).2 _ _ ((hvalid hok).trans (if_neg hleft.not_gt)))
  refine ⟨fun hbad => exec_error (c := .invalidArgument) (if_pos ((blockSizeOk_eq_false_iff _).2 hbad)),
    fun hok hsrc => exec_error (c := .range) ((if_neg ((blockSizeOk_eq_false_iff _).not_left.2 hok)).trans (if_pos hsrc)),
    fun hok hbad => exec_error (c := .invalidPadding) ((hsource hok).1 _ ?_),
    fun hok hfew => exec_error (c := .lengthMismatch) ((hsource hok.1).1 _ ((hvalid hok).trans (if_pos hfew))),
    fun hok hleft => (hstore hok hleft).1, fun hok hleft hdst => ?_⟩
  · by_cases hne : m = 0
    · have hnil : data = [] := List.eq_nil_of_length_eq_zero (hm.trans hne)
      exact congrArg (unpadBytes · _ _) hnil
    · exact unpadBytes_invalid (hlast hne) (by rw [hm]; exact hbad.resolve_left hne) _
  · rw [unpack_take_of_le _ (by omega)]
    exact (hstore hok hleft).2 hdst

end Sys2Proof.Machine
end

section
/-! SUPPORT. Bit matrices and the arithmetic of GF(2) (00_scope.md R12; 20_memory.md R210; 43_linear_code.md R602 to R606): the
entries of a matrix and of its row-major form, dot products, codewords bit by bit, and binary numerals. -/

namespace Sys2Proof.Machine

/-! ### Entries, rows and columns -/

theorem getD_map_range (f : Nat → Bool) {n i : Nat} (h : i < n) : ((List.range n).map f).getD i false = f i := by
  simp [h]

/-- A row of a matrix that is given row by row. -/
theorem matrixEntry_map_range (f : Nat → Bits) {r i : Nat} (h : i < r) (j : Nat) :
    matrixEntry ((List.range r).map f) i j = (f i).getD j false := by
  simp [matrixEntry, h]

theorem matrixColumn_getD (M : BitMatrix) (i j : Nat) : (matrixColumn M j).getD i false = matrixEntry M i j := by
  simp only [matrixColumn, matrixEntry, List.getD_eq_getElem?_getD, List.getElem?_map]
  cases M[i]? <;> simp

@[simp] theorem matrixColumn_length (M : BitMatrix) (j : Nat) : (matrixColumn M j).length = M.length := by simp [matrixColumn]

theorem matrixEntry_transpose {M : BitMatrix} {c i j : Nat} (h : j < c) :
    matrixEntry (transpose c M) j i = matrixEntry M i j := by
  rw [transpose, matrixEntry_map_range _ h, matrixColumn_getD]

section
variable {A B : BitMatrix} {a i c : Nat} (hA : i < A.length) (hB : i < B.length) (hrows : ∀ row ∈ A, row.length = a)
include hA hB hrows

/-- In [A | B], the entries of A stand to the left. -/
theorem matrixEntry_besides_left (hc : c < a) : matrixEntry (besides A B) i c = matrixEntry A i c := by
  have hrow := hrows _ (List.getElem_mem hA)
  simp [matrixEntry, besides, hA, hB, List.getElem?_append_left (hrow.symm ▸ hc : c < A[i].length)]

/-- In [A | B], the entries of B stand to the right. -/
theorem matrixEntry_besides_right (hc : a ≤ c) : matrixEntry (besides A B) i c = matrixEntry B i (c - a) := by
  have hrow := hrows _ (List.getElem_mem hA)
  simp [matrixEntry, besides, hA, hB, List.getElem?_append_right (hrow.symm ▸ hc : A[i].length ≤ c), hrow]

end

/-! ### The row-major form (20_memory.md R210) -/

/-- Bit `i·c + j` of the row-major form is entry (i, j). -/
theorem matrixBits_getD {M : BitMatrix} {c : Nat} (hrows : ∀ row ∈ M, row.length = c) (i : Nat) {j : Nat} (hj : j < c) :
    (matrixBits M).getD (i * c + j) false = matrixEntry M i j := by
  induction M generalizing i with
  | nil => rfl
  | cons row M ih =>
    obtain ⟨hrow, hrest⟩ := List.forall_mem_cons.1 hrows
    cases i with
    | zero => exact (List.getD_append _ _ _ _ (by omega)).trans (by rw [Nat.zero_mul, Nat.zero_add]; rfl)
    | succ i =>
      have hpast : row.length ≤ (i + 1) * c + j := by rw [Nat.succ_mul]; omega
      calc (matrixBits (row :: M)).getD ((i + 1) * c + j) false
          = (matrixBits M).getD ((i + 1) * c + j - row.length) false := List.getD_append_right _ _ _ _ hpast
        _ = (matrixBits M).getD (i * c + j) false := by rw [hrow, Nat.succ_mul, Nat.add_right_comm, Nat.add_sub_cancel]
        _ = matrixEntry (row :: M) (i + 1) j := ih hrest i

/-- Entry (i, j) of the matrix with given row-major bits is bit `i·c + j`. -/
theorem matrixEntry_matrixOfBits {r c i j : Nat} (b : Bits) (hi : i < r) (hj : j < c) :
    matrixEntry (matrixOfBits r c b) i j = b.getD (i * c + j) false := by
  induction r generalizing b i with
  | zero => omega
  | succ r ih =>
    cases i with
    | zero => simp [matrixOfBits, matrixEntry, hj]
    | succ i =>
      calc matrixEntry (matrixOfBits (r + 1) c b) (i + 1) j
          = (b.drop c).getD (i * c + j) false := ih (b.drop c) (by omega)
        _ = b.getD ((i + 1) * c + j) false := by
            rw [List.getD_eq_getElem?_getD, List.getElem?_drop, ← List.getD_eq_getElem?_getD, Nat.succ_mul]
            congr 1
            omega

/-- The row-major form determines the matrix. -/
theorem matrixOfBits_matrixBits {M : BitMatrix} {c : Nat} (hrows : ∀ row ∈ M, row.length = c) :
    matrixOfBits M.length c (matrixBits M) = M := by
  induction M with
  | nil => rfl
  | cons row M ih =>
    obtain ⟨rfl, hrest⟩ := List.forall_mem_cons.1 hrows
    simpa [matrixOfBits, matrixBits] using ih hrest

/-! ### Dot products -/

theorem foldl_xor (l : Bits) (x : Bool) :
    l.foldl (fun acc y => xor acc y) x = xor x (l.foldl (fun acc y => xor acc y) false) := by
  induction l generalizing x with
  | nil => simp
  | cons y l ih => rw [List.foldl_cons, List.foldl_cons, ih, ih (xor false y), Bool.false_xor, Bool.xor_assoc]

@[simp] theorem gf2Dot_nil_left (b : Bits) : gf2Dot [] b = false := rfl

@[simp] theorem gf2Dot_nil_right (a : Bits) : gf2Dot a [] = false := by simp [gf2Dot]

@[simp] theorem gf2Dot_cons (x y : Bool) (a b : Bits) : gf2Dot (x :: a) (y :: b) = xor (x && y) (gf2Dot a b) := by
  rw [gf2Dot, List.zipWith_cons_cons, List.foldl_cons, Bool.false_xor, foldl_xor, gf2Dot]

theorem gf2Dot_comm (a b : Bits) : gf2Dot a b = gf2Dot b a := by
  rw [gf2Dot, gf2Dot, List.zipWith_comm]
  simp only [Bool.and_comm]

theorem gf2Dot_append {a c : Bits} (h : a.length = c.length) (b d : Bits) :
    gf2Dot (a ++ b) (c ++ d) = xor (gf2Dot a c) (gf2Dot b d) := by
  rw [gf2Dot, List.zipWith_append h, List.foldl_append, foldl_xor]
  rfl

/-- The dot product is linear. -/
theorem gf2Dot_addBits (h : Bits) {a b : Bits} (hlen : a.length = b.length) :
    gf2Dot h (addBits a b) = xor (gf2Dot h a) (gf2Dot h b) := by
  induction h generalizing a b with
  | nil => rfl
  | cons x h ih =>
    match a, b, hlen with
    | [], [], _ => rfl
    | y :: a, z :: b, hlen =>
      have hrest := ih (a := a) (b := b) (by simpa using hlen)
      rw [addBits] at hrest ⊢
      rw [List.zipWith_cons_cons, gf2Dot_cons, gf2Dot_cons, gf2Dot_cons, hrest, Bool.and_xor_distrib_left]
      simp only [Bool.xor_assoc, Bool.xor_left_comm]

/-- Inverting bit `q` of a word adds entry `q` of the other vector. -/
theorem gf2Dot_flipBit (h : Bits) {r : Bits} {q : Nat} (hq : q < r.length) :
    gf2Dot h (flipBit r q) = xor (gf2Dot h r) (h.getD q false) := by
  induction h generalizing r q with
  | nil => rfl
  | cons x h ih =>
    obtain ⟨y, r, rfl⟩ := List.exists_cons_of_length_pos (Nat.zero_lt_of_lt hq)
    cases q with
    | zero => cases x <;> cases y <;> simp [flipBit]
    | succ q =>
      have := ih (r := r) (q := q) (by simpa using hq)
      simpa [flipBit, Bool.xor_assoc] using this

/-- The sum of the products, entry by entry (00_scope.md R12). -/
theorem gf2Dot_eq_foldl_range {a b : Bits} {k : Nat} (ha : a.length = k) (hb : b.length = k) :
    gf2Dot a b = (List.range k).foldl (fun acc j => xor acc (a.getD j false && b.getD j false)) false := by
  have hzip : List.zipWith (fun x y => x && y) a b = (List.range k).map (fun j => a.getD j false && b.getD j false) := by
    refine List.ext_getElem (by simp [ha, hb]) fun j hj _ => ?_
    obtain ⟨hja, hjb⟩ : j < a.length ∧ j < b.length := by simpa using hj
    simp [hja, hjb]
  rw [gf2Dot, hzip, List.foldl_map]

/-! ### Unit vectors -/

/-- Row `i` of the identity matrix I_r. -/
def unitBits (r i : Nat) : Bits := (List.range r).map (fun j => decide (i = j))

theorem identityMatrix_eq (r : Nat) : identityMatrix r = (List.range r).map (unitBits r) := rfl

@[simp] theorem unitBits_length (r i : Nat) : (unitBits r i).length = r := by simp [unitBits]

theorem unitBits_getD {r i j : Nat} (h : j < r) : (unitBits r i).getD j false = decide (i = j) := getD_map_range _ h

theorem gf2Dot_replicate_false (a : Bits) (n : Nat) : gf2Dot a (List.replicate n false) = false := by
  induction a generalizing n with
  | nil => rfl
  | cons x a ih =>
    cases n with
    | zero => rfl
    | succ n => rw [List.replicate_succ, gf2Dot_cons, ih, Bool.and_false, Bool.xor_false]

/-- A unit vector is the zero word with one bit inverted. -/
theorem unitBits_eq_flipBit {r i : Nat} (h : i < r) : unitBits r i = flipBit (List.replicate r false) i := by
  refine List.ext_getElem (by simp [flipBit]) fun j hj _ => ?_
  simp [unitBits, flipBit, List.getElem_set, h]

/-- The dot product with a unit vector picks one entry. -/
theorem gf2Dot_unitBits (a : Bits) {r i : Nat} (h : i < r) : gf2Dot a (unitBits r i) = a.getD i false := by
  rw [unitBits_eq_flipBit h, gf2Dot_flipBit a (by simpa using h), gf2Dot_replicate_false, Bool.false_xor]

theorem matrixEntry_identityMatrix {r i j : Nat} (hi : i < r) (hj : j < r) :
    matrixEntry (identityMatrix r) i j = decide (i = j) := by
  rw [identityMatrix_eq, matrixEntry_map_range _ hi, unitBits_getD hj]

/-! ### Codewords (R606) -/

/-- One step of R606: the row goes into the sum where its message bit is 1. -/
def addSelected (acc : Bits) (e : Bool × Bits) : Bits := if e.1 then addBits acc e.2 else acc

theorem encodeBlock_eq (n : Nat) (G : BitMatrix) (m : Bits) :
    encodeBlock n G m = (List.zip m G).foldl addSelected (List.replicate n false) := rfl

section
variable {n : Nat} {acc : Bits} {e : Bool × Bits} (hacc : acc.length = n) (he : e.2.length = n)
include hacc he

theorem addSelected_length : (addSelected acc e).length = n := by
  unfold addSelected
  split
  · simp [addBits, hacc, he]
  · exact hacc

theorem gf2Dot_addSelected (h : Bits) : gf2Dot h (addSelected acc e) = xor (gf2Dot h acc) (e.1 && gf2Dot h e.2) := by
  unfold addSelected
  cases e.1
  · simp
  · simp [gf2Dot_addBits h (hacc.trans he.symm)]

end

/-- The sum of the rows that a message selects, added to `acc`: its product with any vector. -/
theorem gf2Dot_foldl_addSelected (h m : Bits) {G : BitMatrix} {acc : Bits} {n : Nat} (hacc : acc.length = n)
    (hrows : ∀ row ∈ G, row.length = n) :
    ((List.zip m G).foldl addSelected acc).length = n ∧
      gf2Dot h ((List.zip m G).foldl addSelected acc) = xor (gf2Dot h acc) (gf2Dot m (G.map (gf2Dot h))) := by
  induction m generalizing G acc with
  | nil => simp [hacc]
  | cons x m ih =>
    cases G with
    | nil => simp [hacc]
    | cons row G =>
      obtain ⟨hrow, hrest⟩ := List.forall_mem_cons.1 hrows
      obtain ⟨hlen, hdot⟩ := ih (addSelected_length (e := (x, row)) hacc hrow) hrest
      refine ⟨hlen, hdot.trans ?_⟩
      rw [gf2Dot_addSelected hacc hrow, List.map_cons, gf2Dot_cons, Bool.xor_assoc]

section
variable {n k : Nat} {G : BitMatrix} (hrows : ∀ row ∈ G, row.length = n) (m : Bits)
include hrows

theorem encodeBlock_length : (encodeBlock n G m).length = n := by
  obtain ⟨hlen, -⟩ := gf2Dot_foldl_addSelected [] m (List.length_replicate (a := false)) hrows
  exact hlen

/-- The encoder is linear: a vector's product with a codeword is the message's product with what the vector gives on the rows of
G. -/
theorem gf2Dot_encodeBlock (h : Bits) : gf2Dot h (encodeBlock n G m) = gf2Dot m (G.map (gf2Dot h)) := by
  obtain ⟨-, hdot⟩ := gf2Dot_foldl_addSelected h m (List.length_replicate (a := false)) hrows
  rw [encodeBlock_eq, hdot, gf2Dot_replicate_false, Bool.false_xor]

/-- Bit `c` of a codeword is the message's product with column `c` of G. -/
theorem encodeBlock_getD {c : Nat} (hc : c < n) : (encodeBlock n G m).getD c false = gf2Dot m (matrixColumn G c) := by
  have hcolumn : G.map (gf2Dot (unitBits n c)) = matrixColumn G c :=
    List.map_congr_left fun row _ => by rw [gf2Dot_comm, gf2Dot_unitBits row hc]
  rw [← gf2Dot_unitBits _ hc, gf2Dot_comm, gf2Dot_encodeBlock hrows, hcolumn]

/-- Bit `c` of a codeword as the sum of R606. -/
theorem encodeBlock_getD_eq_foldl (hG : G.length = k) {m : Bits} (hm : m.length = k) {c : Nat} (hc : c < n) :
    (encodeBlock n G m).getD c false
      = (List.range k).foldl (fun acc j => xor acc (m.getD j false && matrixEntry G j c)) false := by
  rw [encodeBlock_getD hrows m hc, gf2Dot_eq_foldl_range hm (by simpa using hG)]
  simp only [matrixColumn_getD]

end

/-! ### Binary numerals (R602, R604) -/

/-- The `p`-bit binary numeral of `v`, most significant bit first. -/
def numeral (p v : Nat) : Bits := (List.range p).map (fun i => v.testBit (p - 1 - i))

theorem numeral_succ (p v : Nat) : numeral (p + 1) v = numeral p (v / 2) ++ [v.testBit 0] := by
  rw [numeral, numeral, List.range_succ, List.map_append]
  congr 1
  · refine List.map_congr_left fun i hi => ?_
    rw [← Nat.testBit_succ]
    congr 1
    have := List.mem_range.1 hi
    omega
  · simp

/-- A numeral writes its number, cut to its width. -/
theorem bitsNumber_numeral (p v : Nat) : bitsNumber (numeral p v) = v % 2 ^ p := by
  induction p generalizing v with
  | zero => simp [numeral, bitsNumber, Nat.mod_one]
  | succ p ih =>
    rw [numeral_succ, bitsNumber_append_single, ih, Nat.pow_succ', Nat.mod_mul, Nat.testBit_zero, Nat.add_comm]
    rcases Nat.mod_two_eq_zero_or_one v with h | h <;> simp [h]

theorem bitsNumber_map_false {α : Type} (l : List α) : bitsNumber (l.map (fun _ => false)) = 0 := by
  induction l using List.reverseRecOn with
  | nil => rfl
  | append_singleton l x ih => rw [List.map_append, List.map_singleton, bitsNumber_append_single, ih]; rfl

/-- Column `j` of a matrix of numerals. -/
theorem matrixColumn_matrixP (p : Nat) (cols : List Nat) (j : Nat) :
    matrixColumn (matrixP p cols) j = numeral p (cols.getD j 0) := by
  rw [matrixColumn, matrixP, numeral, List.map_map]
  refine List.map_congr_left fun i _ => ?_
  simp only [Function.comp_apply, List.getD_eq_getElem?_getD, List.getElem?_map]
  cases cols[j]? <;> simp

theorem matrixEntry_matrixP {p i : Nat} (cols : List Nat) (j : Nat) (h : i < p) :
    matrixEntry (matrixP p cols) i j = (cols.getD j 0).testBit (p - 1 - i) := by
  rw [← matrixColumn_getD, matrixColumn_matrixP, numeral, getD_map_range _ h]

end Sys2Proof.Machine
end

section
/-! SUPPORT. The codes LCGEN builds (43_linear_code.md R601 to R603): the columns of P, and the entries of P, G and H. -/

namespace Sys2Proof.Machine

/-! ### The columns (R601) -/

/-- `v` has a column of its own: a number from 1 on, of `p` bits, that is no power of two (R601). -/
theorem mem_pCandidates {p v : Nat} :
    v ∈ (List.range' 1 (2 ^ p - 1)).filter (fun v => !isUnitVector p v) ↔ 1 ≤ v ∧ v < 2 ^ p ∧ ∀ i, v ≠ 2 ^ i := by
  have hpos : 0 < 2 ^ p := Nat.two_pow_pos p
  simp only [List.mem_filter, List.mem_range'_1, isUnitVector, Bool.not_eq_true', List.any_eq_false, List.mem_range, beq_iff_eq]
  constructor
  · rintro ⟨⟨h1, hlt⟩, hunit⟩
    refine ⟨h1, by omega, fun i hi => hunit i ?_ hi.symm⟩
    exact (Nat.pow_lt_pow_iff_right (by decide : 1 < 2)).1 (by omega)
  · rintro ⟨h1, hlt, hunit⟩
    exact ⟨⟨h1, by omega⟩, fun i _ hi => hunit i hi.symm⟩

theorem pCandidates_pairwise (p : Nat) :
    ((List.range' 1 (2 ^ p - 1)).filter (fun v => !isUnitVector p v)).Pairwise (fun a b => a < b) :=
  List.Pairwise.filter _ List.pairwise_lt_range'

theorem pColumns_pairwise (p k : Nat) : (pColumns p k).Pairwise (fun a b => a < b) := (pCandidates_pairwise p).take

theorem of_mem_pColumns {p k v : Nat} (h : v ∈ pColumns p k) : 1 ≤ v ∧ v < 2 ^ p ∧ ∀ i, v ≠ 2 ^ i :=
  mem_pCandidates.1 (List.mem_of_mem_take h)

/-- The columns are the first of their kind: a smaller number with a column of its own stands before. -/
theorem mem_pColumns_of_lt {p k v u : Nat} (h1 : 1 ≤ v) (hunit : ∀ i, v ≠ 2 ^ i) (hu : u ∈ pColumns p k) (hlt : v < u) :
    v ∈ pColumns p k := by
  obtain ⟨-, hup, -⟩ := of_mem_pColumns hu
  have hmem := mem_pCandidates.2 ⟨h1, hlt.trans hup, hunit⟩
  have hsorted := pCandidates_pairwise p
  rw [← List.take_append_drop k (List.filter _ _)] at hmem hsorted
  obtain ⟨-, -, hbefore⟩ := List.pairwise_append.1 hsorted
  rcases List.mem_append.1 hmem with h | h
  · exact h
  · exact absurd (hbefore u hu v h) hlt.not_gt

/-! ### The matrices (R602, R603) -/

section
variable {n k : Nat}

theorem generateCode_G (n k : Nat) :
    (generateCode n k).G = besides (identityMatrix k) (transpose k (matrixP (n - k) (pColumns (n - k) k))) := rfl

theorem generateCode_H (n k : Nat) :
    (generateCode n k).H = besides (matrixP (n - k) (pColumns (n - k) k)) (identityMatrix (n - k)) := rfl

/-- The left part of G is the identity. -/
theorem generateCode_G_left {j c : Nat} (hj : j < k) (hc : c < k) : matrixEntry (generateCode n k).G j c = decide (c = j) := by
  rw [generateCode_G, matrixEntry_besides_left (by simpa) (by simpa) identityMatrix_row_length hc,
    matrixEntry_identityMatrix hj hc]
  exact decide_eq_decide.2 eq_comm

/-- The right part of G is the transpose of P. -/
theorem generateCode_G_right {j c : Nat} (hj : j < k) (hc : k ≤ c) :
    matrixEntry (generateCode n k).G j c = matrixEntry (generateCode n k).P (c - k) j := by
  rw [generateCode_G, matrixEntry_besides_right (by simpa) (by simpa) identityMatrix_row_length hc, matrixEntry_transpose hj]
  rfl

theorem matrixP_pColumns_row_length (h : k ≤ 2 ^ (n - k) - 1 - (n - k)) :
    ∀ row ∈ matrixP (n - k) (pColumns (n - k) k), row.length = k := by
  simpa only [pColumns_length h] using matrixP_row_length (p := n - k) (cols := pColumns (n - k) k)

/-- The left part of H is P. -/
theorem generateCode_H_left (h : k ≤ 2 ^ (n - k) - 1 - (n - k)) {i c : Nat} (hi : i < n - k) (hc : c < k) :
    matrixEntry (generateCode n k).H i c = matrixEntry (generateCode n k).P i c :=
  matrixEntry_besides_left (by simpa) (by simpa) (matrixP_pColumns_row_length h) hc

/-- The right part of H is the identity. -/
theorem generateCode_H_right (h : k ≤ 2 ^ (n - k) - 1 - (n - k)) {i c : Nat} (hi : i < n - k) (hk : k ≤ c) (hc : c < n) :
    matrixEntry (generateCode n k).H i c = decide (c - k = i) := by
  rw [generateCode_H, matrixEntry_besides_right (by simpa) (by simpa) (matrixP_pColumns_row_length h) hk,
    matrixEntry_identityMatrix hi (by omega)]
  exact decide_eq_decide.2 eq_comm

end

/-- Settles O51: the candidates for a column are sorted, and each block of G and H is read where it stands. -/
theorem generatedMatricesAreSystematic : Obligations.GeneratedMatricesAreSystematic := by
  intro n k _ hkn h p cols C
  obtain ⟨hGlen, hGrows⟩ := generateCode_G_shape hkn.le
  obtain ⟨hHlen, hHrows⟩ := generateCode_H_shape hkn.le h
  exact ⟨⟨pColumns_length h, pColumns_pairwise p k, fun v => of_mem_pColumns, fun v u => mem_pColumns_of_lt⟩,
    fun i hi j _ => matrixEntry_matrixP cols j hi,
    ⟨hGlen, hGrows, fun j hj c => generateCode_G_left hj, fun j hj c hk _ => generateCode_G_right hj hk⟩,
    ⟨hHlen, hHrows, fun i hi c => generateCode_H_left h hi, fun i hi c => generateCode_H_right h hi⟩⟩

/-! ### H·G^T = 0 (R608 (a)) -/

/-- Rows of the two systematic forms are orthogonal, whatever P is: both products are the same entry of P. -/
theorem gf2Dot_systematic {P : BitMatrix} {k p : Nat} (hlen : P.length = p) (hrows : ∀ row ∈ P, row.length = k) :
    ∀ h ∈ besides P (identityMatrix p), ∀ g ∈ besides (identityMatrix k) (transpose k P), gf2Dot h g = false := by
  intro h hh g hg
  obtain ⟨i, hi, rfl⟩ := List.mem_iff_getElem.1 hh
  obtain ⟨j, hj, rfl⟩ := List.mem_iff_getElem.1 hg
  simp only [besides_length, identityMatrix_length, transpose_length, hlen, Nat.min_self] at hi hj
  have hrow : P[i].length = (unitBits k j).length := by rw [hrows _ (List.getElem_mem _), unitBits_length]
  simp only [besides, List.getElem_zipWith, identityMatrix_eq, transpose, List.getElem_map, List.getElem_range]
  rw [gf2Dot_append hrow, gf2Dot_unitBits _ hj, gf2Dot_comm, gf2Dot_unitBits _ hi, matrixColumn_getD]
  simp [matrixEntry, hlen, hi]

/-- Settles O52: H and G are the two systematic forms of one P. -/
theorem parityCheckAnnihilatesGenerator : Obligations.ParityCheckAnnihilatesGenerator :=
  fun _ _ _ _ h => gf2Dot_systematic (matrixP_length _ _) (matrixP_pColumns_row_length h)

/-! ### H as a matrix of numerals -/

/-- The numbers of the parity columns: the unit vectors, the highest first (R604). -/
def unitColumns (p : Nat) : List Nat := (List.range p).map (fun i => 2 ^ (p - 1 - i))

/-- The numbers of the columns of H, in order. -/
def columnNumbers (n k : Nat) : List Nat := pColumns (n - k) k ++ unitColumns (n - k)

/-- The identity matrix holds the numerals of the powers of two. -/
theorem identityMatrix_eq_matrixP (p : Nat) : identityMatrix p = matrixP p (unitColumns p) := by
  refine List.map_congr_left fun i hi => ?_
  rw [unitColumns, List.map_map]
  refine List.map_congr_left fun j hj => ?_
  have := List.mem_range.1 hi
  have := List.mem_range.1 hj
  rw [Function.comp_apply, Nat.testBit_two_pow]
  exact decide_eq_decide.2 (by omega)

theorem besides_matrixP (p : Nat) (xs ys : List Nat) : besides (matrixP p xs) (matrixP p ys) = matrixP p (xs ++ ys) := by
  simp [besides, matrixP, List.zipWith_map, List.zipWith_self]

theorem generateCode_H_eq_matrixP (n k : Nat) : (generateCode n k).H = matrixP (n - k) (columnNumbers n k) := by
  rw [generateCode_H, identityMatrix_eq_matrixP, besides_matrixP]
  rfl

theorem columnNumbers_length {n k : Nat} (hk : k ≤ n) (h : k ≤ 2 ^ (n - k) - 1 - (n - k)) : (columnNumbers n k).length = n := by
  rw [columnNumbers, List.length_append, pColumns_length h, unitColumns, List.length_map, List.length_range]
  omega

theorem of_mem_columnNumbers {n k v : Nat} (h : v ∈ columnNumbers n k) : v ≠ 0 ∧ v < 2 ^ (n - k) := by
  rcases List.mem_append.1 h with h | h
  · obtain ⟨h1, hlt, -⟩ := of_mem_pColumns h
    exact ⟨by omega, hlt⟩
  · obtain ⟨i, hi, rfl⟩ := List.mem_map.1 h
    have := List.mem_range.1 hi
    exact ⟨(Nat.two_pow_pos _).ne', Nat.pow_lt_pow_right (by decide) (by omega)⟩

/-- The columns of a generated H are distinct: those of P are no powers of two, and the others are different ones. -/
theorem columnNumbers_nodup (n k : Nat) : (columnNumbers n k).Nodup := by
  refine List.nodup_append'.2 ⟨(pColumns_pairwise _ _).imp Nat.ne_of_lt, ?_, fun v hv hunit => ?_⟩
  · refine List.Nodup.map_on (fun i hi j hj hij => ?_) List.nodup_range
    have := Nat.pow_right_injective (le_refl 2) hij
    have := List.mem_range.1 hi
    have := List.mem_range.1 hj
    omega
  · obtain ⟨i, -, rfl⟩ := List.mem_map.1 hunit
    obtain ⟨-, -, hpower⟩ := of_mem_pColumns hv
    exact hpower _ rfl

/-- The number of a column of a generated H (R604). -/
theorem bitsNumber_matrixColumn_generateCode {n k c : Nat} (hc : c < (columnNumbers n k).length) :
    bitsNumber (matrixColumn (generateCode n k).H c) = (columnNumbers n k)[c] := by
  obtain ⟨-, hlt⟩ := of_mem_columnNumbers (List.getElem_mem hc)
  rw [generateCode_H_eq_matrixP, matrixColumn_matrixP, bitsNumber_numeral, List.getD_eq_getElem _ _ hc, Nat.mod_eq_of_lt hlt]

end Sys2Proof.Machine
end

section
/-! SUPPORT. Syndromes, the syndrome table and block decode (43_linear_code.md R604, R605, R607), and the decoding laws of a
generated code (R608). -/

namespace Sys2Proof.Machine

/-! ### The syndrome table (R605) -/

theorem syndromeTable_succ (n : Nat) (H : BitMatrix) : syndromeTable (n + 1) H = addColumn H (syndromeTable n H) n := by
  rw [syndromeTable, List.range_succ, List.foldl_append]
  rfl

theorem position_append_single (T : SyndromeTable) (v pos S : Nat) :
    SyndromeTable.position (T ++ [(v, pos)]) S = (SyndromeTable.position T S).or (if v = S then some pos else none) := by
  unfold SyndromeTable.position
  rw [List.find?_append, Option.map_or, List.find?_singleton]
  by_cases h : v = S <;> simp [h]

/-- A number is in the table exactly when it has a position. -/
theorem mem_keys_iff {T : SyndromeTable} {S : Nat} : S ∈ T.map Prod.fst ↔ (SyndromeTable.position T S).isSome = true := by
  simp [SyndromeTable.position, List.find?_isSome]

/-- What a position adds to the table: its number, where that is not 0 and not yet there. -/
theorem position_addColumn (H : BitMatrix) (T : SyndromeTable) (pos S : Nat) :
    SyndromeTable.position (addColumn H T pos) S
      = (SyndromeTable.position T S).or (if S ≠ 0 ∧ bitsNumber (matrixColumn H pos) = S then some pos else none) := by
  unfold addColumn
  dsimp only
  split
  · rename_i hskip
    split
    · rename_i hnew
      obtain ⟨hS, rfl⟩ := hnew
      rw [Option.or_of_isSome (hskip.resolve_left hS)]
    · rw [Option.or_none]
  · rename_i hnew
    rw [position_append_single]
    congr 1
    refine if_congr ⟨fun h => ⟨fun hS => hnew (.inl (h.trans hS)), h⟩, And.right⟩ rfl rfl

/-- The table holds the nonzero numbers of columns, each at the first position that has it. -/
theorem position_syndromeTable (n : Nat) (H : BitMatrix) (S : Nat) :
    SyndromeTable.position (syndromeTable n H) S
      = if S = 0 then none else (List.range n).find? (fun c => bitsNumber (matrixColumn H c) == S) := by
  induction n with
  | zero => simp [syndromeTable, SyndromeTable.position]
  | succ n ih =>
    rw [syndromeTable_succ, position_addColumn, ih, List.range_succ, List.find?_append, List.find?_singleton]
    by_cases hS : S = 0
    · simp [hS]
    · simp [hS]

theorem position_syndromeTable_eq_some_iff (n : Nat) (H : BitMatrix) (S pos : Nat) :
    SyndromeTable.position (syndromeTable n H) S = some pos ↔
      S ≠ 0 ∧ pos < n ∧ bitsNumber (matrixColumn H pos) = S ∧ ∀ c < pos, bitsNumber (matrixColumn H c) ≠ S := by
  rw [position_syndromeTable]
  by_cases hS : S = 0
  · simp [hS]
  · rw [if_neg hS, List.find?_range_eq_some]
    simp only [hS, ne_eq, not_false_eq_true, true_and, beq_iff_eq, List.mem_range, Bool.not_eq_true', beq_eq_false_iff_ne]
    tauto

theorem position_syndromeTable_eq_none {n : Nat} {H : BitMatrix} {S : Nat} (h : ∀ c < n, bitsNumber (matrixColumn H c) ≠ S) :
    SyndromeTable.position (syndromeTable n H) S = none := by
  refine Option.eq_none_iff_forall_ne_some.2 fun pos hpos => ?_
  obtain ⟨-, hlt, hcol, -⟩ := (position_syndromeTable_eq_some_iff n H S pos).1 hpos
  exact h pos hlt hcol

/-! ### The number of table entries -/

/-- No number enters the table twice. -/
theorem syndromeTable_keys_nodup (n : Nat) (H : BitMatrix) : ((syndromeTable n H).map Prod.fst).Nodup := by
  induction n with
  | zero => exact List.nodup_nil
  | succ n ih =>
    rw [syndromeTable_succ, addColumn]
    split
    · exact ih
    · rename_i hnew
      rw [List.map_append, List.map_singleton, ← List.concat_eq_append]
      exact ih.concat fun hmem => hnew (.inr (mem_keys_iff.1 hmem))

theorem mem_syndromeTable_keys {n : Nat} {H : BitMatrix} {S : Nat} :
    S ∈ (syndromeTable n H).map Prod.fst ↔ S ≠ 0 ∧ ∃ c < n, bitsNumber (matrixColumn H c) = S := by
  rw [mem_keys_iff, position_syndromeTable]
  by_cases hS : S = 0
  · simp [hS]
  · simp [hS, List.find?_isSome]

/-- The numbers of the columns of H (R605). -/
def columnList (n : Nat) (H : BitMatrix) : List Nat := (List.range n).map (fun c => bitsNumber (matrixColumn H c))

/-- The table has one entry per distinct nonzero column. -/
theorem syndromeTable_length (n : Nat) (H : BitMatrix) :
    (syndromeTable n H).length = ((columnList n H).filter (fun S => S != 0)).dedup.length := by
  rw [← List.length_map (f := Prod.fst)]
  refine List.Perm.length_eq ((List.perm_ext_iff_of_nodup (syndromeTable_keys_nodup n H) (List.nodup_dedup _)).2 fun S => ?_)
  rw [mem_syndromeTable_keys]
  simp [columnList, and_comm]

/-- The columns of a generated H, by their numbers (R604). -/
theorem columnList_generateCode {n k : Nat} (hk : k ≤ n) (h : k ≤ 2 ^ (n - k) - 1 - (n - k)) :
    columnList n (generateCode n k).H = columnNumbers n k := by
  refine List.ext_getElem (by simp [columnList, columnNumbers_length hk h]) fun c _ hc => ?_
  simp only [columnList, List.getElem_map, List.getElem_range]
  exact bitsNumber_matrixColumn_generateCode hc

theorem syndromeTable_generateCode_length {n k : Nat} (hk : k ≤ n) (h : k ≤ 2 ^ (n - k) - 1 - (n - k)) :
    (syndromeTable n (generateCode n k).H).length = n := by
  have hall : (columnNumbers n k).filter (fun S => S != 0) = columnNumbers n k :=
    List.filter_eq_self.2 fun S hS => bne_iff_ne.2 (of_mem_columnNumbers hS).1
  rw [syndromeTable_length, columnList_generateCode hk h, hall, (columnNumbers_nodup n k).dedup, columnNumbers_length hk h]

/-- Settles O54: the table is built position by position, and a generated H has distinct nonzero columns. -/
theorem syndromeTableKeepsTheFirstWriter : Obligations.SyndromeTableKeepsTheFirstWriter :=
  ⟨position_syndromeTable_eq_some_iff, fun _ _ _ hkn h => syndromeTable_generateCode_length hkn.le h⟩

/-! ### Block decode (R607) -/

section
variable {n k : Nat} {H : BitMatrix} {r : Bits}

theorem decodeBlock_of_zero (T : SyndromeTable) (h : syndromeNumber H r = 0) :
    decodeBlock H T k r
      = { message := r.take k, corrected := 0, position := noPosition, syndrome := syndromeNumber H r
          uncorrectable := false } :=
  if_pos h

/-- A syndrome that is the number of a column: the first such position is inverted. -/
theorem decodeBlock_of_column {pos : Nat} (hS : syndromeNumber H r ≠ 0) (hpos : pos < n)
    (hcol : bitsNumber (matrixColumn H pos) = syndromeNumber H r)
    (hfirst : ∀ c < pos, bitsNumber (matrixColumn H c) ≠ syndromeNumber H r) :
    decodeBlock H (syndromeTable n H) k r
      = { message := (flipBit r pos).take k, corrected := 1, position := result pos, syndrome := syndromeNumber H r
          uncorrectable := false } := by
  unfold decodeBlock
  dsimp only
  rw [if_neg hS, (position_syndromeTable_eq_some_iff n H _ pos).2 ⟨hS, hpos, hcol, hfirst⟩]

/-- Any other syndrome: nothing is inverted. -/
theorem decodeBlock_of_absent (hS : syndromeNumber H r ≠ 0)
    (habsent : ∀ c < n, bitsNumber (matrixColumn H c) ≠ syndromeNumber H r) :
    decodeBlock H (syndromeTable n H) k r
      = { message := r.take k, corrected := 0, position := noPosition, syndrome := syndromeNumber H r
          uncorrectable := true } := by
  unfold decodeBlock
  dsimp only
  rw [if_neg hS, position_syndromeTable_eq_none habsent]

end

/-! ### The decoding laws of a generated code (R608 (b), (c)) -/

@[simp] theorem flipBit_length (r : Bits) (q : Nat) : (flipBit r q).length = r.length := by simp [flipBit]

theorem flipBit_flipBit (r : Bits) (q : Nat) : flipBit (flipBit r q) q = r := by
  by_cases hq : q < r.length
  · simp [flipBit, hq]
  · have hout (w : Bits) (hw : w.length = r.length) : flipBit w q = w := List.set_eq_of_length_le (by omega)
    rw [hout _ (flipBit_length r q), hout r rfl]

theorem syndromeNumber_eq_zero {H : BitMatrix} {r : Bits} (h : ∀ row ∈ H, gf2Dot row r = false) : syndromeNumber H r = 0 := by
  rw [syndromeNumber, syndromeBits, List.map_congr_left h, bitsNumber_map_false]

/-- One wrong bit in a word of syndrome 0 gives the number of its column. -/
theorem syndromeNumber_flipBit {H : BitMatrix} {r : Bits} {q : Nat} (h : ∀ row ∈ H, gf2Dot row r = false) (hq : q < r.length) :
    syndromeNumber H (flipBit r q) = bitsNumber (matrixColumn H q) := by
  refine congrArg bitsNumber (List.map_congr_left fun row hrow => ?_)
  rw [gf2Dot_flipBit row hq, h row hrow, Bool.false_xor]

section
variable {n k : Nat} (hkn : k ≤ n)
include hkn

/-- The encoder of a generated code is systematic (R606). -/
theorem encodeBlock_generateCode_take {m : Bits} (hm : m.length = k) : (encodeBlock n (generateCode n k).G m).take k = m := by
  obtain ⟨hlen, hrows⟩ := generateCode_G_shape hkn
  have hw := encodeBlock_length hrows m
  refine List.ext_getElem (by rw [List.length_take, hw, hm, Nat.min_eq_left hkn]) fun c _ hc => ?_
  have hck : c < k := by omega
  have hcolumn : matrixColumn (generateCode n k).G c = unitBits k c := by
    refine List.ext_getElem (by simp [hlen]) fun j hj hj' => ?_
    rw [unitBits_length] at hj'
    rw [← List.getD_eq_getElem _ false, ← List.getD_eq_getElem _ false, matrixColumn_getD, generateCode_G_left hj' hck,
      unitBits_getD hj']
  rw [List.getElem_take, ← List.getD_eq_getElem _ false, encodeBlock_getD hrows m (by omega), hcolumn, gf2Dot_unitBits m hck,
    List.getD_eq_getElem]

variable (h : k ≤ 2 ^ (n - k) - 1 - (n - k))
include h

/-- Every row of H annihilates every codeword. -/
theorem gf2Dot_encodeBlock_generateCode (m : Bits) :
    ∀ row ∈ (generateCode n k).H, gf2Dot row (encodeBlock n (generateCode n k).G m) = false := by
  obtain ⟨-, hrows⟩ := generateCode_G_shape hkn
  intro row hrow
  have hzero : (generateCode n k).G.map (gf2Dot row) = List.replicate (generateCode n k).G.length false :=
    List.map_eq_replicate_iff.2 (gf2Dot_systematic (matrixP_length _ _) (matrixP_pColumns_row_length h) row hrow)
  rw [gf2Dot_encodeBlock hrows, hzero, gf2Dot_replicate_false]

theorem matrixColumn_generateCode_ne_zero {c : Nat} (hc : c < n) : bitsNumber (matrixColumn (generateCode n k).H c) ≠ 0 := by
  have hc' : c < (columnNumbers n k).length := by rwa [columnNumbers_length hkn h]
  rw [bitsNumber_matrixColumn_generateCode hc']
  exact (of_mem_columnNumbers (List.getElem_mem hc')).1

theorem matrixColumn_generateCode_injective {c d : Nat} (hc : c < n) (hd : d < n)
    (hcd : bitsNumber (matrixColumn (generateCode n k).H c) = bitsNumber (matrixColumn (generateCode n k).H d)) : c = d := by
  rw [← columnNumbers_length hkn h] at hc hd
  rw [bitsNumber_matrixColumn_generateCode hc, bitsNumber_matrixColumn_generateCode hd] at hcd
  exact (columnNumbers_nodup n k).getElem_inj_iff.1 hcd

end

/-- Settles O53: a codeword has syndrome 0, and with one wrong bit it has the number of that bit's column, which no other column
has. -/
theorem generatedCodeCorrectsEverySingleError : Obligations.GeneratedCodeCorrectsEverySingleError := by
  intro n k _ hkn h C M hM
  obtain ⟨-, hrows⟩ := generateCode_G_shape hkn.le
  have hzero := gf2Dot_encodeBlock_generateCode hkn.le h M
  have hmessage := encodeBlock_generateCode_take hkn.le hM
  refine ⟨?_, fun q hq => ?_⟩
  · have hS := syndromeNumber_eq_zero hzero
    rw [decodeBlock_of_zero _ hS, hS, hmessage]
    rfl
  · have hS := syndromeNumber_flipBit hzero (q := q) (by rwa [encodeBlock_length hrows])
    have hfirst : ∀ c < q, bitsNumber (matrixColumn C.H c) ≠ bitsNumber (matrixColumn C.H q) := fun c hc heq =>
      hc.ne (matrixColumn_generateCode_injective hkn.le h (hc.trans hq) hq heq)
    rw [decodeBlock_of_column (hS ▸ matrixColumn_generateCode_ne_zero hkn.le h hq) hq hS.symm (hS ▸ hfirst), hS,
      flipBit_flipBit, hmessage]

end Sys2Proof.Machine
end

section
/-! SUPPORT. The linear code commands (43_linear_code.md R610 to R618): the states their results complete in, and what each one
sets, stores and reports. -/

namespace Sys2Proof.Machine

/-! ### LCGEN and LCLOADH (R600, R610, R611) -/

/-- Steps 1 and 2 of R600 pass. -/
theorem codeSizeError_none {p : Params} {n k : Nat} (h : ¬(k = 0 ∨ n ≤ k) ∧ n ≤ p.nMax ∧ n - k ≤ p.pMax) :
    codeSizeError p n k = none := by
  obtain ⟨hk, hn, hp⟩ := h
  exact (if_neg hk).trans (if_neg (by omega))

/-- A command that begins with steps 1 and 2 of R600 fails with the error they raise. -/
theorem exec_sizeErrors {i : Instr} {s : State} {n k : Nat}
    (h : ∀ c, codeSizeError s.params n k = some c → resultOf i s = .error c) :
    (k = 0 ∨ n ≤ k → exec i s = .next (s.failedWith 1#4)) ∧
    (¬(k = 0 ∨ n ≤ k) → s.params.nMax < n ∨ s.params.pMax < n - k → exec i s = .next (s.failedWith 6#4)) :=
  ⟨fun hbad => exec_error (h .invalidArgument (if_pos hbad)),
    fun hok hrange => exec_error (h .range ((if_neg hok).trans (if_pos hrange)))⟩

/-- A command that sets the linear code (R133). -/
theorem exec_setCode {i : Instr} {s : State} {c : LinearCode} {g : Bool} (h : resultOf i s = .ok (setCode c g)) :
    exec i s = .next
      { s.succeededWith s.mem (result (c.n - c.k)) (result (syndromeTable c.n c.H).length) with
        code := c, codeValid := true, gValid := g, codeChanges := s.codeChanges + 1 } := by
  rw [exec_ok h]
  simp [State.commit, State.finish, State.succeededWith, setCode]

theorem lcgenResult_of_sizeError {s : State} {c : ErrorCode} (h : codeSizeError s.params s.opAux s.opAux2 = some c) :
    lcgenResult s = .error c := by
  simp only [lcgenResult, h]

theorem lcgenResult_of_sizes {s : State} (h : codeSizeError s.params s.opAux s.opAux2 = none) :
    lcgenResult s
      = if 2 ^ (s.opAux - s.opAux2) - 1 - (s.opAux - s.opAux2) < s.opAux2 then .error .invalidArgument
        else .ok (setCode (generateCode s.opAux s.opAux2) true) := by
  simp only [lcgenResult, h]

/-- Settles O42: each check of R600 in its order, and a generated code has n table entries. -/
theorem lcgenBuildsTheCode : Obligations.LcgenBuildsTheCode := by
  intro s _ n k sizesOk
  have hresult (h : sizesOk) := lcgenResult_of_sizes (codeSizeError_none h)
  obtain ⟨hinvalid, hrange⟩ := exec_sizeErrors (i := .lcgen) fun _ => lcgenResult_of_sizeError
  refine ⟨hinvalid, hrange, fun h hfew => exec_error (c := .invalidArgument) ((hresult h).trans (if_pos hfew)), fun h hcols => ?_⟩
  have hexec := exec_setCode (i := .lcgen) ((hresult h).trans (if_neg hcols.not_gt))
  have hkn : k ≤ n := by
    obtain ⟨hsizes, -, -⟩ := h
    omega
  have hentries : (syndromeTable (generateCode n k).n (generateCode n k).H).length = n :=
    syndromeTable_generateCode_length hkn hcols
  rw [hentries] at hexec
  exact ⟨_, hexec, rfl, BitVec.ofNat_toNat 32 s.latch.aux, BitVec.ofNat_toNat 32 s.latch.aux2⟩

theorem lcloadhResult_of_sizeError {s : State} {c : ErrorCode} (h : codeSizeError s.params s.opAux s.opAux2 = some c) :
    lcloadhResult s = .error c := by
  simp only [lcloadhResult, h]

theorem lcloadhResult_of_sizes {s : State} (h : codeSizeError s.params s.opAux s.opAux2 = none) :
    lcloadhResult s
      = if s.outOfRange s.opSrc (ceil8 ((s.opAux - s.opAux2) * s.opAux)) then .error .range
        else .ok (setCode (s.loadedCode s.opAux s.opAux2 (s.bitsRead s.opSrc ((s.opAux - s.opAux2) * s.opAux))) false) := by
  simp only [lcloadhResult, h]

/-- Settles O43: each check in its order, H is the matrix of the bits read, and its table has one entry per distinct nonzero
column. -/
theorem lcloadhImportsTheParityCheck : Obligations.LcloadhImportsTheParityCheck := by
  intro s n k b sizesOk
  have hresult (h : sizesOk) := lcloadhResult_of_sizes (codeSizeError_none h)
  obtain ⟨hinvalid, hrange⟩ := exec_sizeErrors (i := .lcloadh) fun _ => lcloadhResult_of_sizeError
  refine ⟨hinvalid, hrange, fun h hsrc => exec_error (c := .range) ((hresult h).trans (if_pos hsrc)), fun h hsrc => ?_⟩
  have hexec := exec_setCode (i := .lcloadh) ((hresult h).trans (if_neg hsrc.not_gt))
  exact ⟨_, hexec, rfl, rfl, rfl, matrixOfBits_length _ _ _, fun i hi c hc => matrixEntry_matrixOfBits b hi hc,
    congrArg (BitVec.ofNat 32) (syndromeTable_length n _)⟩

/-! ### LCSTOREH and LCSTOREG (R612, R613) -/

/-- A command that stores a matrix row by row (20_memory.md R210). -/
theorem exec_storeMatrix {i : Instr} {s : State} {M : BitMatrix} {r c : Nat} (hlen : M.length = r)
    (hrows : ∀ row ∈ M, row.length = c)
    (h : resultOf i s = if s.outOfRange s.opDst (ceil8 (r * c)) then .error .range
      else .ok { writes := [bitsWrite s.opDst (matrixBits M)], res0 := result (r * c), res1 := 0#32 }) :
    (s.params.dmemSize < s.opDst + ceil8 (r * c) → exec i s = .next (s.failedWith 6#4)) ∧
    (s.opDst + ceil8 (r * c) ≤ s.params.dmemSize →
      ∃ t b, exec i s = .next t ∧ t = s.succeededWith t.mem (result (r * c)) 0#32
        ∧ b.length = r * c ∧ (∀ j < r, ∀ x < c, b.getD (j * c + x) false = matrixEntry M j x)
        ∧ s.storedFrom t s.opDst (pack b)) := by
  obtain ⟨hrange, hok⟩ := exec_checked_store h
  refine ⟨hrange, fun hdst => ?_⟩
  obtain ⟨t, hexec, ht, hstored⟩ := hok hdst
  exact ⟨t, matrixBits M, hexec, ht, by rw [matrixBits_length hrows, hlen], fun j _ x => matrixBits_getD hrows j, hstored⟩

theorem lcstorehResult_of_valid {s : State} (hv : s.codeValid = true) :
    lcstorehResult s
      = if s.outOfRange s.opDst (ceil8 ((s.code.n - s.code.k) * s.code.n)) then .error .range
        else .ok { writes := [bitsWrite s.opDst (matrixBits s.code.H)], res0 := result ((s.code.n - s.code.k) * s.code.n)
                   res1 := 0#32 } :=
  if_neg (ne_false_of_eq_true hv)

/-- Settles O44: a valid code has its shape. -/
theorem lcstorehExportsTheParityCheck : Obligations.LcstorehExportsTheParityCheck := by
  intro s hc n p
  have hstore (hv : s.codeValid = true) :=
    have ⟨_, _, _, _, hlen, hrows⟩ := hc.shapeOk hv
    exec_storeMatrix (i := .lcstoreh) hlen hrows (lcstorehResult_of_valid hv)
  exact ⟨fun hv => exec_error (c := .notConfigured) (if_pos hv), fun hv => (hstore hv).1, fun hv => (hstore hv).2⟩

/-- With g_valid the current code is a generated one (10_state.md R133). -/
theorem State.codeOk.generated {s : State} (hc : s.codeOk) (hg : s.gValid = true) :
    1 ≤ s.code.k ∧ s.code.k < s.code.n ∧ s.code = generateCode s.code.n s.code.k := by
  have ⟨_, hgen, _⟩ := hc
  obtain ⟨hv, hcode, -⟩ := hgen hg
  obtain ⟨hk, hkn, -⟩ := hc.shapeOk hv
  exact ⟨hk, hkn, hcode⟩

theorem State.codeOk.G_shape {s : State} (hc : s.codeOk) (hg : s.gValid = true) :
    s.code.G.length = s.code.k ∧ ∀ row ∈ s.code.G, row.length = s.code.n := by
  obtain ⟨-, hkn, hcode⟩ := hc.generated hg
  rw [hcode]
  exact generateCode_G_shape hkn.le

/-- Settles O45: a valid G has its shape. -/
theorem lcstoregExportsTheGenerator : Obligations.LcstoregExportsTheGenerator := by
  intro s hc n k
  have hstore (hg : s.gValid = true) :=
    have ⟨hlen, hrows⟩ := hc.G_shape hg
    exec_storeMatrix (i := .lcstoreg) hlen hrows (if_neg (ne_false_of_eq_true hg))
  exact ⟨fun hg => exec_error (c := .notConfigured) (if_pos hg), fun hg => (hstore hg).1, fun hg => (hstore hg).2⟩

/-! ### The round trip of H (R608 (d)) -/

/-- What LCSTOREH did, where it ended with no error (R612). -/
theorem exec_lcstoreh_ok {s t : State} (hv : s.codeValid = true) (h : exec .lcstoreh s = .next t) (herr : t.err = false) :
    s.opDst + ceil8 ((s.code.n - s.code.k) * s.code.n) ≤ s.params.dmemSize ∧
      t = s.succeededWith (Memory.write s.mem s.opDst (pack (matrixBits s.code.H)))
        (result ((s.code.n - s.code.k) * s.code.n)) 0#32 := by
  have hresult := lcstorehResult_of_valid hv
  have hdst : s.opDst + ceil8 ((s.code.n - s.code.k) * s.code.n) ≤ s.params.dmemSize := not_lt.1 fun hr => by
    obtain rfl := Host.Outcome.next.inj ((exec_error (i := .lcstoreh) (hresult.trans (if_pos hr))).symm.trans h)
    cases herr
  exact ⟨hdst, Host.Outcome.next.inj (h.symm.trans (exec_ok_plain (i := .lcstoreh) (hresult.trans (if_neg hdst.not_gt))))⟩

/-- LCLOADH where the row-major form of a matrix of the given size stands at its source (R611). -/
theorem exec_lcloadh_of_stored {v : State} {M : BitMatrix} {m : List Host.Cell} {n k : Nat} (hn : v.opAux = n) (hk : v.opAux2 = k)
    (hsizes : ¬(k = 0 ∨ n ≤ k) ∧ n ≤ v.params.nMax ∧ n - k ≤ v.params.pMax)
    (hlen : M.length = n - k) (hrows : ∀ row ∈ M, row.length = n) (hsrc : v.opSrc + ceil8 ((n - k) * n) ≤ v.params.dmemSize)
    (hmem : v.mem = Memory.write m v.opSrc (pack (matrixBits M))) :
    ∃ u, exec .lcloadh v = .next u ∧ u.err = v.err ∧ u.codeValid = true ∧ u.gValid = false ∧
      u.code.n = n ∧ u.code.k = k ∧ u.code.H = M := by
  subst hn hk
  have hbits : v.bitsRead v.opSrc ((v.opAux - v.opAux2) * v.opAux) = matrixBits M := by
    rw [← hlen, ← matrixBits_length hrows]
    exact State.bitsRead_of_bitsWrite hmem
  refine ⟨_, exec_setCode (i := .lcloadh) ((lcloadhResult_of_sizes (codeSizeError_none hsizes)).trans (if_neg hsrc.not_gt)),
    rfl, rfl, rfl, rfl, rfl, ?_⟩
  change matrixOfBits _ _ _ = _
  rw [hbits, ← hlen, matrixOfBits_matrixBits hrows]

/-- Settles O55: LCLOADH reads the row-major form that LCSTOREH wrote, and H, n and k determine the decoding. -/
theorem reimportedParityCheckDecodesAlike : Obligations.ReimportedParityCheckDecodesAlike := by
  rintro s t ⟨hlegal, -, -, -, hc⟩ hv hserr hexec hterr
  obtain ⟨hk, hkn, hn, hp, hlen, hrows⟩ := hc.shapeOk hv
  obtain ⟨hdst, rfl⟩ := exec_lcstoreh_ok hv hexec hterr
  have hmax : s.params.nMax ≤ 65535 := by
    simp only [Params.legal, Bool.and_eq_true, decide_eq_true_eq] at hlegal
    omega
  have hsmall : ∀ v < 2 ^ 32, (BitVec.ofNat 32 v).toNat = v := fun _ => Nat.mod_eq_of_lt
  obtain ⟨u, hu, herr, huv, hug, hun, huk, huH⟩ := exec_lcloadh_of_stored
    (v := { s.succeededWith (Memory.write s.mem s.opDst (pack (matrixBits s.code.H)))
              (result ((s.code.n - s.code.k) * s.code.n)) 0#32 with
            latch := { s.latch with src := s.latch.dst, aux := BitVec.ofNat 32 s.code.n, aux2 := BitVec.ofNat 32 s.code.k } })
    (hsmall _ (by omega)) (hsmall _ (by omega)) ⟨by omega, hn, hp⟩ hlen hrows hdst rfl
  refine ⟨u, hu, herr.trans hserr, huv, hug, hun, huk, huH, fun r => ?_⟩
  rw [State.decodeWord, State.decodeWord, hun, huk, huH]

/-! ### LCENC and LCENCS (R614, R616) -/

/-- Settles O46: G is a generated one, whose encoder is systematic. -/
theorem lcencEncodesOneMessage : Obligations.LcencEncodesOneMessage := by
  intro s hc n k m
  have hvalid (hg : s.gValid = true) : resultOf .lcenc s = _ := if_neg (ne_false_of_eq_true hg)
  have hpassed (hg : s.gValid = true) (hlen : s.opLen = k) := (hvalid hg).trans (if_neg (not_not.2 hlen))
  refine ⟨fun hg => exec_error (c := .notConfigured) (if_pos hg),
    fun hg hlen => exec_error (c := .invalidArgument) ((hvalid hg).trans (if_pos hlen)),
    fun hg hlen hrange => exec_error (c := .range) ((hpassed hg hlen).trans (checks_eq_error hrange)),
    fun hg hlen hsrc hdst => ?_⟩
  obtain ⟨t, hexec, ht, hstored⟩ :=
    (exec_checked_store (i := .lcenc) ((hpassed hg hlen).trans (if_neg hsrc.not_gt))).2 hdst
  obtain ⟨-, hkn, hcode⟩ := hc.generated hg
  obtain ⟨hG, hrows⟩ := hc.G_shape hg
  have hm : m.length = k := s.bitsRead_length _ _
  have htake : (encodeBlock n s.code.G m).take k = m := by
    rw [hcode]
    exact encodeBlock_generateCode_take hkn.le hm
  exact ⟨t, encodeBlock n s.code.G m, hexec, ht, encodeBlock_length hrows m, htake,
    fun c hc' => encodeBlock_getD_eq_foldl hrows hG hm hc', hstored⟩

/-- The blocks of a stream, each where it stands. -/
theorem blocks_eq (count size : Nat) (b : Bits) :
    blocks count size b = (List.range count).map (fun blk => (b.drop (blk * size)).take size) := by
  induction count generalizing b with
  | zero => rfl
  | succ count ih =>
    rw [blocks, ih, List.range_succ_eq_map, List.map_cons, List.map_map, Nat.zero_mul, List.drop_zero]
    refine congrArg _ (List.map_congr_left fun blk _ => ?_)
    rw [Function.comp_apply, List.drop_drop, Nat.succ_mul, Nat.add_comm]

/-- Bit `j` of a block of a stream. -/
theorem block_getD (b : Bits) (start : Nat) {size j : Nat} (h : j < size) :
    ((b.drop start).take size).getD j false = b.getD (start + j) false := by
  simp [List.getD_eq_getElem?_getD, List.getElem?_take_of_lt h]

/-- A block that ends inside the stream is a whole one. -/
theorem block_length {b : Bits} {blk size : Nat} (h : blk < b.length / size) :
    ((b.drop (blk * size)).take size).length = size := by
  have hend : (blk + 1) * size ≤ b.length := (Nat.mul_le_mul_right size h).trans (Nat.div_mul_le_self _ _)
  rw [Nat.succ_mul] at hend
  rw [List.length_take, List.length_drop]
  omega

/-- The codewords of a stream are the rows of a matrix, and the stream is its row-major form (R616). -/
theorem State.encodeStream_eq (s : State) (b : Bits) :
    s.encodeStream b = matrixBits ((List.range (b.length / s.code.k)).map
      (fun blk => encodeBlock s.code.n s.code.G ((b.drop (blk * s.code.k)).take s.code.k))) := by
  rw [State.encodeStream, blocks_eq, List.flatMap_map, List.flatMap_def]
  rfl

section
variable {s : State} (hrows : ∀ row ∈ s.code.G, row.length = s.code.n) (b : Bits)
include hrows

theorem State.codewords_row_length (count : Nat) : ∀ row ∈ (List.range count).map
    (fun blk => encodeBlock s.code.n s.code.G ((b.drop (blk * s.code.k)).take s.code.k)), row.length = s.code.n :=
  List.forall_mem_map.2 fun _ _ => encodeBlock_length hrows _

theorem State.encodeStream_length : (s.encodeStream b).length = b.length / s.code.k * s.code.n := by
  rw [State.encodeStream_eq, matrixBits_length (State.codewords_row_length hrows b _), List.length_map, List.length_range]

/-- Bit `c` of codeword `blk` of a stream, as the sum of R606. -/
theorem State.encodeStream_getD (hlen : s.code.G.length = s.code.k) {blk c : Nat} (hblk : blk < b.length / s.code.k)
    (hc : c < s.code.n) :
    (s.encodeStream b).getD (blk * s.code.n + c) false
      = (List.range s.code.k).foldl
          (fun acc j => xor acc (b.getD (blk * s.code.k + j) false && matrixEntry s.code.G j c)) false := by
  rw [State.encodeStream_eq, matrixBits_getD (State.codewords_row_length hrows b _) blk hc, matrixEntry_map_range _ hblk,
    encodeBlock_getD_eq_foldl hrows hlen (block_length hblk) hc]
  refine List.foldl_ext _ _ _ fun acc j hj => ?_
  rw [block_getD b _ (List.mem_range.1 hj)]

end

/-- Settles O48: the stream is the row-major form of its codewords. -/
theorem lcencsEncodesAStream : Obligations.LcencsEncodesAStream := by
  intro s hc n k b nblk sizesOk
  have hvalid (hg : s.gValid = true) : resultOf .lcencs s = _ := if_neg (ne_false_of_eq_true hg)
  have hpassed (h : sizesOk) := (hvalid h.1).trans (if_neg (not_not.2 h.2))
  refine ⟨fun hg => exec_error (c := .notConfigured) (if_pos hg),
    fun hg hlen => exec_error (c := .invalidArgument) ((hvalid hg).trans (if_pos hlen)),
    fun h hrange => exec_error (c := .range) ((hpassed h).trans (checks_eq_error hrange)),
    fun h hsrc hdst => ?_⟩
  obtain ⟨t, hexec, ht, hstored⟩ :=
    (exec_checked_store (i := .lcencs) ((hpassed h).trans (if_neg hsrc.not_gt))).2 hdst
  obtain ⟨hG, hrows⟩ := hc.G_shape h.1
  have hb : b.length / k = nblk := congrArg (· / k) (s.bitsRead_length _ _)
  refine ⟨t, s.encodeStream b, hexec, ht, ?_, fun blk hblk c => State.encodeStream_getD hrows b hG (hb ▸ hblk), hstored⟩
  rw [State.encodeStream_length hrows b, hb]

/-! ### Decoding commands (R615, R617, R618) -/

/-- A command that reports a syndrome. -/
theorem exec_ok_syndrome {i : Instr} {s : State} {ws : List (Nat × List Byte)} {r0 r1 v : Word} {unc : Bool}
    (h : resultOf i s = .ok { writes := ws, res0 := r0, res1 := r1, syndrome := some (v, unc) }) :
    exec i s = .next { s.succeededWith (Memory.writeAll s.mem ws) r0 r1 with synd := v, unc := unc } := by
  rw [exec_ok h]
  simp [State.commit, State.finish, State.succeededWith]

/-- A decoder, whose last step checks the range at dst and stores there. -/
theorem exec_checked_decode {i : Instr} {s : State} {len : Nat} {bs : List Byte} {r0 r1 v : Word} {unc : Bool}
    (h : resultOf i s = if s.outOfRange s.opDst len then .error .range
      else .ok { writes := [(s.opDst, bs)], res0 := r0, res1 := r1, syndrome := some (v, unc) })
    (hdst : s.opDst + len ≤ s.params.dmemSize) :
    ∃ t, exec i s = .next t ∧ t = { s.succeededWith t.mem r0 r1 with synd := v, unc := unc } ∧ s.storedFrom t s.opDst bs :=
  ⟨_, exec_ok_syndrome (h.trans (if_neg hdst.not_gt)), rfl, storedFrom_write rfl rfl⟩

/-- Settles O47: each case of R607 is one of block decode. -/
theorem lcdecDecodesOneWord : Obligations.LcdecDecodesOneWord := by
  intro s n k r S column sizesOk decodesTo
  have hvalid (hv : s.codeValid = true) : resultOf .lcdec s = _ := if_neg (ne_false_of_eq_true hv)
  have hpassed (hv : s.codeValid = true) (hlen : s.opLen = n) := (hvalid hv).trans (if_neg (not_not.2 hlen))
  have hdecodes (hok : sizesOk) (d : DecodeResult) (hd : s.decodeWord r = d) :
      decodesTo d.message (result d.corrected) d.position d.uncorrectable := by
    obtain ⟨hv, hlen, hsrc, hdst⟩ := hok
    subst hd
    have hS : S = (s.decodeWord r).syndrome := (s.decodeWord_syndrome r).symm
    simp only [decodesTo, hS]
    exact exec_checked_decode (i := .lcdec) ((hpassed hv hlen).trans (if_neg hsrc.not_gt)) hdst
  exact ⟨fun hv => exec_error (c := .notConfigured) (if_pos hv),
    fun hv hlen => exec_error (c := .invalidArgument) ((hvalid hv).trans (if_pos hlen)),
    fun hv hlen hrange => exec_error (c := .range) ((hpassed hv hlen).trans (checks_eq_error hrange)),
    fun hok hS => hdecodes hok _ (decodeBlock_of_zero _ hS),
    fun pos hok hS hpos hcol hfirst => hdecodes hok _ (decodeBlock_of_column hS hpos hcol hfirst),
    fun hok hS habsent => hdecodes hok _ (decodeBlock_of_absent hS habsent)⟩

/-- Settles O50: LCSYN reports what block decode finds. -/
theorem lcsynReportsTheSyndrome : Obligations.LcsynReportsTheSyndrome := by
  intro s n r S column sizesOk reports
  have hvalid (hv : s.codeValid = true) : resultOf .lcsyn s = _ := if_neg (ne_false_of_eq_true hv)
  have hpassed (hv : s.codeValid = true) (hlen : s.opLen = n) := (hvalid hv).trans (if_neg (not_not.2 hlen))
  have hreports (hok : sizesOk) (d : DecodeResult) (hd : s.decodeWord r = d) : reports d.position d.uncorrectable := by
    obtain ⟨hv, hlen, hsrc⟩ := hok
    subst hd
    have hS : S = (s.decodeWord r).syndrome := (s.decodeWord_syndrome r).symm
    simp only [reports, hS]
    exact exec_ok_syndrome (i := .lcsyn) ((hpassed hv hlen).trans (if_neg hsrc.not_gt))
  exact ⟨fun hv => exec_error (c := .notConfigured) (if_pos hv),
    fun hv hlen => exec_error (c := .invalidArgument) ((hvalid hv).trans (if_pos hlen)),
    fun hv hlen hsrc => exec_error (c := .range) ((hpassed hv hlen).trans (if_pos hsrc)),
    fun hok hS => hreports hok _ (decodeBlock_of_zero _ hS),
    fun pos hok hS hpos hcol hfirst => hreports hok _ (decodeBlock_of_column hS hpos hcol hfirst),
    fun hok hS habsent => hreports hok _ (decodeBlock_of_absent hS habsent)⟩

/-- The words of a stream are decoded where they stand (R617). -/
theorem State.decodeStream_eq (s : State) (b : Bits) :
    s.decodeStream b
      = (List.range (b.length / s.code.n)).map (fun blk => s.decodeWord ((b.drop (blk * s.code.n)).take s.code.n)) := by
  rw [State.decodeStream, blocks_eq, List.map_map]
  rfl

/-- The syndrome of the last of the results, 0 with no words (R617). -/
theorem lastSyndrome_map_range (word : Nat → DecodeResult) (count : Nat) :
    ((((List.range count).map word).getLast?).map (fun d => d.syndrome)).getD 0
      = if count = 0 then 0 else (word (count - 1)).syndrome := by
  cases count with
  | zero => rfl
  | succ count => simp [List.range_succ]

/-- Settles O49: the stream's results are those of its words. -/
theorem lcdecsDecodesAStream : Obligations.LcdecsDecodesAStream := by
  intro s n k b nblk word sizesOk uncs
  have hvalid (hv : s.codeValid = true) : resultOf .lcdecs s = _ := if_neg (ne_false_of_eq_true hv)
  have hpassed (h : sizesOk) := (hvalid h.1).trans (if_neg (not_not.2 h.2))
  refine ⟨fun hv => exec_error (c := .notConfigured) (if_pos hv),
    fun hv hlen => exec_error (c := .invalidArgument) ((hvalid hv).trans (if_pos hlen)),
    fun h hrange => exec_error (c := .range) ((hpassed h).trans (checks_eq_error hrange)),
    fun h hsrc hdst => ?_⟩
  have hb : b.length / n = nblk := congrArg (· / n) (s.bitsRead_length _ _)
  have hstream : s.decodeStream b = (List.range nblk).map word := by
    rw [← hb]
    exact s.decodeStream_eq b
  have hresult := exec_checked_decode (i := .lcdecs) ((hpassed h).trans (if_neg hsrc.not_gt)) hdst
  rw [hstream, lastSyndrome_map_range, List.countP_map, List.map_map, List.flatMap_map] at hresult
  exact hresult

end Sys2Proof.Machine
end

section
/-! SUPPORT. The control family (44_control.md R700): NOP. -/

namespace Sys2Proof.Machine

/-- NOP has no check and no write (R700). -/
@[simp] theorem resultOf_nop (s : State) : resultOf .nop s = .ok { writes := [], res0 := 0#32, res1 := 0#32 } := rfl

/-- Settles O25: NOP's result is a success with no writes, so its completion keeps DMEM. -/
theorem nopCompletes : Obligations.NopCompletes := by
  intro s
  have h := exec_ok_plain (resultOf_nop s)
  rwa [Memory.writeAll_nil] at h

end Sys2Proof.Machine
end

section
/-! SUPPORT. Errors and IRQ (60_exceptions.md R801 to R804, R810, R811, R820): the codes a command can end with, said once for all
commands, the completion of an illegal word, and what completion does to IRQ. -/

namespace Sys2Proof.Machine

/-! ### The listed codes (R802) -/

/-- Where the result is an error, its number is listed. -/
def RaisesOnly {α : Type} (codes : List (BitVec 4)) (r : Except ErrorCode α) : Prop := ∀ c, r = .error c → c.number ∈ codes

section
variable {α : Type} {codes : List (BitVec 4)} {c : ErrorCode} {r : Except ErrorCode α}

theorem raisesOnly_ok (a : α) : RaisesOnly codes (.ok a : Except ErrorCode α) := by
  intro c hc
  cases hc

theorem raisesOnly_error (h : c.number ∈ codes) : RaisesOnly codes (.error c : Except ErrorCode α) := by
  rintro _ ⟨⟩
  exact h

/-- A check raises its own code, which is looked up in the command's row of R802, and what follows it must raise listed codes. -/
theorem raisesOnly_check {cond : Prop} [Decidable cond] (h : RaisesOnly codes r)
    (hc : c.number ∈ codes := by simp [Instr.errorCodes, ErrorCode.number]) :
    RaisesOnly codes (if cond then .error c else r) := by
  split
  · exact raisesOnly_error hc
  · exact h

end

/-- Removing a pad raises INVALID_PADDING or LENGTH_MISMATCH only (42_bitpack_padding.md R503). -/
theorem unpadBytes_raisesOnly (data : List Byte) (B orig : Nat) : RaisesOnly [2#4, 3#4] (unpadBytes data B orig) := by
  unfold unpadBytes
  split
  · exact raisesOnly_error (by decide)
  · exact raisesOnly_check (raisesOnly_check (raisesOnly_ok _))

/-- Steps 1 and 2 of R600 raise INVALID_ARGUMENT or RANGE only. -/
theorem codeSizeError_number_mem {p : Params} {n k : Nat} {c : ErrorCode} (h : codeSizeError p n k = some c) :
    c.number ∈ [1#4, 6#4] := by
  unfold codeSizeError at h
  split at h
  · cases h
    decide
  · split at h
    · cases h
      decide
    · cases h

/-- Every command's result raises a listed code only (R802). The cases follow the commands' checks; HCOMP's encoder does not fail. -/
theorem resultOf_raisesOnly (i : Instr) (s : State) : RaisesOnly i.errorCodes (resultOf i s) := by
  cases i with
  | nop => exact raisesOnly_ok _
  | hbuild => exact raisesOnly_check (raisesOnly_ok _)
  | hfreq | unpack | lcstoreh | lcstoreg => exact raisesOnly_check (raisesOnly_check (raisesOnly_ok _))
  | pad | lcsyn => exact raisesOnly_check (raisesOnly_check (raisesOnly_check (raisesOnly_ok _)))
  | lcenc | lcdec | lcencs | lcdecs =>
    exact raisesOnly_check (raisesOnly_check (raisesOnly_check (raisesOnly_check (raisesOnly_ok _))))
  | henc | hdec =>
    refine raisesOnly_check (raisesOnly_check ?_)
    split
    · exact raisesOnly_error (by decide)
    · exact raisesOnly_check (raisesOnly_ok _)
  | hcomp =>
    refine raisesOnly_check (raisesOnly_check ?_)
    dsimp only
    split
    · rename_i hnone
      exact absurd hnone (huffEncode_freqOf_ne_none _)
    · exact raisesOnly_check (raisesOnly_ok _)
  | hdecomp =>
    refine raisesOnly_check (raisesOnly_check ?_)
    dsimp only
    split
    · exact raisesOnly_error (by decide)
    · exact raisesOnly_check (raisesOnly_ok _)
  | hcode symbol =>
    refine raisesOnly_check ?_
    split
    · exact raisesOnly_ok _
    · exact raisesOnly_check (raisesOnly_ok _)
  | pack =>
    refine raisesOnly_check ?_
    split
    · exact raisesOnly_error (by decide)
    · exact raisesOnly_check (raisesOnly_ok _)
  | unpad =>
    refine raisesOnly_check (raisesOnly_check ?_)
    split
    · rename_i hunpad
      have hlisted := unpadBytes_raisesOnly _ _ _ _ hunpad
      exact raisesOnly_error (List.mem_cons_of_mem _ (List.mem_append_left [6#4] hlisted))
    · exact raisesOnly_check (raisesOnly_ok _)
  | lcgen | lcloadh =>
    dsimp only [resultOf, lcgenResult, lcloadhResult]
    split
    · rename_i hsize
      exact raisesOnly_error (codeSizeError_number_mem hsize)
    · exact raisesOnly_check (raisesOnly_ok _)

/-- A running command ends with ERR and ERRCODE still clear, or with ERR and a listed code. -/
theorem exec_errCode {i : Instr} {s t : State} (herr : s.err = false) (hcode : s.errCode = 0#4) (h : exec i s = .next t) :
    (t.err = false ∧ t.errCode = 0#4) ∨ (t.err = true ∧ t.errCode ∈ i.errorCodes) := by
  rcases exec_cases h with ⟨e, -, rfl⟩ | ⟨c, hc, rfl⟩
  · exact .inl ⟨herr, hcode⟩
  · exact .inr ⟨rfl, resultOf_raisesOnly i s c hc⟩

/-! ### The engine's completion -/

theorem step_of_engineReady {s : State} (h : s.engineReady) : step s = s.engineStep := by
  obtain ⟨hreset, hbusy, hready⟩ := h
  exact if_pos (engineMoves_of_ready hreset hbusy hready)

@[simp] theorem State.complete_ie (s : State) (r : CommandResult) : (s.complete r).ie = s.ie := by cases r <;> rfl

@[simp] theorem State.complete_done (s : State) (r : CommandResult) : (s.complete r).done = true := by cases r <;> rfl

/-- Completion sets DONE, so IRQ is what CTRL.IE says (R810). -/
theorem State.complete_irq (s : State) (r : CommandResult) : (s.complete r).irq = s.ie := by simp [State.irq]

/-- The engine's step is the completion of some result, that of a command or ILLEGAL_COMMAND. -/
theorem exists_engineStep_eq_complete (s : State) : ∃ r, s.engineStep = .next (s.complete r) := by
  rcases engineStep_cases s with ⟨i, -, h⟩ | ⟨e, -, h⟩
  · exact ⟨_, h⟩
  · exact ⟨_, h⟩

/-- Settles O5: the engine completes with ILLEGAL_COMMAND, whose number is 7. -/
theorem illegalWordCompletesWithIllegalCommand : Obligations.IllegalWordCompletesWithIllegalCommand := by
  intro s e hready hdecode
  rw [step_of_engineReady hready, State.engineStep, hdecode]
  rfl

/-! ### The errors of commands -/

/-- Settles O20: a success leaves ERR at 0, and an error completion changes only what `State.failedWith` does. -/
theorem commandErrorsArePrecise : Obligations.CommandErrorsArePrecise := by
  intro i s t herr h hfailed
  rcases exec_cases h with ⟨e, -, rfl⟩ | ⟨c, -, rfl⟩
  · simp [herr] at hfailed
  · exact ⟨c.number, c.number_ne_zero, takeError_eq s c⟩

/-- Settles O21: a command raises only what its result raises, and an illegal word is O5. -/
theorem commandsRaiseOnlyTheirListedCodes : Obligations.CommandsRaiseOnlyTheirListedCodes :=
  ⟨fun i s herr hcode => ⟨_, exec_eq i s, exec_errCode herr hcode (exec_eq i s)⟩,
    fun s e hready hdecode => ⟨_, illegalWordCompletesWithIllegalCommand s e hready hdecode, rfl, rfl⟩⟩

/-- Settles O22: the flag is the first check of each command that needs a table, and no other command lists code 4. -/
theorem notConfiguredIsCheckedFirst : Obligations.NotConfiguredIsCheckedFirst := by
  intro s
  refine ⟨fun hv i hi => ?_, fun hv i hi => ?_, fun hg i hi => ?_, fun herr hcode i hi t h hfour => ?_⟩
  · rcases hi with rfl | rfl | ⟨symbol, rfl⟩ <;> exact exec_error (c := .notConfigured) (if_pos hv)
  · fin_cases hi <;> exact exec_error (c := .notConfigured) (if_pos hv)
  · fin_cases hi <;> exact exec_error (c := .notConfigured) (if_pos hg)
  · have hunlisted : ∀ j ∈ [Instr.nop, .hfreq, .hbuild, .hcomp, .hdecomp, .pack, .unpack, .pad, .unpad, .lcgen, .lcloadh],
        4#4 ∉ j.errorCodes := by decide
    rcases exec_errCode herr hcode h with ⟨-, hzero⟩ | ⟨-, hlisted⟩
    · exact absurd (hzero.symm.trans hfour) (by decide)
    · exact hunlisted i hi (hfour ▸ hlisted)

/-! ### IRQ -/

/-- Without SRST a CTRL write sets IE to bit 1 and does nothing else (10_state.md R111). -/
theorem State.writeCtrl_of_not_srst (s : State) {v : Word} (h : v.getLsbD 0 = false) :
    s.writeCtrl v = { s with ie := v.getLsbD 1 } :=
  if_neg (ne_true_of_eq_false h)

/-- Settles O19: each write reaches its register, completion sets DONE, and no step changes a parameter. -/
theorem interruptLineFollowsEnableAndDone : Obligations.InterruptLineFollowsEnableAndDone := by
  refine ⟨?_, ?_, ?_, fun s line => ?_, fun s t h => ?_⟩
  · intro s v rest hreset hidle hsrst hp
    have hctrl : (s.takeInput rest).writeRegister .ctrl v = { s.takeInput rest with ie := v.getLsbD 1 } :=
      State.writeCtrl_of_not_srst _ hsrst
    refine ⟨_, step_register_write (r := .ctrl) hreset rfl (.inl hidle) hp, ?_⟩
    rw [hctrl]
    exact ⟨rfl, rfl⟩
  · rintro s v rest ⟨hreset, hturn⟩ hdone hp
    refine ⟨_, step_register_write (r := .status) hreset rfl (hturn.imp_right (⟨·, by decide⟩)) hp, rfl, ?_⟩
    simp [State.writeRegister, State.irq, hdone]
  · intro s hready
    obtain ⟨r, hr⟩ := exists_engineStep_eq_complete s
    exact ⟨_, (step_of_engineReady hready).trans hr, s.complete_ie r, s.complete_irq r⟩
  · simp [State.irqOnLine, State.irq]
  · rw [step_params h]

end Sys2Proof.Machine
end

section
/-! SUPPORT. What the block does with an access while BUSY = 1 (70_reset_and_hazards.md R910 to R914), and the two resets (R900 to
R902). -/

namespace Sys2Proof.Machine

/-! ### Completion leaves the inputs alone -/

@[simp] theorem State.complete_engine (s : State) (r : CommandResult) : (s.complete r).engine = .idle := by cases r <;> rfl

@[simp] theorem State.complete_pending (s : State) (r : CommandResult) : (s.complete r).pending = s.pending := by cases r <;> rfl

@[simp] theorem State.complete_params (s : State) (r : CommandResult) : (s.complete r).params = s.params := by cases r <;> rfl

@[simp] theorem State.complete_inReset (s : State) (r : CommandResult) : (s.complete r).inReset = s.inReset := by cases r <;> rfl

/-! ### The step that performs an input, by input -/

theorem step_input {s : State} (h : s.engineMoves = false) : step s = .next s.inputStep := if_neg (by simp [h])

theorem inputStep_access {s : State} {a : BusAccess} {rest : List Input} (hp : s.pending = .access a :: rest) :
    s.inputStep = (s.takeInput rest).performAccess a := by rw [State.inputStep, hp]

theorem inputStep_wait {s : State} {rest : List Input} (hidle : s.engine = .idle) (hp : s.pending = .wait :: rest) :
    s.inputStep = (s.takeInput rest).performAccess s.statusRead := by
  rw [State.inputStep, hp]
  exact if_neg (by simp [State.busy, hidle])

theorem inputStep_resetLine {s : State} {asserted : Bool} {rest : List Input} (hp : s.pending = .resetLine asserted :: rest) :
    s.inputStep = (s.takeInput rest).driveResetLine asserted := by rw [State.inputStep, hp]

/-! ### Held accesses (R911, R913) -/

/-- A CTRL write is held while BUSY = 1 (R911). -/
theorem holds_ctrl_write (p : Params) (v : Word) :
    Params.holds p { address := p.base + 0x04, bytes := 4, kind := .write v } = true := by
  unfold Params.holds
  rw [target_register (r := .ctrl) rfl]

/-- A held access at the head of the list lets the engine complete, whatever the delay (R920, log 5). -/
theorem engineMoves_held {s : State} {a : BusAccess} {rest : List Input} (hreset : s.inReset = false) (hbusy : s.engine = .busy)
    (hp : s.pending = .access a :: rest) (ha : Params.holds s.params a = true) : s.engineMoves = true := by
  simp [State.engineMoves, State.busy, hreset, hbusy, hp, ha]

/-- Settles O8: a held access lets the engine complete, and the completed state is IDLE with the same inputs. -/
theorem heldAccessesWaitForCompletion : Obligations.HeldAccessesWaitForCompletion := by
  intro s a rest hreset hbusy hp ha
  have hheld : Params.holds s.params a = true := by
    rcases ha with ⟨v, rfl⟩ | ⟨hlow, hhigh⟩
    · exact holds_ctrl_write s.params v
    · exact holds_dmem hlow hhigh
  obtain ⟨r, hr⟩ := exists_engineStep_eq_complete s
  refine ⟨s.complete r, (if_pos (engineMoves_held hreset hbusy hp hheld)).trans hr, hr, s.complete_engine r,
    s.complete_pending r, ?_⟩
  exact step_access ((s.complete_pending r).trans hp) (engineMoves_idle (s.complete_engine r))

/-! ### Accesses that are not held (R910, R912, R914) -/

/-- A CMD write while BUSY = 1 is dropped with CMD_OVR (R910). -/
theorem State.writeCmd_of_busy {s : State} (h : s.engine = .busy) (w : Word) : s.writeCmd w = { s with cmdOvr := true } := by
  simp [State.writeCmd, h]

/-- Settles O7: the write reaches CMD, and a BUSY engine drops it. -/
theorem cmdWriteWhileBusyIsDropped : Obligations.CmdWriteWhileBusyIsDropped := by
  intro s w rest hreset hbusy hdelay hp
  have hcmd : (s.takeInput rest).writeRegister .cmd w = { s.takeInput rest with cmdOvr := true } :=
    State.writeCmd_of_busy (s := s.takeInput rest) hbusy w
  rw [step_register_write (r := .cmd) hreset rfl (.inr ⟨hdelay, by decide⟩) hp, hcmd]
  rfl

/-- Settles O9: each offset is that of its ARG register, whose write is not held. -/
theorem argWritesTakeEffectAtOnce : Obligations.ArgWritesTakeEffectAtOnce := by
  rintro s v rest ⟨hreset, hturn⟩
  have writes {offset : Nat} {r : Reg} (ho : Reg.atOffset offset = some r) (hr : r ≠ .ctrl)
      (hp : s.pending = .access { address := s.params.base + offset, bytes := 4, kind := .write v } :: rest) :=
    step_register_write hreset ho (hturn.imp_right (⟨·, hr⟩)) hp
  exact ⟨writes (r := .arg0) rfl (by decide), writes (r := .arg1) rfl (by decide), writes (r := .arg2) rfl (by decide),
    writes (r := .arg3) rfl (by decide), writes (r := .arg4) rfl (by decide)⟩

/-- A register read answers the register's value and does nothing else, and a step performs it (10_state.md R102; R914). -/
theorem register_read {s : State} (hreset : s.inReset = false) {offset : Nat} {r : Reg} (ho : Reg.atOffset offset = some r) :
    s.performAccess { address := s.params.base + offset, bytes := 4, kind := .read }
        = { s with response := some (.data (s.readRegister r)) }
      ∧ ∀ rest, s.inputTurn →
          s.pending = .access { address := s.params.base + offset, bytes := 4, kind := .read } :: rest →
          step s = .next { s with pending := rest, delay := s.delay - 1, response := some (.data (s.readRegister r)) } :=
  ⟨performAccess_read hreset (target_register ho _) rfl, fun _ ⟨_, hturn⟩ hp => step_register_read hreset ho hturn hp⟩

/-- Settles O11: the sixteen rows of the register map; PARAM0 is put together from two parameters. -/
theorem registerReadsReturnTheirValues : Obligations.RegisterReadsReturnTheirValues := by
  intro s hreset
  have reads {offset : Nat} (r : Reg) (ho : Reg.atOffset offset = some r) := register_read (s := s) hreset ho
  exact ⟨reads .id rfl, reads .ctrl rfl, reads .status rfl, reads .cmd rfl, reads .arg0 rfl, reads .arg1 rfl, reads .arg2 rfl,
    reads .arg3 rfl, reads .arg4 rfl, reads .res0 rfl, reads .res1 rfl, reads .codeN rfl, reads .codeK rfl, reads .synd rfl,
    fun hlegal => State.param0Word_eq hlegal ▸ reads .param0 rfl, reads .param1 rfl⟩

/-! ### The resets (R900 to R902) -/

/-- With SRST a CTRL write is the soft reset, whatever its other bits say (10_state.md R111). -/
theorem State.writeCtrl_of_srst (s : State) {v : Word} (h : v.getLsbD 0 = true) : s.writeCtrl v = s.softReset := if_pos h

/-- Settles O16: an IDLE engine does not hold the write, and the soft reset writes each value. -/
theorem softResetRestoresRegistersAndKeepsDmem : Obligations.SoftResetRestoresRegistersAndKeepsDmem := by
  intro s v rest hreset hidle hsrst hp
  have hctrl : (s.takeInput rest).writeRegister .ctrl v = (s.takeInput rest).softReset := State.writeCtrl_of_srst _ hsrst
  refine ⟨_, step_register_write (r := .ctrl) hreset rfl (.inl hidle) hp, ?_⟩
  rw [hctrl]
  exact ⟨by rw [hidle]; rfl, rfl, rfl, rfl⟩

/-- While the reset input is asserted a read returns 0 and a write has no effect (R900). -/
theorem performAccess_of_inReset {s : State} (h : s.inReset = true) (a : BusAccess) :
    (a.kind = .read → s.performAccess a = s.respond (.data 0#32))
      ∧ (∀ v, a.kind = .write v → s.performAccess a = s.respond .done) := by
  unfold State.performAccess
  rw [if_pos h]
  exact ⟨fun hk => by rw [hk], fun v hk => by rw [hk]⟩

/-- An edge of the reset input, or a level that keeps it asserted, is a hardware reset (R900). -/
theorem State.driveResetLine_eq_hardReset {s : State} {asserted : Bool} (h : asserted = true ∨ s.inReset = true) :
    s.driveResetLine asserted = s.hardReset asserted := if_pos (by simpa using h)

theorem State.statusWord_hardReset (s : State) (asserted : Bool) : (s.hardReset asserted).statusWord = 0#32 := by
  simp [State.statusWord, State.busy]

/-- Settles O17: the hardware reset writes each value, and lists no byte of DMEM. -/
theorem hardwareResetRestoresResetState : Obligations.HardwareResetRestoresResetState := by
  intro s asserted rest hreset hm hp
  have hreset' : s.inputStep = (s.takeInput rest).hardReset asserted :=
    (inputStep_resetLine hp).trans (State.driveResetLine_eq_hardReset hreset)
  exact ⟨_, (step_input hm).trans (congrArg _ hreset'), rfl, rfl, rfl, rfl, State.statusWord_hardReset _ _, rfl, rfl, rfl, rfl,
    rfl, rfl, rfl, rfl, rfl, rfl, rfl, rfl, fun _ => rfl,
    fun hasserted => performAccess_of_inReset (s := (s.takeInput rest).hardReset asserted) hasserted⟩

end Sys2Proof.Machine
end

section
/-! SUPPORT. Runs of steps, and that BUSY falls whatever the free delay (70_reset_and_hazards.md R920). -/

namespace Sys2Proof.Machine

/-! ### Runs -/

theorem run_succ {s t : State} (h : step s = .next t) (m : Nat) : core.run (m + 1) s = core.run m t := by
  have hcore : core.step s = .next t := h
  simp only [Host.Core.run, hcore]

theorem run_one {s t : State} (h : step s = .next t) : core.run 1 s = .next t := run_succ h 0

theorem run_add {s t u : State} {m n : Nat} (h : core.run m s = .next t) (h' : core.run n t = .next u) :
    core.run (m + n) s = .next u := by
  induction m generalizing s with
  | zero =>
    obtain rfl : s = t := by injection h
    rwa [Nat.zero_add]
  | succ m ih =>
    obtain ⟨v, hv⟩ := step_next s
    rw [run_succ hv] at h
    rw [Nat.succ_add, run_succ hv, ih h]

/-! ### An input while BUSY = 1 -/

/-- The engine is IDLE in `t`, or BUSY with the delay and the reset input of `s`. -/
def State.IdleOrWaitsAs (t s : State) : Prop :=
  t.engine = .idle ∨ (t.inReset = s.inReset ∧ t.engine = .busy ∧ t.delay = s.delay)

/-- While BUSY = 1 a register write starts no command: it leaves the running one alone or resets the block (R910, R911). -/
theorem writeRegister_busy {s : State} (hbusy : s.engine = .busy) (r : Reg) (v : Word) :
    (s.writeRegister r v).IdleOrWaitsAs s := by
  cases r with
  | ctrl =>
    rw [State.writeRegister, State.writeCtrl]
    split
    · exact .inl rfl
    · exact .inr ⟨rfl, hbusy, rfl⟩
  | cmd =>
    rw [State.writeRegister, State.writeCmd_of_busy hbusy]
    exact .inr ⟨rfl, hbusy, rfl⟩
  | _ => exact .inr ⟨rfl, hbusy, rfl⟩

theorem performAccess_busy {s : State} (hbusy : s.engine = .busy) (a : BusAccess) : (s.performAccess a).IdleOrWaitsAs s := by
  rcases performAccess_cases s a with ⟨r, h⟩ | ⟨r, v, -, -, -, h⟩ | ⟨d, v, -, -, -, h⟩
  · rw [h]; exact .inr ⟨rfl, hbusy, rfl⟩
  · rw [h]; exact writeRegister_busy hbusy r v
  · rw [h]; exact .inr ⟨rfl, hbusy, rfl⟩

/-- Performing an input takes one from the delay of a running command, or the command is abandoned. -/
theorem inputStep_busy {s : State} (hbusy : s.engine = .busy) (hp : s.pending ≠ []) :
    ∃ rest, s.inputStep.IdleOrWaitsAs (s.takeInput rest) := by
  have access (rest : List Input) (a : BusAccess) :
      ((s.takeInput rest).performAccess a).IdleOrWaitsAs (s.takeInput rest) :=
    performAccess_busy (s := s.takeInput rest) hbusy a
  unfold State.inputStep
  split
  · exact absurd ‹s.pending = []› hp
  · exact ⟨_, access _ _⟩
  · split
    · exact ⟨_, access _ _⟩
    · exact ⟨_, access _ _⟩
  · rename_i rest _
    refine ⟨rest, ?_⟩
    unfold State.driveResetLine
    split
    · exact .inl rfl
    · exact .inr ⟨rfl, hbusy, rfl⟩

/-! ### BUSY falls -/

/-- A step while BUSY = 1 ends the command or takes one from its delay. -/
theorem step_busy {s : State} (hreset : s.inReset = false) (hbusy : s.engine = .busy) :
    ∃ t, step s = .next t ∧ (t.engine = .idle ∨ (t.inReset = false ∧ t.engine = .busy ∧ t.delay + 1 = s.delay)) := by
  obtain ⟨t, ht⟩ := step_next s
  refine ⟨t, ht, ?_⟩
  rcases step_cases ht with ⟨-, r, rfl, -⟩ | ⟨hm, rfl⟩
  · exact .inl (s.complete_engine r)
  · have hdelay : s.delay ≠ 0 := fun h => by simp [engineMoves_of_ready hreset hbusy (.inl h)] at hm
    have hp : s.pending ≠ [] := fun h => by simp [engineMoves_of_ready hreset hbusy (.inr h)] at hm
    obtain ⟨rest, hnext⟩ := inputStep_busy hbusy hp
    refine hnext.imp_right fun ⟨hr, hb, hd⟩ => ⟨hr.trans hreset, hb, ?_⟩
    rw [hd]
    exact Nat.sub_add_cancel (Nat.pos_of_ne_zero hdelay)

/-- Settles O58, by induction on the delay. -/
theorem busyAlwaysFalls : Obligations.BusyAlwaysFalls := by
  intro s
  induction hd : s.delay generalizing s with
  | zero =>
    intro hreset hbusy
    obtain ⟨t, ht, hidle | ⟨-, -, hdelay⟩⟩ := step_busy hreset hbusy
    · exact ⟨1, t, by simp, run_one ht, hidle⟩
    · omega
  | succ d ih =>
    intro hreset hbusy
    obtain ⟨t, ht, hidle | ⟨hr, hb, hdelay⟩⟩ := step_busy hreset hbusy
    · exact ⟨1, t, by omega, run_one ht, hidle⟩
    · obtain ⟨m, u, hm, hrun, hidle⟩ := ih t (by omega) hr hb
      exact ⟨m + 1, u, by omega, (run_succ ht m).trans hrun, hidle⟩

end Sys2Proof.Machine
end

section
/-! SUPPORT. No completion time shows to a host that waits (70_reset_and_hazards.md R915, R920): every run performs the inputs on
the state in which the running command has completed, up to the model's counters of time. -/

namespace Sys2Proof.Machine

/-! ### The state without its times -/

/-- The state with the model's two counters of time forgotten (log 5). -/
def State.untimed (s : State) : State := { s with delay := 0, issues := 0 }

/-- The result the running command completes with (30_encoding.md R311). -/
def State.runningResult (s : State) : CommandResult :=
  match decode s.latch.raw with
  | .ok i => resultOf i s
  | .error _ => .error .illegalCommand

theorem engineStep_eq (s : State) : s.engineStep = .next (s.complete s.runningResult) := by
  unfold State.engineStep State.runningResult
  cases decode s.latch.raw with
  | ok i => exact exec_eq i s
  | error e => rfl

/-- The state once the running command, if there is one, has completed, without its times. -/
def State.settled (s : State) : State :=
  if s.engine = .busy then (s.complete s.runningResult).untimed else s.untimed

theorem State.settled_of_idle {s : State} (h : s.engine = .idle) : s.settled = s.untimed := if_neg (by simp [h])

theorem State.settled_of_busy {s : State} (h : s.engine = .busy) : s.settled = (s.complete s.runningResult).untimed := if_pos h

/-! ### What no command reads or writes -/

/-- `s` with the argument registers, the inputs, the response and the counters of time of `h`: the part of the state that a host's
accesses change while a command runs, and that no command reads or writes. -/
def State.withHostPart (s h : State) : State :=
  { s with
    arg0 := h.arg0, arg1 := h.arg1, arg2 := h.arg2, arg3 := h.arg3, arg4 := h.arg4
    pending := h.pending, response := h.response, delay := h.delay, issues := h.issues }

/-- Commands read the latch, DMEM and the tables only (30_encoding.md R301, R311). -/
theorem resultOf_withHostPart (i : Instr) (s h : State) : resultOf i (s.withHostPart h) = resultOf i s := by cases i <;> rfl

theorem runningResult_withHostPart (s h : State) : (s.withHostPart h).runningResult = s.runningResult := by
  have hlatch : (s.withHostPart h).latch = s.latch := rfl
  unfold State.runningResult
  rw [hlatch]
  cases decode s.latch.raw with
  | ok i => exact resultOf_withHostPart i s h
  | error e => rfl

theorem complete_withHostPart (s h : State) (r : CommandResult) :
    (s.withHostPart h).complete r = (s.complete r).withHostPart h := by cases r <;> rfl

theorem complete_runningResult_withHostPart (s h : State) :
    (s.withHostPart h).complete (s.withHostPart h).runningResult = (s.complete s.runningResult).withHostPart h := by
  rw [runningResult_withHostPart, complete_withHostPart]

theorem State.settled_withHostPart {s : State} (hbusy : s.engine = .busy) (h : State) :
    (s.withHostPart h).settled = ((s.complete s.runningResult).withHostPart h).untimed := by
  rw [State.settled_of_busy (s := s.withHostPart h) hbusy, complete_runningResult_withHostPart]

/-! ### The times are not read but by the engine's move -/

/-- The counters of time belong to the host's part. -/
theorem State.settled_untimed (s : State) : s.untimed.settled = s.settled := by
  cases h : s.engine with
  | idle => rw [State.settled_of_idle h, State.settled_of_idle (s := s.untimed) h]; rfl
  | busy => exact (State.settled_withHostPart h s.untimed).trans (State.settled_of_busy h ▸ by cases s.runningResult <;> rfl)

theorem State.settled_congr {s t : State} (h : s.untimed = t.untimed) : s.settled = t.settled := by
  rw [← s.settled_untimed, h, t.settled_untimed]

theorem untimed_writeRegister (s : State) (r : Reg) (v : Word) :
    (s.untimed.writeRegister r v).untimed = (s.writeRegister r v).untimed := by
  cases r with
  | ctrl =>
    simp only [State.writeRegister, State.writeCtrl]
    split <;> rfl
  | cmd =>
    have hengine : s.untimed.engine = s.engine := rfl
    simp only [State.writeRegister, State.writeCmd, hengine]
    split <;> rfl
  | _ => rfl

theorem untimed_performAccess (s : State) (a : BusAccess) :
    (s.untimed.performAccess a).untimed = (s.performAccess a).untimed := by
  have hreset : s.untimed.inReset = s.inReset := rfl
  have hparams : s.untimed.params = s.params := rfl
  unfold State.performAccess
  rw [hreset, hparams]
  split
  · split <;> rfl
  · split
    · rfl
    · rfl
    · rfl
    · -- a register read
      rename_i r _ _
      cases r <;> rfl
    · -- a register write
      rename_i r v _ _
      exact congrArg (State.respond · .done) (untimed_writeRegister s r v)
    · rfl
    · rfl

theorem untimed_inputStep (s : State) : s.untimed.inputStep.untimed = s.inputStep.untimed := by
  have access (rest : List Input) (a : BusAccess) :
      ((s.untimed.takeInput rest).performAccess a).untimed = ((s.takeInput rest).performAccess a).untimed :=
    (untimed_performAccess (s.untimed.takeInput rest) a).symm.trans (untimed_performAccess (s.takeInput rest) a)
  have hp : s.untimed.pending = s.pending := rfl
  have hwait : (!s.untimed.inReset && s.untimed.busy) = (!s.inReset && s.busy) := rfl
  have hread : s.untimed.statusRead = s.statusRead := rfl
  unfold State.inputStep
  rw [hp, hwait, hread]
  split
  · rfl
  · exact access _ _
  · split
    · exact access _ _
    · exact access _ _
  · rename_i asserted rest _
    have hreset : (s.untimed.takeInput rest).inReset = (s.takeInput rest).inReset := rfl
    unfold State.driveResetLine
    rw [hreset]
    split <;> rfl

/-- The next input performed on the completed state, and the command it may start completed at once: what every run does, up to
times. -/
def State.settledStep (s : State) : State := s.settled.inputStep.settled

theorem State.settledStep_of_idle {s : State} (h : s.engine = .idle) : s.settledStep = s.inputStep.settled := by
  rw [State.settledStep, State.settled_of_idle h]
  exact State.settled_congr (untimed_inputStep s)

theorem State.settledStep_of_busy {s : State} (h : s.engine = .busy) :
    s.settledStep = (s.complete s.runningResult).inputStep.settled := by
  rw [State.settledStep, State.settled_of_busy h]
  exact State.settled_congr (untimed_inputStep _)

theorem State.settled_engine (s : State) : s.settled.engine = .idle := by
  cases h : s.engine with
  | idle => rw [State.settled_of_idle h]; exact h
  | busy => rw [State.settled_of_busy h]; exact s.complete_engine _

theorem State.settledStep_settled (s : State) : s.settled.settledStep = s.settledStep := State.settledStep_of_idle s.settled_engine

/-! ### The waiting duty (R915) -/

/-- An access that starts a command. -/
def BusAccess.issues (p : Params) (a : BusAccess) : Bool :=
  match Params.target p a, a.kind with
  | .register .cmd, .write _ => true
  | _, _ => false

/-- An access that the host must not make before completion. -/
def BusAccess.mustWait (p : Params) (a : BusAccess) : Bool :=
  match Params.target p a, a.kind with
  | .register .cmd, .write _ => true
  | .register .status, .write _ => true
  | .register r, .read => r.volatile
  | _, _ => false

theorem obeysWaitingDuty_access (p : Params) (running : Bool) (a : BusAccess) (rest : List Input) :
    obeysWaitingDuty p running (.access a :: rest)
      = ((!running || !a.mustWait p) && obeysWaitingDuty p (running || a.issues p) rest) := by
  -- by `rfl`: the equation compiler splits the overlapping patterns into too many cases
  have hduty : obeysWaitingDuty p running (.access a :: rest) =
      (match Params.target p a, a.kind with
      | .register .cmd, .write _ => !running && obeysWaitingDuty p true rest
      | .register .status, .write _ => !running && obeysWaitingDuty p running rest
      | .register r, .read => (!running || !r.volatile) && obeysWaitingDuty p running rest
      | _, _ => obeysWaitingDuty p running rest) := rfl
  rw [hduty, BusAccess.mustWait, BusAccess.issues]
  cases Params.target p a with
  | register r =>
    cases a.kind with
    | read => cases r <;> simp
    | write v => cases r <;> cases running <;> simp
  | _ => simp

/-- The inputs obey the waiting duty, whether or not a command runs now, and the engine is IDLE while reset is asserted (R900). -/
def State.Obedient (s : State) : Prop :=
  (s.inReset = true → s.engine = .idle)
    ∧ ∃ running, (s.engine = .busy → running = true) ∧ obeysWaitingDuty s.params running s.pending = true

@[simp] theorem State.writeRegister_frame (s : State) (r : Reg) (v : Word) :
    (s.writeRegister r v).inReset = s.inReset ∧ (s.writeRegister r v).pending = s.pending := by
  cases r with
  | ctrl => rw [State.writeRegister, State.writeCtrl]; split <;> exact ⟨rfl, rfl⟩
  | cmd => rw [State.writeRegister, State.writeCmd]; split <;> exact ⟨rfl, rfl⟩
  | _ => exact ⟨rfl, rfl⟩

/-- Performing an access changes neither the reset input nor the inputs to come. -/
@[simp] theorem State.performAccess_frame (s : State) (a : BusAccess) :
    (s.performAccess a).inReset = s.inReset ∧ (s.performAccess a).pending = s.pending := by
  rcases performAccess_cases s a with ⟨r, h⟩ | ⟨r, v, -, -, -, h⟩ | ⟨d, v, -, -, -, h⟩
  · rw [h]; exact ⟨rfl, rfl⟩
  · rw [h]; exact s.writeRegister_frame r v
  · rw [h]; exact ⟨rfl, rfl⟩

theorem State.Obedient.inReset_of_busy {s : State} (h : s.Obedient) (hbusy : s.engine = .busy) : s.inReset = false := by
  cases hr : s.inReset with
  | false => rfl
  | true => exact absurd (hbusy.symm.trans (h.1 hr)) (by decide)

/-- Only a CMD write starts a command (R310). -/
theorem performAccess_idle {s : State} {a : BusAccess} (hidle : s.engine = .idle) (ha : a.issues s.params = false) :
    (s.performAccess a).engine = .idle := by
  rcases performAccess_cases s a with ⟨r, h⟩ | ⟨r, v, -, ht, hk, h⟩ | ⟨d, v, -, -, -, h⟩
  · rw [h]; exact hidle
  · rw [h]
    cases r with
    | cmd => simp [BusAccess.issues, ht, hk] at ha
    | ctrl =>
      rw [State.writeRegister, State.writeCtrl]
      split
      · rfl
      · exact hidle
    | _ => exact hidle
  · rw [h]; exact hidle

/-- While reset is asserted no access starts a command (R900). -/
theorem performAccess_engine_of_inReset {s : State} (h : s.inReset = true) (a : BusAccess) :
    (s.performAccess a).engine = s.engine := by
  obtain ⟨hread, hwrite⟩ := performAccess_of_inReset h a
  cases hk : a.kind with
  | read => rw [hread hk]; rfl
  | write v => rw [hwrite v hk]; rfl

theorem State.Obedient.performAccess {s : State} {a : BusAccess} {rest : List Input} (h : s.Obedient)
    (hp : s.pending = .access a :: rest) : ((s.takeInput rest).performAccess a).Obedient := by
  obtain ⟨hreset, running, hrunning, hduty⟩ := h
  rw [hp, obeysWaitingDuty_access, Bool.and_eq_true] at hduty
  refine ⟨fun hr => ?_, running || a.issues s.params, fun hb => ?_, by simpa using hduty.2⟩
  · have hr' : s.inReset = true := by simpa using hr
    exact (performAccess_engine_of_inReset (s := s.takeInput rest) hr' a).trans (hreset hr')
  · cases hs : s.engine with
    | busy => rw [hrunning hs, Bool.true_or]
    | idle =>
      cases ha : a.issues s.params with
      | true => exact Bool.or_true _
      | false => exact absurd (hb.symm.trans (performAccess_idle (s := s.takeInput rest) hs ha)) (by decide)

theorem State.Obedient.driveResetLine {s : State} {asserted : Bool} {rest : List Input} (h : s.Obedient)
    (hp : s.pending = .resetLine asserted :: rest) : ((s.takeInput rest).driveResetLine asserted).Obedient := by
  obtain ⟨hreset, running, hrunning, hduty⟩ := h
  rw [hp] at hduty
  unfold State.driveResetLine
  split
  · exact ⟨fun _ => rfl, running, nofun, hduty⟩
  · exact ⟨hreset, running, hrunning, hduty⟩

/-- A read changes the response alone (10_state.md R102). -/
theorem performAccess_of_read {a : BusAccess} (hk : a.kind = .read) (s : State) : ∃ r, s.performAccess a = s.respond r := by
  rcases performAccess_cases s a with h | ⟨_, _, -, -, hw, -⟩ | ⟨_, _, -, -, hw, -⟩
  · exact h
  · cases hk.symm.trans hw
  · cases hk.symm.trans hw

/-- Performing an input keeps the duty and takes the input from the list, but for a WAIT while BUSY = 1. -/
theorem State.Obedient.inputStep {s : State} {i : Input} {rest : List Input} (h : s.Obedient) (hp : s.pending = i :: rest)
    (hi : s.engine = .idle ∨ i ≠ .wait) : s.inputStep.Obedient ∧ s.inputStep.pending = rest := by
  cases i with
  | access a =>
    rw [inputStep_access hp]
    exact ⟨h.performAccess hp, (State.performAccess_frame _ _).2⟩
  | wait =>
    have hidle : s.engine = .idle := hi.resolve_right (fun hne => hne rfl)
    obtain ⟨r, hr⟩ := performAccess_of_read (a := s.statusRead) rfl (s.takeInput rest)
    obtain ⟨hreset, running, -, hduty⟩ := h
    rw [hp] at hduty
    rw [inputStep_wait hidle hp, hr]
    exact ⟨⟨fun _ => hidle, false, fun hb => absurd (hidle.symm.trans hb) (by decide), hduty⟩, rfl⟩
  | resetLine asserted =>
    rw [inputStep_resetLine hp]
    refine ⟨h.driveResetLine hp, ?_⟩
    unfold State.driveResetLine
    split <;> rfl

/-! ### Inputs while BUSY = 1 -/

/-- `u` agrees with `s` on all that an access the host may make before completion reads. -/
def SameHostView (s u : State) : Prop :=
  u.params = s.params ∧ u.inReset = s.inReset ∧ u.ie = s.ie ∧ u.withHostPart s = u

theorem SameHostView.refl (s : State) : SameHostView s s := ⟨rfl, rfl, rfl, rfl⟩

theorem sameHostView_complete (s : State) (r : CommandResult) : SameHostView s (s.complete r) := by
  cases r <;> exact ⟨rfl, rfl, rfl, rfl⟩

/-- An access that the block does not hold and the host may make before completion changes the host's part alone, and alike in
every state with the same view. -/
theorem performAccess_withHostPart {s u : State} {a : BusAccess} (hreset : s.inReset = false)
    (hheld : Params.holds s.params a = false) (hwait : a.mustWait s.params = false) (hview : SameHostView s u) :
    u.performAccess a = u.withHostPart (s.performAccess a) := by
  obtain ⟨hparams, hureset, hie, hhost⟩ := hview
  have answer (r : BusResponse) : u.respond r = u.withHostPart (s.respond r) := by rw [← hhost]; rfl
  have read {r : Reg} (hr : r.volatile = false) : u.readRegister r = s.readRegister r := by
    rw [← hhost]
    cases r with
    | status | res0 | res1 | codeN | codeK | synd => cases hr
    | ctrl => simp [State.readRegister, State.ctrlWord, State.withHostPart, hie]
    | param0 => simp [State.readRegister, State.param0Word, State.withHostPart, hparams]
    | param1 => simp [State.readRegister, State.param1Word, State.withHostPart, hparams]
    | _ => rfl
  unfold Params.holds at hheld
  unfold BusAccess.mustWait at hwait
  unfold State.performAccess
  rw [if_neg (by simp [hureset, hreset]), if_neg (by simp [hreset]), hparams]
  split
  · exact answer _
  · exact answer _
  · exact answer _
  · -- a register read, of a register that completion does not change
    rename_i r ht hk
    rw [ht, hk] at hwait
    have hr : r.volatile = false := by cases r <;> exact hwait
    rw [read hr]
    exact answer _
  · -- a register write: CTRL is held, CMD and STATUS must wait
    rename_i r v ht hk
    rw [ht, hk] at hwait hheld
    rw [← hhost]
    cases r with
    | ctrl => cases hheld
    | cmd | status => cases hwait
    | _ => rfl
  · -- DMEM accesses are held
    rename_i d ht hk
    rw [ht] at hheld
    cases hheld
  · rename_i d v ht hk
    rw [ht] at hheld
    cases hheld

/-- An access before completion and one after it give states that settle alike. -/
theorem settled_performAccess {s : State} {a : BusAccess} (hreset : s.inReset = false) (hbusy : s.engine = .busy)
    (hheld : Params.holds s.params a = false) (hwait : a.mustWait s.params = false) :
    (s.performAccess a).settled = ((s.complete s.runningResult).performAccess a).settled := by
  have hself := performAccess_withHostPart hreset hheld hwait (.refl s)
  have hafter := performAccess_withHostPart hreset hheld hwait (sameHostView_complete s s.runningResult)
  have hidle : ((s.complete s.runningResult).performAccess a).engine = .idle := by rw [hafter]; exact s.complete_engine _
  calc (s.performAccess a).settled
      = ((s.complete s.runningResult).withHostPart (s.performAccess a)).untimed := by
        rw [← State.settled_withHostPart hbusy, ← hself]
    _ = ((s.complete s.runningResult).performAccess a).settled := by rw [← hafter, State.settled_of_idle hidle]

/-- Taking an input from the list is an update of the host's part. -/
theorem takeInput_complete (s : State) (rest : List Input) :
    (s.takeInput rest).complete (s.takeInput rest).runningResult = (s.complete s.runningResult).takeInput rest :=
  (complete_runningResult_withHostPart s (s.takeInput rest)).trans (by cases s.runningResult <;> rfl)

theorem settled_driveResetLine {s : State} (hreset : s.inReset = false) (hbusy : s.engine = .busy) (asserted : Bool) :
    (s.driveResetLine asserted).settled = ((s.complete s.runningResult).driveResetLine asserted).settled := by
  unfold State.driveResetLine
  rw [State.complete_inReset, hreset, Bool.or_false]
  cases asserted with
  | true => cases s.runningResult <;> rfl
  | false =>
    calc s.settled = (s.complete s.runningResult).untimed := State.settled_of_busy hbusy
      _ = (s.complete s.runningResult).settled := (State.settled_of_idle (s.complete_engine _)).symm

/-- An input that the engine lets pass before completion is performed as after it. -/
theorem settled_inputStep_of_busy {s : State} {i : Input} {rest : List Input} (h : s.Obedient) (hbusy : s.engine = .busy)
    (hm : s.engineMoves = false) (hp : s.pending = i :: rest) (hi : i ≠ .wait) :
    s.inputStep.settled = s.settledStep := by
  have hreset : s.inReset = false := h.inReset_of_busy hbusy
  have hp' : (s.complete s.runningResult).pending = i :: rest := by rw [State.complete_pending, hp]
  rw [State.settledStep_of_busy hbusy]
  cases i with
  | wait => exact absurd rfl hi
  | resetLine asserted =>
    rw [inputStep_resetLine hp, inputStep_resetLine hp', ← takeInput_complete]
    exact settled_driveResetLine (s := s.takeInput rest) hreset hbusy asserted
  | access a =>
    have hheld : Params.holds s.params a = false := by
      by_contra hno
      rw [Bool.not_eq_false] at hno
      simp [engineMoves_held hreset hbusy hp hno] at hm
    have hwait : a.mustWait s.params = false := by
      obtain ⟨-, running, hrunning, hduty⟩ := h
      rw [hp, hrunning hbusy, obeysWaitingDuty_access, Bool.and_eq_true] at hduty
      simpa using hduty.1
    rw [inputStep_access hp, inputStep_access hp', ← takeInput_complete]
    exact settled_performAccess (s := s.takeInput rest) hreset hbusy hheld hwait

/-! ### Runs of a host that waits -/

theorem step_complete {s : State} (h : s.engineMoves = true) : step s = .next (s.complete s.runningResult) :=
  (if_pos h).trans (engineStep_eq s)

theorem State.Obedient.complete {s : State} (h : s.Obedient) (r : CommandResult) : (s.complete r).Obedient := by
  obtain ⟨-, running, -, hduty⟩ := h
  exact ⟨fun _ => s.complete_engine r, running, fun hb => absurd ((s.complete_engine r).symm.trans hb) (by decide),
    by simpa using hduty⟩

/-- A STATUS read of a WAIT that stays is not seen after the WAIT: its last read overwrites the response (R307). -/
theorem settledStep_wait {s t : State} {rest : List Input} {r : BusResponse} (hreset : s.inReset = false)
    (hbusy : s.engine = .busy) (hp : s.pending = .wait :: rest) (ht : t = (s.takeInput (.wait :: rest)).respond r) :
    t.settledStep = s.settledStep := by
  have last {u : State} (hu : u.inReset = false) (hidle : u.engine = .idle) (hpu : u.pending = .wait :: rest) :
      u.inputStep = (u.takeInput rest).respond (.data u.statusWord) :=
    (inputStep_wait hidle hpu).trans (performAccess_statusRead hu rest)
  have hpart : t = s.withHostPart t := by rw [ht]; rfl
  have hcomplete : t.complete t.runningResult = (s.complete s.runningResult).withHostPart t :=
    (congrArg (fun u => u.complete u.runningResult) hpart).trans (complete_runningResult_withHostPart s t)
  have hreset' : (s.complete s.runningResult).inReset = false := by simpa using hreset
  rw [State.settledStep_of_busy hbusy, State.settledStep_of_busy (s := t) (ht ▸ hbusy), hcomplete,
    last hreset' (State.complete_engine _ _) (by simpa using hp),
    last (u := (s.complete s.runningResult).withHostPart t) hreset' (State.complete_engine _ _) (ht ▸ rfl), ht]
  apply State.settled_congr
  cases s.runningResult <;> rfl

theorem runs_input_of_idle {s : State} {i : Input} {rest : List Input} (h : s.Obedient) (hidle : s.engine = .idle)
    (hp : s.pending = i :: rest) :
    ∃ m t, core.run m s = .next t ∧ t.Obedient ∧ t.pending = rest ∧ t.settled = s.settledStep := by
  obtain ⟨hnext, hrest⟩ := h.inputStep hp (.inl hidle)
  exact ⟨1, s.inputStep, run_one (step_input (engineMoves_idle hidle)), hnext, hrest, (State.settledStep_of_idle hidle).symm⟩

/-- Once the running command has completed, the run goes on as from an IDLE engine. -/
theorem runs_input_of_moves {s : State} {i : Input} {rest : List Input} (h : s.Obedient) (hm : s.engineMoves = true)
    (hp : s.pending = i :: rest) :
    ∃ m t, core.run m s = .next t ∧ t.Obedient ∧ t.pending = rest ∧ t.settled = s.settledStep := by
  obtain ⟨m, t, hrun, ht⟩ := runs_input_of_idle (h.complete s.runningResult) (s.complete_engine _)
    ((s.complete_pending _).trans hp)
  refine ⟨m + 1, t, (run_succ (step_complete hm) m).trans hrun, ?_⟩
  rwa [State.settledStep_of_idle (s.complete_engine _), ← State.settledStep_of_busy (engine_of_engineMoves hm)] at ht

/-- Whatever the delay, the run performs the next input, and ends it in a state that settles as the input on the completed
state does: by induction on the delay, for a WAIT stays until it has run out. -/
theorem runs_input {s : State} {i : Input} {rest : List Input} (h : s.Obedient) (hp : s.pending = i :: rest) :
    ∃ m t, core.run m s = .next t ∧ t.Obedient ∧ t.pending = rest ∧ t.settled = s.settledStep := by
  induction hd : s.delay using Nat.strong_induction_on generalizing s with
  | _ d ih =>
    subst hd
    cases hs : s.engine with
    | idle => exact runs_input_of_idle h hs hp
    | busy =>
      cases hm : s.engineMoves with
      | true => exact runs_input_of_moves h hm hp
      | false =>
        have hreset : s.inReset = false := h.inReset_of_busy hs
        by_cases hi : i = .wait
        · subst hi
          have hdelay : s.delay ≠ 0 := fun hz => by simp [engineMoves_of_ready hreset hs (.inl hz)] at hm
          have hstep := step_wait hreset hp (.inr hdelay)
          rw [if_pos (by simp [State.busy, hs])] at hstep
          -- neither the inputs nor what the duty speaks of has changed
          have hstays : ((s.takeInput (.wait :: rest)).respond (.data s.statusWord)).Obedient := by
            rw [State.Obedient] at h
            rwa [hp] at h
          obtain ⟨m, t, hrun, ht⟩ := ih (s.delay - 1) (by omega) hstays rfl rfl
          rw [settledStep_wait hreset hs hp rfl] at ht
          exact ⟨m + 1, t, (run_succ hstep m).trans hrun, ht⟩
        · obtain ⟨hnext, hrest⟩ := h.inputStep hp (.inr hi)
          exact ⟨1, s.inputStep, run_one (step_input hm), hnext, hrest, settled_inputStep_of_busy h hs hm hp hi⟩

/-- Whatever the delays, the run performs every input and ends IDLE, in the state that the inputs reach on completed states. -/
theorem runs_all {s : State} (h : s.Obedient) :
    ∃ m t, core.run m s = .next t ∧ t.pending = [] ∧ t.engine = .idle ∧
      t.untimed = State.settledStep^[s.pending.length] s.settled := by
  induction hp : s.pending generalizing s with
  | nil =>
    cases hs : s.engine with
    | idle => exact ⟨0, s, rfl, hp, hs, (State.settled_of_idle hs).symm⟩
    | busy =>
      exact ⟨1, _, run_one (step_complete (engineMoves_of_ready (h.inReset_of_busy hs) hs (.inr hp))),
        (s.complete_pending _).trans hp, s.complete_engine _, (State.settled_of_busy hs).symm⟩
  | cons i rest ih =>
    obtain ⟨m, t, hrun, ht, hrest, hsettled⟩ := runs_input h hp
    obtain ⟨n, u, hrun', hpu, hidle, hu⟩ := ih ht hrest
    refine ⟨m + n, u, run_add hrun hrun', hpu, hidle, ?_⟩
    rw [hu, hsettled, List.length_cons, Function.iterate_succ_apply, State.settledStep_settled]

/-- Settles O59: both runs end in the state that `runs_all` names, and that state depends on no time. -/
theorem completionTimesAreUnobservableToWaitingHosts : Obligations.CompletionTimesAreUnobservableToWaitingHosts := by
  intro s delay1 delay2 issues1 issues2 hreset hduty
  have hs (d k : Nat) : State.Obedient { s with delay := d, issues := k } :=
    ⟨hreset, decide (s.engine = .busy), decide_eq_true, hduty⟩
  obtain ⟨m1, t1, hrun1, hp1, hidle1, ht1⟩ := runs_all (hs delay1 issues1)
  obtain ⟨m2, t2, hrun2, hp2, hidle2, ht2⟩ := runs_all (hs delay2 issues2)
  have hsettled : State.settled { s with delay := delay1, issues := issues1 }
      = State.settled { s with delay := delay2, issues := issues2 } := State.settled_congr rfl
  exact ⟨m1, m2, t1, t2, hrun1, hp1, hidle1, hrun2, hp2, hidle2, ht1.trans (hsettled ▸ ht2.symm)⟩

end Sys2Proof.Machine
end
